-- ==== Sys2Proof/Word.lean ====
section
/-! DEFINITION. The widths of `TXSEQ`: bytes (the bus, the frame buffer, the payloads), 16-bit window
coordinates and pixels, 32-bit registers, and two-level lines (`00_scope.md` R5, R11). -/

namespace Sys2Proof

/-- A byte is 8 bits (R11). -/
abbrev Byte := BitVec 8

/-- A 16-bit value: a window coordinate (R22, `COORD_BITS`) or a packed pixel (R120). -/
abbrev Half := BitVec 16

/-- A 32-bit register or length field (R25, R26, R60). -/
abbrev Word := BitVec 32

/-- The level of a discrete line: `false` is 0 (low), `true` is 1 (high) (R5). -/
abbrev Level := Bool

end Sys2Proof
end

