-- ==== Sys2Proof/Config.lean ====
section
/-! DEFINITION. What is fixed for a run and what the environment leaves free: the parameters of
`00_scope.md` R6 with their reference values, the derived constants of R7, and the free values of R9. -/

namespace Sys2Proof

/-- A Color: three 8-bit channels (`42_rect_fill.md` R120). -/
structure Color where
  r : Byte
  g : Byte
  b : Byte
  deriving DecidableEq, Repr, Inhabited

/-- Format `INITSTEP`: command, data bytes, post-delay in milliseconds (`30_encoding.md` R72). -/
structure InitStep where
  code  : Byte
  data  : List Byte
  delay : Nat
  deriving DecidableEq, Repr, Inhabited

/-- One entry of `RST_SCRIPT`: a level and a delay in milliseconds (`30_encoding.md` R72). -/
structure RstStep where
  level : Level
  delay : Nat
  deriving DecidableEq, Repr, Inhabited

/-- The environment's answer to one bus message (R9 (a) and (b), R14, R94).
`ok rx` carries the bytes a receive gets, in arrival order.
`never` is the message that never completes (R94, U9). -/
inductive BusAnswer where
  | ok (rx : List Byte)
  | fail
  | never
  deriving DecidableEq, Repr, Inhabited

/-- What the environment supplies for one RectTest WRITE (R9 (d), R127, R128): a rectangle, the low two
bits of the random byte, and the colour that is used when those bits are 3. -/
structure RectDraw where
  x   : Nat
  y   : Nat
  w   : Nat
  h   : Nat
  sel : BitVec 2
  rgb : Color
  deriving DecidableEq, Repr, Inhabited

/-- The parameters of R6 that are OPEN. They are constant for a run (`10_state.md` R36). -/
structure Config where
  rtYlim       : Nat
  cmdNop       : Byte
  cmdSwreset   : Byte
  cmdSlpout    : Byte
  cmdDispon    : Byte
  cmdCaset     : Byte
  cmdPaset     : Byte
  cmdRamwr     : Byte
  cmdRamrd     : Byte
  cmdPixfmt    : Byte
  initScript   : List InitStep
  rstScript    : List RstStep
  colorRed     : Color
  colorGreen   : Color
  colorBlue    : Color
  reqSetMode   : Byte
  maxLen       : Nat
  strictRowLen : Bool
  deriving DecidableEq, Repr

namespace Config

/-- `PANEL_W` (R6). -/
def panelW : Nat := 240
/-- `PANEL_H` (R6; `90_conflicts.md` C1). -/
def panelH : Nat := 320
/-- `BPP`, bytes per pixel (R6). -/
def bpp : Nat := 2
/-- `RECT_DESC_SIZE` (R6). -/
def rectDescSize : Nat := 16
/-- `FB_SIZE = PANEL_W * PANEL_H * BPP` (R7). -/
def fbSize : Nat := 153600
/-- `ROW_STRIDE`, which is also `SCAN_MAX` (R7). -/
def rowStride : Nat := 480

/-- `OP_WRITE`, `OP_READ`, `OP_CTRL` (R6, R60). -/
def opWrite : Byte := 0x00
def opRead  : Byte := 0x01
def opCtrl  : Byte := 0x02

/-- `MODE_IDLE`, `MODE_RECT`, `MODE_STREAM` as mode bytes (R6, R64). -/
def modeIdle   : Byte := 0x00
def modeRect   : Byte := 0x01
def modeStream : Byte := 0x02

/-- The nine command bytes, in the order of R71. -/
def commands (c : Config) : List Byte :=
  [c.cmdNop, c.cmdSwreset, c.cmdSlpout, c.cmdDispon, c.cmdCaset, c.cmdPaset, c.cmdRamwr, c.cmdRamrd,
   c.cmdPixfmt]

/-- The shape of `INIT_SCRIPT` (`45_read_and_init.md` R183): software reset first; pixel format,
sleep-exit and display-on last; anything between. -/
def initShape (c : Config) : Bool :=
  match c.initScript with
  | [] => false
  | first :: rest =>
    decide (first.code = c.cmdSwreset) && decide (first.data = []) &&
    match rest.reverse with
    | dispon :: slpout :: pixfmt :: _ =>
      decide (dispon.code = c.cmdDispon) && decide (dispon.data = []) &&
      decide (slpout.code = c.cmdSlpout) && decide (slpout.data = []) &&
      decide (pixfmt.code = c.cmdPixfmt)
    | _ => false

/-- What R6, R71 and R183 require of the parameters: distinct command bytes, `RT_YLIM` 100 or 320,
`MAX_LEN` within the 4-byte length field, the script's shape. -/
def wf (c : Config) : Bool :=
  decide c.commands.Nodup && (decide (c.rtYlim = 100) || decide (c.rtYlim = panelH)) &&
  decide (c.maxLen < 2 ^ 32) && c.initShape

/-- The reference value of every parameter (R6, R71, R129, R186, R232). The command bytes, the init
script's bytes and delays and the reset pulse are the spec's, marked by it as general knowledge. -/
def reference : Config where
  rtYlim       := panelH
  cmdNop       := 0x00
  cmdSwreset   := 0x01
  cmdSlpout    := 0x11
  cmdDispon    := 0x29
  cmdCaset     := 0x2A
  cmdPaset     := 0x2B
  cmdRamwr     := 0x2C
  cmdRamrd     := 0x2E
  cmdPixfmt    := 0x3A
  initScript   := [⟨0x01, [], 150⟩, ⟨0x3A, [0x55], 0⟩, ⟨0x11, [], 120⟩, ⟨0x29, [], 0⟩]
  rstScript    := [⟨false, 10⟩, ⟨true, 120⟩]
  colorRed     := ⟨255, 0, 0⟩
  colorGreen   := ⟨0, 255, 0⟩
  colorBlue    := ⟨0, 0, 255⟩
  reqSetMode   := 0x00
  maxLen       := 2 ^ 32 - 1
  strictRowLen := false

/-! The free values of R9. Nothing is known of them; each is applied to a counter or an index held in
State (`notes/assumptions/1.md`, `2.md`). -/

/-- The answer to bus message number `n` of the run, when State lists none (R9 (a), R94). -/
opaque busAnswer : Nat → BusAnswer

/-- Received byte `i` of bus message number `n`, when State lists none (R9 (b)). -/
opaque rxByte : Nat → Nat → Byte

/-- `alloc_ok` for buffer acquisition number `n`, when State lists none (R9 (c)). -/
opaque allocOk : Nat → Bool

/-- The draw of RectTest WRITE number `n`, when State lists none (R9 (d)). -/
opaque rectDraw : Nat → RectDraw

/-- `FB_INIT`: the contents of byte `a` of the frame buffer after reset number `n` (`10_state.md` R28). -/
opaque fbInit : Nat → Nat → Byte

end Config

end Sys2Proof
end

