-- ==== Sys2Proof/Syntax.lean ====
section
/-! DEFINITION. The instructions of `TXSEQ`, one constructor per row of `spec/opcode_table.json`, and the
two forms they travel in: bytes on the host port and command frames on the bus port. -/

namespace Sys2Proof

/-- The three modes (`10_state.md` R21). The value 3 is never stored. -/
inductive Mode where
  | idle
  | rect
  | stream
  deriving DecidableEq, Repr

/-- One constructor per row of the opcode table (`30_encoding.md` R78). The first seven are the requests
the bytes tell apart; the next five are the meanings of a WRITE, told apart by the state (R65); the last
nine are the commands the block sends on the bus (R71), each with the data that follows it. -/
inductive Instr where
  /-- `WRITE p` (R143). -/
  | write (payload : List Byte)
  /-- `READ count` (R180). -/
  | read (count : Word)
  /-- `SETMODE IDLE` (R138). -/
  | setmodeIdle
  /-- `SETMODE RECT` (R139). -/
  | setmodeRect
  /-- `SETMODE STREAM` (R140). -/
  | setmodeStream
  /-- `SETMODE arg` with `arg` out of range (R137). -/
  | setmodeInvalid (arg : Byte)
  /-- `CTRL req, arg` with `req` not the mode-select call (R136). -/
  | ctrlUnknown (req arg : Byte)
  /-- A WRITE while `MODE = MODE_IDLE` (R144). -/
  | writeIdle (payload : List Byte)
  /-- A WRITE while `MODE = MODE_RECT` (R145). -/
  | writeRect (payload : List Byte)
  /-- A 16-byte WRITE in FrameStream mode, AwaitingHeader: a Rect descriptor (R161). -/
  | writeHdr (x y w h : Word)
  /-- A WRITE of another length in FrameStream mode, AwaitingHeader (R162). -/
  | writeBadhdr (payload : List Byte)
  /-- A WRITE in FrameStream mode, AwaitingRow: a scanline (R164). -/
  | writeRow (payload : List Byte)
  /-- Bus command `NOP` (R96). -/
  | nop
  /-- Bus command `SWRESET` (R97). -/
  | swreset
  /-- Bus command `SLPOUT` (R98). -/
  | slpout
  /-- Bus command `DISPON` (R99). -/
  | dispon
  /-- Bus command `CASET` with its `WINPAYLOAD` (R100). -/
  | caset (x1 x2 : Half)
  /-- Bus command `PASET` with its `WINPAYLOAD` (R101). -/
  | paset (y1 y2 : Half)
  /-- Bus command `RAMWR` and the data messages that follow it (R102). -/
  | ramwr (messages : List (List Byte))
  /-- Bus command `RAMRD` and the receive of `count` bytes (R103). -/
  | ramrd (count : Word)
  /-- Bus command `PIXFMT` and its data bytes (R104). -/
  | pixfmt (data : List Byte)
  deriving DecidableEq, Repr

/-- A segment as the block submits it: bytes to send, or a number of bytes to receive (R68). -/
inductive Seg where
  | tx (bytes : List Byte)
  | rx (n : Nat)
  deriving DecidableEq, Repr

/-- Format `CMDFRAME` (R70): a command byte, then data messages of one segment each. -/
structure CmdFrame where
  code : Byte
  data : List Seg
  deriving DecidableEq, Repr

/-- An instruction as it travels: bytes on the host port (R60) or a frame on the bus port (R70). The
table's `space` key says which (R78). -/
inductive Wire where
  | host (bytes : List Byte)
  | bus (frame : CmdFrame)
  deriving DecidableEq, Repr

/-- Why a decoder reads no instruction. -/
inductive Reject where
  /-- Host selector `0x03..0xFF` (R62). -/
  | reservedSelector (op : Byte)
  /-- Fewer bytes than the request's own length says (R74). -/
  | truncated
  /-- A length or count above `MAX_LEN` (R60). -/
  | overMaxLen (n : Nat)
  /-- A bus command that has no row, or whose data is not the row's (R71, R105). -/
  | noBusRow (code : Byte)
  deriving DecidableEq, Repr

/-- What a decoder answers: an instruction and the bytes left over, or a reason. -/
inductive Decoded where
  | ok (i : Instr) (rest : List Byte)
  | reject (why : Reject)
  deriving DecidableEq, Repr

end Sys2Proof
end

