-- ==== Sys2Proof/WellFormed.lean ====
section
/-! DEFINITION. When an instruction is one the encodings of `30_encoding.md` can carry. -/

namespace Sys2Proof

/-- A payload length a request may carry (R60: `0 <= len <= MAX_LEN`). -/
def Config.lenOk (c : Config) (n : Nat) : Bool := decide (n ≤ c.maxLen)

/-- Well-formedness of each row's operands:
a length or count within `MAX_LEN` (R60), an out-of-range mode byte for `SETMODE.INVALID` (R64), a control
call number other than the mode-select call for `CTRL.UNKNOWN` (R63), a length other than 16 for
`WRITE.BADHDR` (R65), at least one byte in each data message of `RAMWR` (R91: no rule sends an empty
payload). -/
def Instr.wf (c : Config) : Instr → Bool
  | .write p => c.lenOk p.length
  | .read n => c.lenOk n.toNat
  | .setmodeIdle => true
  | .setmodeRect => true
  | .setmodeStream => true
  | .setmodeInvalid a => decide (3 ≤ a.toNat)
  | .ctrlUnknown r _ => decide (r ≠ c.reqSetMode)
  | .writeIdle p => c.lenOk p.length
  | .writeRect p => c.lenOk p.length
  | .writeHdr _ _ _ _ => c.lenOk Config.rectDescSize
  | .writeBadhdr p => c.lenOk p.length && decide (p.length ≠ Config.rectDescSize)
  | .writeRow p => c.lenOk p.length
  | .nop => true
  | .swreset => true
  | .slpout => true
  | .dispon => true
  | .caset _ _ => true
  | .paset _ _ => true
  | .ramwr ms => ms.all (fun m => decide (m ≠ []))
  | .ramrd n => c.lenOk n.toNat
  | .pixfmt _ => true

/-- The table's `space` key: true for the twelve host rows, false for the nine bus rows (R78). -/
def Instr.isHost : Instr → Bool
  | .write _ => true
  | .read _ => true
  | .setmodeIdle => true
  | .setmodeRect => true
  | .setmodeStream => true
  | .setmodeInvalid _ => true
  | .ctrlUnknown _ _ => true
  | .writeIdle _ => true
  | .writeRect _ => true
  | .writeHdr _ _ _ _ => true
  | .writeBadhdr _ => true
  | .writeRow _ => true
  | .nop => false
  | .swreset => false
  | .slpout => false
  | .dispon => false
  | .caset _ _ => false
  | .paset _ _ => false
  | .ramwr _ => false
  | .ramrd _ => false
  | .pixfmt _ => false

end Sys2Proof
end

