-- ==== Sys2Proof/Decode.lean ====
section
/-! DEFINITION. Bytes and bus frames to instructions, total, rejecting by name; the encoder after it;
and the reading of a word of `spec/opcode_table.json`. Rules: `30_encoding.md` R60 to R74, R78. -/

namespace Sys2Proof

/-! ## Byte orders -/

/-- `le32(b0,b1,b2,b3)` (R11): least significant byte first. -/
def le32 (b0 b1 b2 b3 : Byte) : Word := b3 ++ b2 ++ b1 ++ b0

/-- The four bytes of a 32-bit value, least significant first (R60, R66). -/
def le32Bytes (v : Word) : List Byte :=
  [v.extractLsb' 0 8, v.extractLsb' 8 8, v.extractLsb' 16 8, v.extractLsb' 24 8]

/-- `be16(v)` (R11): `[v[15:8], v[7:0]]`. -/
def be16 (v : Half) : List Byte := [v.extractLsb' 8 8, v.extractLsb' 0 8]

/-- The 16-bit value whose `be16` is `hi, lo`. -/
def ofBe16 (hi lo : Byte) : Half := hi ++ lo

/-- The 32-bit little-endian field at byte `i` of a payload (R66). -/
def wordAt (p : List Byte) (i : Nat) : Word :=
  le32 (p.getD i 0) (p.getD (i + 1) 0) (p.getD (i + 2) 0) (p.getD (i + 3) 0)

/-- Format `RECTDESC` (R66): `x, y, w, h`, 16 bytes. -/
def rectBytes (x y w h : Word) : List Byte :=
  le32Bytes x ++ le32Bytes y ++ le32Bytes w ++ le32Bytes h

/-- Format `WINPAYLOAD` (R69): start then end, each `be16`. -/
def winPayload (first last : Half) : List Byte := be16 first ++ be16 last

/-! ## Host requests -/

/-- The rest of an `HW` request after its selector (R60). -/
def decodeWrite (c : Config) : List Byte → Decoded
  | b0 :: b1 :: b2 :: b3 :: rest =>
    let n := (le32 b0 b1 b2 b3).toNat
    if c.maxLen < n then .reject (.overMaxLen n)
    else if rest.length < n then .reject .truncated
    else .ok (.write (rest.take n)) (rest.drop n)
  | _ => .reject .truncated

/-- The rest of an `HR` request after its selector (R60). -/
def decodeRead (c : Config) : List Byte → Decoded
  | b0 :: b1 :: b2 :: b3 :: rest =>
    let n := le32 b0 b1 b2 b3
    if c.maxLen < n.toNat then .reject (.overMaxLen n.toNat) else .ok (.read n) rest
  | _ => .reject .truncated

/-- The control call (R63, R64): the call number first, then the whole mode byte. -/
def ctrlCall (c : Config) (req arg : Byte) : Instr :=
  if req ≠ c.reqSetMode then .ctrlUnknown req arg
  else if arg = Config.modeIdle then .setmodeIdle
  else if arg = Config.modeRect then .setmodeRect
  else if arg = Config.modeStream then .setmodeStream
  else .setmodeInvalid arg

/-- The rest of an `HC` request after its selector (R60). -/
def decodeCtrl (c : Config) : List Byte → Decoded
  | req :: arg :: rest => .ok (ctrlCall c req arg) rest
  | _ => .reject .truncated

/-- The host port's decoder (R60): the selector, then the operands its format gives. Selectors
`0x03..0xFF` are reserved (R62). -/
def decode (c : Config) : List Byte → Decoded
  | [] => .reject .truncated
  | op :: rest =>
    if op = Config.opWrite then decodeWrite c rest
    else if op = Config.opRead then decodeRead c rest
    else if op = Config.opCtrl then decodeCtrl c rest
    else .reject (.reservedSelector op)

/-- Which of the five rows a WRITE is (R65): by `MODE`, then `NEXT_ROW`, then the length. -/
def writeVariant (mode : Mode) (nextRow : Word) (p : List Byte) : Instr :=
  match mode with
  | .idle => .writeIdle p
  | .rect => .writeRect p
  | .stream =>
    if nextRow = -1 then
      if p.length = Config.rectDescSize then
        .writeHdr (wordAt p 0) (wordAt p 4) (wordAt p 8) (wordAt p 12)
      else .writeBadhdr p
    else .writeRow p

/-! ## Bus frames -/

/-- A command that carries no data (R71). -/
def decodeBare (i : Instr) (f : CmdFrame) : Decoded :=
  match f.data with
  | [] => .ok i []
  | _ :: _ => .reject (.noBusRow f.code)

/-- A range-set command: one data message of four bytes (R69, R100, R101). -/
def decodeRange (mk : Half → Half → Instr) (f : CmdFrame) : Decoded :=
  match f.data with
  | [.tx [a, b, d, e]] => .ok (mk (ofBe16 a b) (ofBe16 d e)) []
  | _ => .reject (.noBusRow f.code)

/-- The payloads of a list of data messages, if every one sends at least one byte (R91). -/
def sentMessages : List Seg → Option (List (List Byte))
  | [] => some []
  | .tx (b :: bs) :: rest => (sentMessages rest).map ((b :: bs) :: ·)
  | .tx [] :: _ => none
  | .rx _ :: _ => none

/-- `RAMWR` and any number of pixel messages (R102). -/
def decodeRamwr (f : CmdFrame) : Decoded :=
  match sentMessages f.data with
  | some ms => .ok (.ramwr ms) []
  | none => .reject (.noBusRow f.code)

/-- `RAMRD` and one receive (R103). -/
def decodeRamrd (c : Config) (f : CmdFrame) : Decoded :=
  match f.data with
  | [.rx n] =>
    if n < 2 ^ 32 ∧ n ≤ c.maxLen then .ok (.ramrd (BitVec.ofNat 32 n)) [] else .reject (.overMaxLen n)
  | _ => .reject (.noBusRow f.code)

/-- `PIXFMT` and its data bytes, in one message when there are any (R104, R184). -/
def decodePixfmt (f : CmdFrame) : Decoded :=
  match f.data with
  | [] => .ok (.pixfmt []) []
  | [.tx (b :: bs)] => .ok (.pixfmt (b :: bs)) []
  | _ => .reject (.noBusRow f.code)

/-- The bus port's decoder (R71): by the command byte. A vendor command (R105) has no row. -/
def decodeBus (c : Config) (f : CmdFrame) : Decoded :=
  if f.code = c.cmdNop then decodeBare .nop f
  else if f.code = c.cmdSwreset then decodeBare .swreset f
  else if f.code = c.cmdSlpout then decodeBare .slpout f
  else if f.code = c.cmdDispon then decodeBare .dispon f
  else if f.code = c.cmdCaset then decodeRange .caset f
  else if f.code = c.cmdPaset then decodeRange .paset f
  else if f.code = c.cmdRamwr then decodeRamwr f
  else if f.code = c.cmdRamrd then decodeRamrd c f
  else if f.code = c.cmdPixfmt then decodePixfmt f
  else .reject (.noBusRow f.code)

/-- Either port's decoder. -/
def decodeWire (c : Config) : Wire → Decoded
  | .host bytes => decode c bytes
  | .bus frame => decodeBus c frame

/-! ## The encoder -/

/-- Format `HW` (R60). -/
def writeRequest (p : List Byte) : List Byte :=
  Config.opWrite :: le32Bytes (BitVec.ofNat 32 p.length) ++ p

/-- Format `HR` (R60). -/
def readRequest (n : Word) : List Byte := Config.opRead :: le32Bytes n

/-- Format `HC` (R60). -/
def ctrlRequest (req arg : Byte) : List Byte := [Config.opCtrl, req, arg]

/-- The data messages of a frame that sends `d` in one message when there is any (R184). -/
def dataMessages : List Byte → List Seg
  | [] => []
  | b :: bs => [.tx (b :: bs)]

/-- The words of an instruction: the request's bytes (R60) or the command's frame (R70, R71). The five
variants of a WRITE are encoded as the WRITE they are (R78). -/
def encode (c : Config) : Instr → Wire
  | .write p => .host (writeRequest p)
  | .read n => .host (readRequest n)
  | .setmodeIdle => .host (ctrlRequest c.reqSetMode Config.modeIdle)
  | .setmodeRect => .host (ctrlRequest c.reqSetMode Config.modeRect)
  | .setmodeStream => .host (ctrlRequest c.reqSetMode Config.modeStream)
  | .setmodeInvalid a => .host (ctrlRequest c.reqSetMode a)
  | .ctrlUnknown r a => .host (ctrlRequest r a)
  | .writeIdle p => .host (writeRequest p)
  | .writeRect p => .host (writeRequest p)
  | .writeHdr x y w h => .host (writeRequest (rectBytes x y w h))
  | .writeBadhdr p => .host (writeRequest p)
  | .writeRow p => .host (writeRequest p)
  | .nop => .bus ⟨c.cmdNop, []⟩
  | .swreset => .bus ⟨c.cmdSwreset, []⟩
  | .slpout => .bus ⟨c.cmdSlpout, []⟩
  | .dispon => .bus ⟨c.cmdDispon, []⟩
  | .caset x1 x2 => .bus ⟨c.cmdCaset, [.tx (winPayload x1 x2)]⟩
  | .paset y1 y2 => .bus ⟨c.cmdPaset, [.tx (winPayload y1 y2)]⟩
  | .ramwr ms => .bus ⟨c.cmdRamwr, ms.map Seg.tx⟩
  | .ramrd n => .bus ⟨c.cmdRamrd, [.rx n.toNat]⟩
  | .pixfmt d => .bus ⟨c.cmdPixfmt, dataMessages d⟩

/-- The row the bytes alone select: a variant of a WRITE is the WRITE with the same payload (R65). -/
def Instr.asRequest : Instr → Instr
  | .writeIdle p => .write p
  | .writeRect p => .write p
  | .writeHdr x y w h => .write (rectBytes x y w h)
  | .writeBadhdr p => .write p
  | .writeRow p => .write p
  | i => i

/-! ## Words of the opcode table

A row's number is its `match` string, byte 0 leftmost (R78), so byte 0 is the most significant of the
`nbits` bits (`notes/assumptions/8.md`). -/

/-- The `nbits / 8` bytes of a table word, byte 0 first. -/
def tableBytes (nbits w : Nat) : List Byte :=
  (List.range (nbits / 8)).map fun i => BitVec.ofNat 8 (w >>> (8 * (nbits / 8 - 1 - i)))

/-- How long a request is, from its leading bytes; bytes not given count as zero (R74). -/
def requestLength : List Byte → Nat
  | [] => 1
  | op :: l =>
    if op = Config.opWrite then 5 + (wordAt l 0).toNat
    else if op = Config.opRead then 5
    else if op = Config.opCtrl then 3
    else 1

/-- A table word as a host request, the bytes above `nbits` zero. -/
def tableRequest (nbits w : Nat) : List Byte :=
  tableBytes nbits w ++
    List.replicate (requestLength (tableBytes nbits w) - (tableBytes nbits w).length) 0

/-- Zero operands for a command byte: what follows a bus row whose data bits are all zero. -/
def zeroOperands (c : Config) (code : Byte) : List Seg :=
  if code = c.cmdCaset ∨ code = c.cmdPaset then [.tx [0, 0, 0, 0]]
  else if code = c.cmdRamrd then [.rx 0]
  else []

/-- A table word on the wire it belongs to: the host port reads it unless its selector is reserved
there and it is a single byte, a bus command byte (R71, R78). -/
def tableWire (c : Config) (nbits w : Nat) : Wire :=
  match tableRequest nbits w with
  | [op] =>
    if op = Config.opWrite ∨ op = Config.opRead ∨ op = Config.opCtrl then .host [op]
    else .bus ⟨op, zeroOperands c op⟩
  | bytes => .host bytes

/-- The instruction the decoder reads from a word of `spec/opcode_table.json`. -/
def decodeTableWord (nbits w : Nat) : Option Instr :=
  match decodeWire Config.reference (tableWire Config.reference nbits w) with
  | .ok i _ => some i
  | .reject _ => none

end Sys2Proof
end

