-- ==== Sys2Proof/Machine/State.lean ====
section
/-! DEFINITION. Everything the spec gives the machine, as plain data: the registers and the memory of
`10_state.md` R20, the position in the reset sequence (R33), the two ports (`00_scope.md` R5), the
observation (R10) and the environment's answers (R9). -/

namespace Sys2Proof.Machine

/-- The error results (`60_exceptions.md` R200). -/
inductive Err where
  /-- `ErrIO`: a bus message ended `fail` (R201). -/
  | io
  /-- `ErrNoMem`: a buffer acquisition answered `false` (R202). -/
  | noMem
  /-- `ErrInval`: bad mode byte or bad header size (R203). -/
  | inval
  /-- `ErrNoTty`: not a valid control call (R204). -/
  | noTty
  deriving DecidableEq, Repr

/-- The status of a response (`30_encoding.md` R61). -/
inductive Status where
  | ok
  | error (e : Err)
  deriving DecidableEq, Repr

/-- A host response: status, the 4-byte value, the data of a successful READ (R61). -/
structure Response where
  status : Status
  val    : Word
  data   : List Byte
  deriving DecidableEq, Repr

/-- A segment as the trace records it: bytes sent, or `RX(n, bytes)` (R10). A failed receive carries no
bytes (R92). -/
inductive TraceSeg where
  | tx (bytes : List Byte)
  | rx (n : Nat) (bytes : List Byte)
  deriving DecidableEq, Repr

/-- The events of the output trace (R10). `ok` of a message is its outcome. -/
inductive Event where
  | dc (l : Level)
  | rst (l : Level)
  | delay (ms : Nat)
  | msg (segs : List TraceSeg) (ok : Bool)
  deriving DecidableEq, Repr

/-- A command of the init script that is still to be sent, with its post-delay (R72, R184). -/
structure Pending where
  frame : CmdFrame
  delay : Nat
  deriving DecidableEq, Repr

/-- Where the block is in the reset sequence of `70_reset_and_hazards.md` R230: what is left of
`RST_SCRIPT`, then what is left of `INIT_SCRIPT` (the index of R33, counted from the end), then over. -/
inductive Phase where
  | resetLine (rest : List RstStep)
  | init (rest : List Pending)
  | done
  deriving DecidableEq, Repr

/-- The environment's inputs (R9), each a list of answers still to come and the number used so far. When
a list is empty the answer is the free value of `Config` at that number (`notes/assumptions/1.md`). -/
structure Env where
  busIn     : List BusAnswer
  busUsed   : Nat
  allocIn   : List Bool
  allocUsed : Nat
  drawIn    : List RectDraw
  drawUsed  : Nat
  deriving DecidableEq, Repr

/-- The reset input as one coming step sees it (`70_reset_and_hazards.md` R230). The spec gives the input
no form; this one is the model's (DESIGN CHOICE, `notes/assumptions/25.md`). -/
inductive ResetInput where
  /-- No reset is asserted during the step. -/
  | idle
  /-- The reset lands before the step does anything: between requests, in the reset sequence, while a bus
  message that never completes is waited for, or after the init sequence failed. -/
  | before
  /-- The reset lands after the step has taken its request off the host port and before the request's
  first effect. Where the step takes no request it lands as `before`. -/
  | within
  deriving DecidableEq, Repr

/-- The machine. -/
structure State where
  /-- The parameters of R6, constant for a run (R36). -/
  cfg       : Config
  /-- `MODE` (R21). -/
  mode      : Mode
  /-- `CCOL_V`, `CCOL_X1`, `CCOL_X2` (R22). -/
  ccolV     : Bool
  ccolX1    : Half
  ccolX2    : Half
  /-- `CROW_V`, `CROW_Y1`, `CROW_Y2` (R23). -/
  crowV     : Bool
  crowY1    : Half
  crowY2    : Half
  /-- `PWIN_V`, `PWIN_X`, `PWIN_Y`, `PWIN_W`, `PWIN_H` (R25); the four fields are two's complement. -/
  pwinV     : Bool
  pwinX     : Word
  pwinY     : Word
  pwinW     : Word
  pwinH     : Word
  /-- `NEXT_ROW`, two's complement; −1 is AwaitingHeader (R26). -/
  nextRow   : Word
  /-- `FB`: the bytes rows have written, by address (R28, R40). -/
  fb        : List Host.Cell
  /-- `FB_CREATED` (R28). -/
  fbCreated : Bool
  /-- `DC` (R30). -/
  dc        : Level
  /-- `RST` (R31). -/
  rst       : Level
  /-- `ATTACHED` (R32). -/
  attached  : Bool
  /-- The position in the reset sequence (R33, R230). -/
  phase     : Phase
  /-- A bus message has been submitted that never completes (R94). -/
  hung      : Bool
  /-- The host request port: the bytes of the requests the host has still to be answered (R5, R60). -/
  hostIn    : List Byte
  /-- The host response port: every response so far, oldest first (R10, R61). -/
  responses : List Response
  /-- The output trace, oldest first (R10). -/
  trace     : List Event
  /-- The environment (R9). -/
  env       : Env
  /-- The reset input: one entry for each coming step, and not asserted when the list is empty (R230,
  `notes/assumptions/25.md`). -/
  resetIn   : List ResetInput
  /-- How many resets there have been, which numbers the launch contents of `FB` (R28, R230,
  `notes/assumptions/3.md`). -/
  launches  : Nat
  deriving DecidableEq, Repr

/-- Why the machine stops. -/
inductive Fault where
  /-- `fault BadGeometry(x, y, w, h)` (`44_frame_stream.md` R163): raised by `WRITE.HDR` on a header that
  breaks `ValidRect`. Safe: the spec gives the run no further meaning. -/
  | badGeometry (x y w h : Word)
  /-- `fault FbOverrun(off, len)` (R169, R50): raised by `WRITE.ROW` when the copy would leave the frame
  buffer. Safe, as above. -/
  | fbOverrun (off : Int) (len : Nat)
  /-- `fault RowLength(len)` (R168): raised by `WRITE.ROW` when `STRICT_ROW_LEN` is set and the length is
  not `2 * PWIN_W`. Safe, as above. -/
  | rowLength (len : Nat)
  /-- Raised by `step` when the last bus message never completed: the block waits for ever
  (`40_transaction_layer.md` R94, U9). Safe: no step is enabled but a reset (R230). -/
  | busNeverCompletes
  /-- Raised by `step` when the init sequence failed: `ATTACHED` stays 0 and no request is ever taken
  (`45_read_and_init.md` R185, U17). Safe: no step is enabled but a reset (R230). -/
  | attachFailed
  deriving DecidableEq, Repr

/-- Why the model gives an input no meaning. -/
inductive Refusal where
  /-- An instruction with no meaning yet, refused in `exec`. Safe. -/
  | notModelled (mnemonic : String)
  /-- Raised by `step`: host selector `0x03..0xFF` (`30_encoding.md` R62). Safe: the spec refuses it. -/
  | reservedSelector (op : Byte)
  /-- Raised by `step`: the host port holds part of a request only (R74). Safe: no request is there. -/
  | truncatedRequest
  /-- Raised by `step`: a length or count above `MAX_LEN` (R60). Safe: no format carries it. -/
  | overMaxLen (n : Nat)
  deriving DecidableEq, Repr

/-- An environment that lists no answers: every answer is free. -/
def Env.free : Env := ⟨[], 0, [], 0, [], 0⟩

/-- A step of `INIT_SCRIPT` as the frame it is sent as: one data message when there is data (R184). -/
def Pending.ofStep (s : InitStep) : Pending :=
  ⟨⟨s.code, match s.data with | [] => [] | b :: bs => [.tx (b :: bs)]⟩, s.delay⟩

/-- Step 1 of `RESET` (R230) for the parameters `cfg`: every register at its reset value (R37), the
trace empty, `DC` high, `RST` at the first level of `RST_SCRIPT` or high (R20), the two scripts still to
run. `CCOL_X*`, `CROW_Y*` and `PWIN_*` have no reset value in the spec and hold zero (DESIGN CHOICE,
`notes/assumptions/4.md`). No byte of `FB` is listed: each reads as `FB_INIT` (R28). -/
def State.resetWith (cfg : Config) : State where
  cfg       := cfg
  mode      := .idle
  ccolV     := false
  ccolX1    := 0
  ccolX2    := 0
  crowV     := false
  crowY1    := 0
  crowY2    := 0
  pwinV     := false
  pwinX     := 0
  pwinY     := 0
  pwinW     := 0
  pwinH     := 0
  nextRow   := -1
  fb        := []
  fbCreated := false
  dc        := true
  rst       := match cfg.rstScript with | [] => true | r :: _ => r.level
  attached  := false
  phase     := .resetLine cfg.rstScript
  hung      := false
  hostIn    := []
  responses := []
  trace     := []
  env       := Env.free
  resetIn   := []
  launches  := 0

/-- The machine right after reset, with the reference parameters (R6). -/
def State.reset : State := State.resetWith Config.reference

end Sys2Proof.Machine
end

