-- ==== Sys2Proof/Machine/Operands.lean ====
section
/-! DEFINITION. Operand assembly (`30_encoding.md` R77): window ends, frame-buffer offsets, packed
pixels, the RectTest draws. -/

namespace Sys2Proof.Machine

open Sys2Proof

/-- `trunc_16(v)` (R11). -/
def trunc16 (v : Int) : Half := BitVec.ofInt 16 v

/-- The inclusive end of a range of `size` starting at `start`: `x2 = x + w − 1` (R111). -/
def lastOf (start size : Int) : Int := start + size - 1

/-- The `FB` offset of row `r` of the pending window: `((PWIN_Y + r) * PANEL_W + PWIN_X) * 2`, on
mathematical integers (`20_memory.md` R41, R77). -/
def State.rowOffset (s : State) : Int :=
  ((s.pwinY.toInt + s.nextRow.toInt) * Config.panelW + s.pwinX.toInt) * Config.bpp

/-! ## Colours (`42_rect_fill.md` R120 to R122, R128) -/

/-- `pack565(R, G, B)` (R120): truncation, not rounding. -/
def pack565 (c : Color) : Half :=
  ((c.r.setWidth 16 >>> 3) <<< 11) ||| ((c.g.setWidth 16 >>> 2) <<< 5) ||| (c.b.setWidth 16 >>> 3)

/-- `unpack565(P)` (R121). The block never unpacks; the function is there for the rule's property. -/
def unpack565 (p : Half) : Color where
  r := (((p >>> 11) &&& 0x1F) <<< 3).setWidth 8
  g := (((p >>> 5) &&& 0x3F) <<< 2).setWidth 8
  b := ((p &&& 0x1F) <<< 3).setWidth 8

/-- The wire bytes of a colour: `be16(pack565)` (R122). -/
def pixelBytes (c : Color) : List Byte := be16 (pack565 c)

/-- `SCANBUF` (R124): the pixel's bytes repeated `w` times. -/
def scanline (w : Nat) (c : Color) : List Byte := (List.replicate w (pixelBytes c)).flatten

/-- The rectangle of a draw, inside `x + w <= PANEL_W`, `y + h <= ylim`, `w, h >= 1` (R127). A draw that
already meets the bounds is left as it is; another is brought inside them, as SDD's RectTest path clamps
by construction (`notes/assumptions/11.md`). -/
def clampDraw (ylim : Nat) (d : RectDraw) : RectDraw :=
  let x := d.x % Config.panelW
  let y := d.y % ylim
  { d with
    x := x
    y := y
    w := 1 + (d.w - 1) % (Config.panelW - x)
    h := 1 + (d.h - 1) % (ylim - y) }

/-- The colour of a draw (R128): 0, 1, 2 are the fixed red, green, blue; 3 is the drawn colour. -/
def drawColor (c : Config) (d : RectDraw) : Color :=
  if d.sel = 0 then c.colorRed
  else if d.sel = 1 then c.colorGreen
  else if d.sel = 2 then c.colorBlue
  else d.rgb

end Sys2Proof.Machine
end

