-- ==== Sys2Proof/Machine/Flags.lean ====
section
/-! DEFINITION. The flag-like bits (`10_state.md` R34): when a cache axis hits, what sets and clears
`CCOL_V`, `CROW_V`, `PWIN_V`, `FB_CREATED` and `ATTACHED`, and the validity test of a header. -/

namespace Sys2Proof.Machine

open Sys2Proof

/-- The column cache holds the pair (`41_address_window.md` R112). -/
def State.colHit (s : State) (x1 x2 : Half) : Bool :=
  s.ccolV && decide (s.ccolX1 = x1) && decide (s.ccolX2 = x2)

/-- The row cache holds the pair (R113). -/
def State.rowHit (s : State) (y1 y2 : Half) : Bool :=
  s.crowV && decide (s.crowY1 = y1) && decide (s.crowY2 = y2)

/-- `CCOL_V <- 0` (R110, R115). The pair is left as it is; it is not read while the bit is 0 (R22). -/
def State.dropCol (s : State) : State := { s with ccolV := false }

/-- `CROW_V <- 0` (R110, R115). -/
def State.dropRow (s : State) : State := { s with crowV := false }

/-- `CCOL_X1 <- x1; CCOL_X2 <- x2; CCOL_V <- 1` (R112). -/
def State.fillCol (x1 x2 : Half) (s : State) : State :=
  { s with ccolV := true, ccolX1 := x1, ccolX2 := x2 }

/-- `CROW_Y1 <- y1; CROW_Y2 <- y2; CROW_V <- 1` (R113). -/
def State.fillRow (y1 y2 : Half) (s : State) : State :=
  { s with crowV := true, crowY1 := y1, crowY2 := y2 }

/-- `ValidRect(x, y, w, h)`, on mathematical integers (`44_frame_stream.md` R163). -/
def validRect (x y w h : Word) : Bool :=
  decide (0 ≤ x.toInt) && decide (0 ≤ y.toInt) && decide (1 ≤ w.toInt) && decide (1 ≤ h.toInt) &&
  decide (x.toInt + w.toInt ≤ Config.panelW) && decide (y.toInt + h.toInt ≤ Config.panelH)

/-- `PWIN_* <- rect; PWIN_V <- 1; NEXT_ROW <- 0` (R161). -/
def State.openWindow (x y w h : Word) (s : State) : State :=
  { s with pwinX := x, pwinY := y, pwinW := w, pwinH := h, pwinV := true, nextRow := 0 }

/-- `NEXT_ROW <- -1; PWIN_V <- 0` (R166). -/
def State.closeWindow (s : State) : State := { s with nextRow := -1, pwinV := false }

/-- `NEXT_ROW <- r + 1` (R165), stored in 32 bits. -/
def State.advanceRow (s : State) : State := { s with nextRow := s.nextRow + 1 }

/-- `FB_CREATED <- 1` (`43_mode_controller.md` R140). -/
def State.createFb (s : State) : State := { s with fbCreated := true }

/-- `MODE <- m` (R137 to R140). -/
def State.setMode (m : Mode) (s : State) : State := { s with mode := m }

/-- `ATTACHED <- 1`, and the reset sequence is over (`45_read_and_init.md` R184, R230). -/
def State.attach (s : State) : State := { s with attached := true, phase := .done }

end Sys2Proof.Machine
end

