-- ==== Sys2Proof/Machine/Ops.lean ====
section
/-! DEFINITION. The shared operations: the frame buffer's memory, the trace and the lines, the bus and
the environment's answers, results and how one is delivered, the Transaction Layer
(`40_transaction_layer.md`), the Address Window Cache (`41_address_window.md`), Rect Fill
(`42_rect_fill.md`). -/

namespace Sys2Proof.Machine

open Sys2Proof

/-! ## Memory

A list of (address, byte) pairs, addresses strictly rising. An address that is not listed has no value of
its own: `FB` reads it as `FB_INIT` (`notes/assumptions/3.md`). -/

/-- The memory of the frame buffer. -/
abbrev Memory := List Host.Cell

/-- The canonical form: addresses strictly rising. -/
abbrev Memory.wf (m : Memory) : Prop := m.Pairwise (fun a b => a.1 < b.1)

/-- The byte listed at an address, if any. -/
def Memory.find : Memory → Nat → Option Byte
  | [], _ => none
  | (b, v) :: m, a => if a = b then some v else Memory.find m a

/-- Store one byte. -/
def Memory.put : Memory → Nat → Byte → Memory
  | [], a, v => [(a, v)]
  | (b, u) :: m, a, v =>
    if a < b then (a, v) :: (b, u) :: m
    else if a = b then (a, v) :: m
    else (b, u) :: Memory.put m a v

/-- `MemWrite(a, n, v)` (`00_scope.md` R12): byte `i` of `v` at `a + i`. -/
def Memory.putBytes (m : Memory) (a : Nat) : List Byte → Memory
  | [] => m
  | v :: vs => Memory.putBytes (Memory.put m a v) (a + 1) vs

/-- `FB[a]`: what a row wrote there since the last reset, else the launch byte `FB_INIT` (R28). -/
def State.fbByte (s : State) (a : Nat) : Byte :=
  (Memory.find s.fb a).getD (Config.fbInit s.launches a)

/-- `MemRead(a, n)` (R12). -/
def State.fbRead (s : State) (a n : Nat) : List Byte := (List.range n).map fun i => s.fbByte (a + i)

/-! ## Trace, lines, responses -/

/-- `emit ev` (R14). -/
def State.emit (e : Event) (s : State) : State := { s with trace := s.trace ++ [e] }

/-- `Line(DC, l)` (R14). -/
def State.lineDC (l : Level) (s : State) : State := { s with dc := l, trace := s.trace ++ [.dc l] }

/-- `Line(RST, l)` (R14). -/
def State.lineRST (l : Level) (s : State) : State := { s with rst := l, trace := s.trace ++ [.rst l] }

/-- `if d > 0 then emit DELAY(d)` (R184, R230). -/
def State.delay (d : Nat) (s : State) : State := if 0 < d then s.emit (.delay d) else s

/-- Deliver a response on the host port (`30_encoding.md` R61). -/
def State.respond (status : Status) (val : Word) (data : List Byte) (s : State) : State :=
  { s with responses := s.responses ++ [⟨status, val, data⟩] }

/-- The status byte (R61, `60_exceptions.md` R200). -/
def Status.code : Status → Byte
  | .ok => 0
  | .error .io => 5
  | .error .noMem => 12
  | .error .inval => 22
  | .error .noTty => 25

/-- The bytes of a response (R61). -/
def Response.bytes (r : Response) : List Byte := r.status.code :: le32Bytes r.val ++ r.data

/-! ## Results of procedures (`00_scope.md` R13) -/

/-- `Ok(v)`, `Err(e)`, or no return at all: a bus message never completed (R94). -/
inductive Res (α : Type) where
  | ok (a : α)
  | err (e : Err)
  | hung
  deriving DecidableEq, Repr

/-- A procedure's result and the state it leaves. -/
structure Run (α : Type) where
  res : Res α
  st  : State
  deriving DecidableEq, Repr

/-- `raise E` (R13): state written before it stays written. -/
def raise {α : Type} (e : Err) (s : State) : Run α := ⟨.err e, s⟩

/-- `call P(args)?` (R13): go on with the value and the state, or end with the same error. -/
def Run.andThen {α β : Type} (r : Run α) (f : α → State → Run β) : Run β :=
  match r.res with
  | .ok a => f a r.st
  | .err e => ⟨.err e, r.st⟩
  | .hung => ⟨.hung, r.st⟩

/-- End a request (`60_exceptions.md` R209, R210): the result becomes the host response, `val` and `data`
on success and 0 and nothing on an error; a message that never completes leaves the request
unanswered. This is the one place an error is taken, and the block is ready again after it. -/
def deliver {α : Type} (val : α → Word) (data : α → List Byte) (r : Run α) : State :=
  match r.res with
  | .ok a => r.st.respond .ok (val a) (data a)
  | .err e => r.st.respond (.error e) 0 []
  | .hung => r.st

/-- End a request that returns no data. -/
def deliverVal (val : Word) (r : Run Unit) : State := deliver (fun _ => val) (fun _ => []) r

/-! ## The environment (`00_scope.md` R9) -/

/-- The answer to the `k`-th bus message from now: the one State lists, else the free value. -/
def State.answer (s : State) (k : Nat) : BusAnswer :=
  match s.env.busIn[k]? with
  | some a => a
  | none => Config.busAnswer (s.env.busUsed + k)

/-- One bus message has been answered. -/
def State.popAnswer (s : State) : State :=
  { s with env := { s.env with busIn := s.env.busIn.tail, busUsed := s.env.busUsed + 1 } }

/-- The next `alloc_ok`. -/
def State.allocOk (s : State) : Bool :=
  match s.env.allocIn with
  | a :: _ => a
  | [] => Config.allocOk s.env.allocUsed

/-- One acquisition has been answered. -/
def State.popAlloc (s : State) : State :=
  { s with env := { s.env with allocIn := s.env.allocIn.tail, allocUsed := s.env.allocUsed + 1 } }

/-- The next RectTest draw, inside its bounds (R127). -/
def State.nextDraw (s : State) : RectDraw :=
  clampDraw s.cfg.rtYlim
    (match s.env.drawIn with
     | d :: _ => d
     | [] => Config.rectDraw s.env.drawUsed)

/-- One draw has been taken. -/
def State.popDraw (s : State) : State :=
  { s with env := { s.env with drawIn := s.env.drawIn.tail, drawUsed := s.env.drawUsed + 1 } }

/-- Bytes `o` to `o + n − 1` of a receive in message number `m`: those the environment gives, and a free
byte for each one it does not give. -/
def received (m : Nat) (rx : List Byte) (o n : Nat) : List Byte :=
  (List.range n).map fun i => rx.getD (o + i) (Config.rxByte m (o + i))

/-- The segments of a message that ended `ok`, each receive with its bytes. -/
def answered (m : Nat) (rx : List Byte) : Nat → List Seg → List TraceSeg
  | _, [] => []
  | o, .tx b :: rest => .tx b :: answered m rx o rest
  | o, .rx n :: rest => .rx n (received m rx o n) :: answered m rx (o + n) rest

/-- The segments of a message that ended `fail`. -/
def unanswered : List Seg → List TraceSeg
  | [] => []
  | .tx b :: rest => .tx b :: unanswered rest
  | .rx n :: rest => .rx n [] :: unanswered rest

/-- The bytes a message received, in order. -/
def rxBytes : List TraceSeg → List Byte
  | [] => []
  | .tx _ :: rest => rxBytes rest
  | .rx _ b :: rest => b ++ rxBytes rest

/-- `Bus(segs)` (R14): one message, one answer. A message that never completes emits no `MSG` event, since
the event carries the outcome (R94). -/
def bus (segs : List Seg) (s : State) : Run (List Byte) :=
  match s.answer 0 with
  | .ok rx =>
    ⟨.ok (rxBytes (answered s.env.busUsed rx 0 segs)),
      s.popAnswer.emit (.msg (answered s.env.busUsed rx 0 segs) true)⟩
  | .fail => ⟨.err .io, s.popAnswer.emit (.msg (unanswered segs) false)⟩
  | .never => ⟨.hung, { s.popAnswer with hung := true }⟩

/-! ## Transaction Layer -/

/-- `send_command(code)` (`40_transaction_layer.md` R90): `DC` goes high again also on a failure. -/
def sendCommand (code : Byte) (s : State) : Run Unit :=
  let r := bus [.tx [code]] (s.lineDC false)
  match r.res with
  | .ok _ => ⟨.ok (), r.st.lineDC true⟩
  | .err e => ⟨.err e, r.st.lineDC true⟩
  | .hung => ⟨.hung, r.st⟩

/-- `send_data(bytes)` (R91): one message, `DC` untouched. -/
def sendData (bytes : List Byte) (s : State) : Run Unit :=
  (bus [.tx bytes] s).andThen fun _ s => ⟨.ok (), s⟩

/-- `read_data(n)` (R92). -/
def readData (n : Nat) (s : State) : Run (List Byte) := bus [.rx n] s

/-- `send_batch(segs)` (R93). No rule invokes it. -/
def sendBatch (segs : List Seg) (s : State) : Run (List Byte) := bus segs s

/-- The data messages of a command (R70): each sends or receives in one message while `DC = 1`. -/
def dataPhase : List Seg → State → Run Unit
  | [], s => ⟨.ok (), s⟩
  | g :: rest, s => (bus [g] s).andThen fun _ s => dataPhase rest s

/-- Format `CMDFRAME` (R70): the command byte, then its data messages. -/
def sendFrame (f : CmdFrame) (s : State) : Run Unit :=
  (sendCommand f.code s).andThen fun _ s => dataPhase f.data s

/-! ## Address Window Cache -/

/-- The column step of `set_window` (`41_address_window.md` R112, R115). -/
def columnStep (x1 x2 : Half) (s : State) : Run Unit :=
  if s.colHit x1 x2 then ⟨.ok (), s⟩
  else
    (sendCommand s.cfg.cmdCaset s.dropCol).andThen fun _ s =>
    (sendData (winPayload x1 x2) s).andThen fun _ s =>
    ⟨.ok (), s.fillCol x1 x2⟩

/-- The row step of `set_window` (R113, R115). -/
def rowStep (y1 y2 : Half) (s : State) : Run Unit :=
  if s.rowHit y1 y2 then ⟨.ok (), s⟩
  else
    (sendCommand s.cfg.cmdPaset s.dropRow).andThen fun _ s =>
    (sendData (winPayload y1 y2) s).andThen fun _ s =>
    ⟨.ok (), s.fillRow y1 y2⟩

/-- `set_window(x, y, w, h)` (R110): the column step, then the row step (R114). -/
def setWindow (x y w h : Int) (s : State) : Run Unit :=
  (columnStep (trunc16 x) (trunc16 (lastOf x w)) s).andThen fun _ s =>
  rowStep (trunc16 y) (trunc16 (lastOf y h)) s

/-- The full-panel window (R7). -/
def setFullWindow (s : State) : Run Unit := setWindow 0 0 Config.panelW Config.panelH s

/-! ## Rect Fill -/

/-- `for i in 0 .. h-1: call send_data(SCANBUF)?` (`42_rect_fill.md` R124). -/
def sendRows (buf : List Byte) : Nat → State → Run Unit
  | 0, s => ⟨.ok (), s⟩
  | n + 1, s => (sendData buf s).andThen fun _ s => sendRows buf n s

/-- `fill_rect(x, y, w, h, color)` (R124): allocation first (R125), then the window, `RAMWR`, the rows,
`NOP`. -/
def fillRect (x y w h : Nat) (c : Color) (s : State) : Run Unit :=
  if s.allocOk = false then raise .noMem s.popAlloc
  else
    (setWindow x y w h s.popAlloc).andThen fun _ s =>
    (sendCommand s.cfg.cmdRamwr s).andThen fun _ s =>
    (sendRows (scanline w c) h s).andThen fun _ s =>
    sendCommand s.cfg.cmdNop s

end Sys2Proof.Machine
end

