-- ==== Sys2Proof/Machine/BusCommands.lean ====
section
/-! DEFINITION. The nine bus commands (`40_transaction_layer.md` R96 to R104) and a vendor command (R105):
the command byte with `DC` low, then its data messages. None has a host response; a failure ends the
init sequence when it is that sequence that sends the command (`45_read_and_init.md` R185). -/

namespace Sys2Proof.Machine

open Sys2Proof

/-- `run_init` stops: the rest of the script is not sent and `ATTACHED` stays as it is (R185). -/
def State.abandonInit (s : State) : State :=
  match s.phase with
  | .init _ => { s with phase := .done }
  | .resetLine _ => s
  | .done => s

/-- What a bus command leaves. -/
def endCommand (r : Run Unit) : State :=
  match r.res with
  | .ok _ => r.st
  | .err _ => r.st.abandonInit
  | .hung => r.st

/-- Send one frame and end the command. -/
def runFrame (f : CmdFrame) (s : State) : State := endCommand (sendFrame f s)

/-- `NOP` (R96): no data. -/
def execNop (s : State) : Host.Outcome State Fault Refusal := .next (runFrame ⟨s.cfg.cmdNop, []⟩ s)

/-- `SWRESET` (R97): no data; the block's own state is not reset by it. -/
def execSwreset (s : State) : Host.Outcome State Fault Refusal :=
  .next (runFrame ⟨s.cfg.cmdSwreset, []⟩ s)

/-- `SLPOUT` (R98): no data. -/
def execSlpout (s : State) : Host.Outcome State Fault Refusal :=
  .next (runFrame ⟨s.cfg.cmdSlpout, []⟩ s)

/-- `DISPON` (R99): no data. -/
def execDispon (s : State) : Host.Outcome State Fault Refusal :=
  .next (runFrame ⟨s.cfg.cmdDispon, []⟩ s)

/-- `CASET` (R100): one data message `be16(x1) ++ be16(x2)`. The cache is `set_window`'s alone (R22). -/
def execCaset (x1 x2 : Half) (s : State) : Host.Outcome State Fault Refusal :=
  .next (runFrame ⟨s.cfg.cmdCaset, [.tx (winPayload x1 x2)]⟩ s)

/-- `PASET` (R101): one data message `be16(y1) ++ be16(y2)`. -/
def execPaset (y1 y2 : Half) (s : State) : Host.Outcome State Fault Refusal :=
  .next (runFrame ⟨s.cfg.cmdPaset, [.tx (winPayload y1 y2)]⟩ s)

/-- `RAMWR` (R102): any number of data messages of pixel bytes. -/
def execRamwr (messages : List (List Byte)) (s : State) : Host.Outcome State Fault Refusal :=
  .next (runFrame ⟨s.cfg.cmdRamwr, messages.map Seg.tx⟩ s)

/-- `RAMRD` (R103): one receive message `RX(count)`. -/
def execRamrd (count : Word) (s : State) : Host.Outcome State Fault Refusal :=
  .next (runFrame ⟨s.cfg.cmdRamrd, [.rx count.toNat]⟩ s)

/-- `PIXFMT` (R104): the data the script gives it. -/
def execPixfmt (data : List Byte) (s : State) : Host.Outcome State Fault Refusal :=
  .next (runFrame ⟨s.cfg.cmdPixfmt, dataMessages data⟩ s)

/-- A command with no row (R105): sent exactly as any other init step. -/
def execVendor (f : CmdFrame) (s : State) : Host.Outcome State Fault Refusal := .next (runFrame f s)

end Sys2Proof.Machine
end

