-- ==== Sys2Proof/Machine/Boot.lean ====
section
/-! DEFINITION. The reset input and the reset sequence (`70_reset_and_hazards.md` R230, R232;
`45_read_and_init.md` R184, R185), one entry of a script at a time. -/

namespace Sys2Proof.Machine

open Sys2Proof

/-- What the next step sees of the reset input. -/
def State.resetNow (s : State) : ResetInput := s.resetIn.headD .idle

/-- One step has seen the reset input. -/
def State.popReset (s : State) : State := { s with resetIn := s.resetIn.tail }

/-- A reset (R230 step 1): every register takes its reset value and the trace is empty, whatever the block
was doing. What is outside the block stays: the parameters (`10_state.md` R36), the environment, the host's
bytes and the responses the host has had, the reset input. `FB` has new contents nobody knows (R28). -/
def State.restart (s : State) : State :=
  { State.resetWith s.cfg with
    env := s.env, hostIn := s.hostIn, responses := s.responses, resetIn := s.resetIn
    launches := s.launches + 1 }

/-- One entry of `RST_SCRIPT` (R230 step 2). -/
def resetLineEntry (e : RstStep) (rest : List RstStep) (s : State) : State :=
  { (s.lineRST e.level).delay e.delay with phase := .resetLine rest }

/-- `RST_SCRIPT` is done: `run_init` starts (R230 step 3). -/
def startInit (s : State) : State := { s with phase := .init (s.cfg.initScript.map Pending.ofStep) }

/-- After one command of the init script (R184): its post-delay, then the rest. A failed command has
ended the script already (R185), and one that never completes leaves the block waiting (R94). -/
def afterInitCommand (d : Nat) (rest : List Pending) (s : State) : State :=
  if s.hung then s
  else
    match s.phase with
    | .init _ => { s.delay d with phase := .init rest }
    | .resetLine _ => s
    | .done => s

/-- The same on the outcome of a meaning. -/
def afterInitOutcome (d : Nat) (rest : List Pending) :
    Host.Outcome State Fault Refusal → Host.Outcome State Fault Refusal
  | .next s => .next (afterInitCommand d rest s)
  | .fault f => .fault f
  | .refused r => .refused r

end Sys2Proof.Machine
end

