-- ==== Sys2Proof/Machine/Control.lean ====
section
/-! DEFINITION. The Mode Controller's control call (`43_mode_controller.md` R136 to R142). -/

namespace Sys2Proof.Machine

open Sys2Proof

/-- `set_mode(0)`, `set_mode(1)` (R138, R139): the mode and nothing else. -/
def enterPlain (m : Mode) (s : State) : Run Unit := ⟨.ok (), s.setMode m⟩

/-- `set_mode(arg)` for `arg` not in `{0, 1, 2}` (R137). -/
def rejectMode (s : State) : Run Unit := raise .inval (s.setMode .idle)

/-- The first arming acquires the frame buffer, before any state change (R140). -/
def acquireFb (s : State) : Run Unit :=
  if s.fbCreated then ⟨.ok (), s⟩
  else if s.allocOk then ⟨.ok (), s.popAlloc.createFb⟩
  else raise .noMem s.popAlloc

/-- `set_mode(2)` (R140). It runs in full whatever the mode was (R141), and leaves the stream registers
and `FB` alone (R142). -/
def enterStream (s : State) : Run Unit :=
  (acquireFb s).andThen fun _ s =>
  (setFullWindow (s.setMode .stream)).andThen fun _ s =>
  sendCommand s.cfg.cmdRamwr s

/-- `set_mode(arg)` on the whole mode byte (R64). -/
def setModeCall (arg : Byte) (s : State) : Run Unit :=
  if arg = Config.modeIdle then enterPlain .idle s
  else if arg = Config.modeRect then enterPlain .rect s
  else if arg = Config.modeStream then enterStream s
  else rejectMode s

/-- `CTRL(req, arg)` (R136): the call number is checked before any look at `arg`. -/
def controlCall (req arg : Byte) (s : State) : Run Unit :=
  if req ≠ s.cfg.reqSetMode then raise .noTty s else setModeCall arg s

/-- `SETMODE.IDLE` (R138). -/
def execSetmodeIdle (s : State) : Host.Outcome State Fault Refusal :=
  .next (deliverVal 0 (enterPlain .idle s))

/-- `SETMODE.RECT` (R139). -/
def execSetmodeRect (s : State) : Host.Outcome State Fault Refusal :=
  .next (deliverVal 0 (enterPlain .rect s))

/-- `SETMODE.STREAM` (R140, R141). -/
def execSetmodeStream (s : State) : Host.Outcome State Fault Refusal :=
  .next (deliverVal 0 (enterStream s))

/-- `SETMODE.INVALID` (R137). A mode byte that is in range is the mode it names (R64). -/
def execSetmodeInvalid (arg : Byte) (s : State) : Host.Outcome State Fault Refusal :=
  .next (deliverVal 0 (setModeCall arg s))

/-- `CTRL.UNKNOWN` (R136). A call number that is the mode-select call's goes on with `arg`. -/
def execCtrlUnknown (req arg : Byte) (s : State) : Host.Outcome State Fault Refusal :=
  .next (deliverVal 0 (controlCall req arg s))

end Sys2Proof.Machine
end

