-- ==== Sys2Proof/Machine/Read.lean ====
section
/-! DEFINITION. READ (`45_read_and_init.md` R180, R181). -/

namespace Sys2Proof.Machine

open Sys2Proof

/-- `READ(count)` (R180): the same in every mode, `count` compared with nothing (R181). -/
def readPanel (count : Nat) (s : State) : Run (List Byte) :=
  (setFullWindow s).andThen fun _ s =>
  (sendCommand s.cfg.cmdRamrd s).andThen fun _ s =>
  readData count s

/-- `READ` (R180): on success `val = count` and the bytes received. -/
def execRead (count : Word) (s : State) : Host.Outcome State Fault Refusal :=
  .next (deliver (fun _ => count) (fun bytes => bytes) (readPanel count.toNat s))

end Sys2Proof.Machine
end

