-- ==== Sys2Proof/Machine/Stream.lean ====
section
/-! DEFINITION. The Frame Streaming Engine (`44_frame_stream.md` R160 to R169). -/

namespace Sys2Proof.Machine

open Sys2Proof

/-- `stream_header` on the four fields (R161), with the geometry the spec faults on (R163). -/
def streamHeader (x y w h : Word) (s : State) : Host.Outcome State Fault Refusal :=
  if validRect x y w h = false then .fault (.badGeometry x y w h)
  else .next (deliverVal (BitVec.ofNat 32 Config.rectDescSize) ⟨.ok (), s.openWindow x y w h⟩)

/-- A WRITE of the wrong size in AwaitingHeader (R162): refused with `ErrInval`, no state change. -/
def streamBadHeader (s : State) : Host.Outcome State Fault Refusal :=
  .next (deliverVal 0 (raise .inval s))

/-- `stream_flush(len)` (R166, R167): the whole buffer in one message; the cursor goes back to
AwaitingHeader on success and on failure alike. -/
def streamFlush (s : State) : Run Unit :=
  let r := sendData (s.fbRead 0 Config.fbSize) s
  match r.res with
  | .ok _ => ⟨.ok (), r.st.closeWindow⟩
  | .err e => ⟨.err e, r.st.closeWindow⟩
  | .hung => r

/-- `MemWrite(off, len, p)` (R164). -/
def copyRow (off : Nat) (p : List Byte) (s : State) : State :=
  { s with fb := Memory.putBytes s.fb off p }

/-- What follows the copy of a row: the flush after the last one (R166), else the cursor moves (R165). -/
def afterCopy (s : State) : Run Unit :=
  if s.nextRow.toInt + 1 = s.pwinH.toInt then streamFlush s else ⟨.ok (), s.advanceRow⟩

/-- `stream_row(p, len)` (R164, R168, R169). An offset below 0 is outside `FB` too (`20_memory.md` R50);
no state that meets the invariant of R27 has one. -/
def streamRow (p : List Byte) (s : State) : Host.Outcome State Fault Refusal :=
  if s.cfg.strictRowLen = true ∧ (p.length : Int) ≠ Config.bpp * s.pwinW.toInt then
    .fault (.rowLength p.length)
  else if s.rowOffset < 0 ∨ (Config.fbSize : Int) < s.rowOffset + p.length then
    .fault (.fbOverrun s.rowOffset p.length)
  else
    .next (deliverVal (BitVec.ofNat 32 p.length) (afterCopy (copyRow s.rowOffset.toNat p s)))

/-- `stream_write(p, len)` (R160). -/
def streamWrite (p : List Byte) (s : State) : Host.Outcome State Fault Refusal :=
  if s.nextRow = -1 then
    if p.length = Config.rectDescSize then
      streamHeader (wordAt p 0) (wordAt p 4) (wordAt p 8) (wordAt p 12) s
    else streamBadHeader s
  else streamRow p s

end Sys2Proof.Machine
end

