-- ==== Sys2Proof/Machine/Write.lean ====
section
/-! DEFINITION. WRITE and its five variants (`43_mode_controller.md` R143 to R148, `30_encoding.md` R65).

The five variant rows of the opcode table match the same bytes as `WRITE` and are selected by the state
(R78). A variant's meaning is its own procedure where the row's `condition` holds; elsewhere the same
bytes are the WRITE that the state selects (`notes/assumptions/7.md`). -/

namespace Sys2Proof.Machine

open Sys2Proof

/-- `write_idle(p, len)` (R144). -/
def writeIdle (p : List Byte) (s : State) : Host.Outcome State Fault Refusal :=
  .next (deliverVal (BitVec.ofNat 32 p.length) (sendCommand s.cfg.cmdNop s))

/-- `write_rect(p, len)` (R145): the draws, then one Rect Fill. -/
def writeRect (p : List Byte) (s : State) : Host.Outcome State Fault Refusal :=
  .next (deliverVal (BitVec.ofNat 32 p.length)
    (fillRect s.nextDraw.x s.nextDraw.y s.nextDraw.w s.nextDraw.h (drawColor s.cfg s.nextDraw)
      s.popDraw))

/-- `WRITE(p, len)` (R143): dispatched on the mode alone. -/
def writeDispatch (p : List Byte) (s : State) : Host.Outcome State Fault Refusal :=
  match s.mode with
  | .idle => writeIdle p s
  | .rect => writeRect p s
  | .stream => streamWrite p s

/-- `WRITE` (R143). -/
def execWrite (p : List Byte) (s : State) : Host.Outcome State Fault Refusal := writeDispatch p s

/-- `WRITE.IDLE` (R144): condition `MODE = MODE_IDLE`. -/
def execWriteIdle (p : List Byte) (s : State) : Host.Outcome State Fault Refusal :=
  if s.mode = .idle then writeIdle p s else writeDispatch p s

/-- `WRITE.RECT` (R145): condition `MODE = MODE_RECT`. -/
def execWriteRect (p : List Byte) (s : State) : Host.Outcome State Fault Refusal :=
  if s.mode = .rect then writeRect p s else writeDispatch p s

/-- `WRITE.HDR` (R161): condition `MODE = MODE_STREAM and NEXT_ROW = -1 and len = 16`. -/
def execWriteHdr (x y w h : Word) (s : State) : Host.Outcome State Fault Refusal :=
  if s.mode = .stream ∧ s.nextRow = -1 then streamHeader x y w h s
  else writeDispatch (rectBytes x y w h) s

/-- `WRITE.BADHDR` (R162): condition `MODE = MODE_STREAM and NEXT_ROW = -1 and len != 16`. -/
def execWriteBadhdr (p : List Byte) (s : State) : Host.Outcome State Fault Refusal :=
  if s.mode = .stream ∧ s.nextRow = -1 ∧ p.length ≠ Config.rectDescSize then streamBadHeader s
  else writeDispatch p s

/-- `WRITE.ROW` (R164): condition `MODE = MODE_STREAM and NEXT_ROW >= 0`. -/
def execWriteRow (p : List Byte) (s : State) : Host.Outcome State Fault Refusal :=
  if s.mode = .stream ∧ 0 ≤ s.nextRow.toInt then streamRow p s else writeDispatch p s

end Sys2Proof.Machine
end

