-- ==== Sys2Proof/Machine/Dispatch.lean ====
section
/-! DEFINITION. One arm per row of the opcode table. -/

namespace Sys2Proof.Machine

def exec (i : Instr) (s : State) : Host.Outcome State Fault Refusal :=
  match i with
  | .write p => Sys2Proof.Machine.execWrite p s
  | .read n => Sys2Proof.Machine.execRead n s
  | .setmodeIdle => Sys2Proof.Machine.execSetmodeIdle s
  | .setmodeRect => Sys2Proof.Machine.execSetmodeRect s
  | .setmodeStream => Sys2Proof.Machine.execSetmodeStream s
  | .setmodeInvalid a => Sys2Proof.Machine.execSetmodeInvalid a s
  | .ctrlUnknown r a => Sys2Proof.Machine.execCtrlUnknown r a s
  | .writeIdle p => Sys2Proof.Machine.execWriteIdle p s
  | .writeRect p => Sys2Proof.Machine.execWriteRect p s
  | .writeHdr x y w h => Sys2Proof.Machine.execWriteHdr x y w h s
  | .writeBadhdr p => Sys2Proof.Machine.execWriteBadhdr p s
  | .writeRow p => Sys2Proof.Machine.execWriteRow p s
  | .nop => Sys2Proof.Machine.execNop s
  | .swreset => Sys2Proof.Machine.execSwreset s
  | .slpout => Sys2Proof.Machine.execSlpout s
  | .dispon => Sys2Proof.Machine.execDispon s
  | .caset a b => Sys2Proof.Machine.execCaset a b s
  | .paset a b => Sys2Proof.Machine.execPaset a b s
  | .ramwr ms => Sys2Proof.Machine.execRamwr ms s
  | .ramrd n => Sys2Proof.Machine.execRamrd n s
  | .pixfmt d => Sys2Proof.Machine.execPixfmt d s

end Sys2Proof.Machine
end

