-- ==== Sys2Proof/Machine/Fetch.lean ====
section
/-! DEFINITION. Where the next instruction comes from: the host port (`43_mode_controller.md` R135), or
the init script during the reset sequence (R184). -/

namespace Sys2Proof.Machine

open Sys2Proof

/-- A refusal for a request the decoder rejects (`30_encoding.md` R62, R74, R60). -/
def refusalOf : Reject → Refusal
  | .reservedSelector op => .reservedSelector op
  | .truncated => .truncatedRequest
  | .overMaxLen n => .overMaxLen n
  | .noBusRow code => .reservedSelector code

/-- Take the next request off the host port: the instruction its bytes are, and the state with those
bytes taken; or why there is none. -/
def takeRequest (s : State) : Except Refusal (Instr × State) :=
  match decode s.cfg s.hostIn with
  | .ok i rest => .ok (i, { s with hostIn := rest })
  | .reject why => .error (refusalOf why)

/-- The block takes requests: the reset sequence is over and ended with `ATTACHED = 1`, and no bus message
is waited for (R135, `40_transaction_layer.md` R94). -/
def State.ready (s : State) : Bool := !s.hung && decide (s.phase = .done) && s.attached

/-- A request that a reset abandons once it is taken (`70_reset_and_hazards.md` R230): its bytes are gone
from the host port, and it has no response. Where no request is taken there is none to abandon. -/
def abandonRequest (s : State) : State :=
  if s.ready then
    match takeRequest s with
    | .ok (_, t) => t
    | .error _ => s
  else s

/-- Put a request first on the host port, of a block that is ready to take it, with no reset asserted
(R135, R234). -/
def placeRequest (bytes : List Byte) (s : State) : State :=
  { s with
    phase := .done, attached := true, hung := false, hostIn := bytes ++ s.hostIn, resetIn := [] }

/-- Make a command the only one left of the init script, of a block that is running it, with no reset
asserted (R184). -/
def placeCommand (f : CmdFrame) (s : State) : State :=
  { s with phase := .init [⟨f, 0⟩], attached := false, hung := false, resetIn := [] }

/-- Put an instruction where the next step takes it from, on the port it belongs to. -/
def placeWire (w : Wire) (s : State) : State :=
  match w with
  | .host bytes => placeRequest bytes s
  | .bus f => placeCommand f s

end Sys2Proof.Machine
end

