-- ==== Sys2Proof/Machine/Advance.lean ====
section
/-! DEFINITION. What a step does: a reset when the reset input has one, else an entry of the reset sequence
(`70_reset_and_hazards.md` R230) or one host request from its decoding to its response
(`43_mode_controller.md` R135). -/

namespace Sys2Proof.Machine

open Sys2Proof

/-- One command of the init script (R184): by its row when it has one, else as a vendor command (R105). -/
def initStep (p : Pending) (rest : List Pending) (s : State) : Host.Outcome State Fault Refusal :=
  match decodeBus s.cfg p.frame with
  | .ok i _ => afterInitOutcome p.delay rest (exec i s)
  | .reject _ => afterInitOutcome p.delay rest (execVendor p.frame s)

/-- One request, or nothing when the host presents none (R135, R234). -/
def requestStep (s : State) : Host.Outcome State Fault Refusal :=
  match s.hostIn with
  | [] => .next s
  | _ :: _ =>
    match takeRequest s with
    | .ok (i, s') => exec i s'
    | .error r => .refused r

/-- What the block does in a step in which no reset is asserted. -/
def advance (s : State) : Host.Outcome State Fault Refusal :=
  if s.hung then .fault .busNeverCompletes
  else
    match s.phase with
    | .resetLine [] => .next (startInit s)
    | .resetLine (e :: rest) => .next (resetLineEntry e rest s)
    | .init [] => .next s.attach
    | .init (p :: rest) => initStep p rest s
    | .done => if s.attached then requestStep s else .fault .attachFailed

/-- A step under what it sees of the reset input (R230). -/
def stepUnder (r : ResetInput) (s : State) : Host.Outcome State Fault Refusal :=
  match r with
  | .idle => advance s
  | .before => .next s.restart
  | .within => .next (abandonRequest s).restart

end Sys2Proof.Machine
end

