-- ==== Sys2Proof/Machine/Step.lean ====
section
/-! DEFINITION. One step, and where a word of the opcode table is put so that the next step runs it. -/

namespace Sys2Proof.Machine

open Sys2Proof

/-- The machine's step: what it sees of the reset input decides (`70_reset_and_hazards.md` R230). -/
def step (s : State) : Host.Outcome State Fault Refusal := stepUnder s.resetNow s.popReset

/-- The state whose next step runs the instruction of a word of `spec/opcode_table.json`: a host request
is put first on the host port of a ready block; a bus command is made the one command left of the init
script (`notes/assumptions/10.md`). -/
def State.withFetchWord (s : State) (nbits w : Nat) : State :=
  placeWire (tableWire s.cfg nbits w) s

end Sys2Proof.Machine
end

