-- ==== Sys2Proof/Safety.lean ====
section
/-! DEFINITION. The terms claims use: what a run of bus activity looks like in the trace, what a part of
the machine leaves alone, what the trace says the controller was told, and the invariants of
`10_state.md`. Nothing here is read by the machine. -/

namespace Sys2Proof.Machine

open Sys2Proof

/-! ## Bus activity in the trace -/

/-- The events of `send_command(code)` (`40_transaction_layer.md` R90). -/
def commandEvents (code : Byte) (ok : Bool) : List Event := [.dc false, .msg [.tx [code]] ok, .dc true]

/-- The event of `send_data(bytes)` (R91). -/
def dataEvent (bytes : List Byte) (ok : Bool) : Event := .msg [.tx bytes] ok

/-- The answer is `ok`. -/
def BusAnswer.isOk : BusAnswer → Bool
  | .ok _ => true
  | .fail => false
  | .never => false

/-- The bytes an `ok` answer brings. -/
def BusAnswer.bytes : BusAnswer → List Byte
  | .ok rx => rx
  | .fail => []
  | .never => []

/-- The next `n` bus messages end `ok`. -/
abbrev State.answersOk (s : State) (n : Nat) : Prop := ∀ k, k < n → (BusAnswer.isOk (s.answer k)) = true

/-- The first `k` of the next bus messages end `ok` and the one after them ends `fail`. -/
abbrev State.failsAt (s : State) (k : Nat) : Prop := s.answersOk k ∧ s.answer k = .fail

/-- `n` messages have been answered and `evs` emitted; nothing else has changed. -/
def State.sent (evs : List Event) (n : Nat) (s : State) : State :=
  { s with
    trace := s.trace ++ evs
    env := { s.env with busIn := s.env.busIn.drop n, busUsed := s.env.busUsed + n } }

/-- What the column step emits when every message ends `ok` (`41_address_window.md` R112). -/
def State.columnEvents (s : State) (x1 x2 : Half) : List Event :=
  if s.colHit x1 x2 then [] else commandEvents s.cfg.cmdCaset true ++ [dataEvent (winPayload x1 x2) true]

/-- What the row step emits when every message ends `ok` (R113). -/
def State.rowEvents (s : State) (y1 y2 : Half) : List Event :=
  if s.rowHit y1 y2 then [] else commandEvents s.cfg.cmdPaset true ++ [dataEvent (winPayload y1 y2) true]

/-- What `set_window` to columns `x1..x2` and rows `y1..y2` emits when every message ends `ok` (R110). -/
def State.windowEvents (s : State) (x1 x2 y1 y2 : Half) : List Event :=
  s.columnEvents x1 x2 ++ s.rowEvents y1 y2

/-- The messages of a list of events. -/
def messages : List Event → Nat
  | [] => 0
  | .msg _ _ :: rest => messages rest + 1
  | .dc _ :: rest => messages rest
  | .rst _ :: rest => messages rest
  | .delay _ :: rest => messages rest

/-- A segment of a failed message: what was received is not known (`00_scope.md` R14). -/
def TraceSeg.failed : TraceSeg → TraceSeg
  | .tx b => .tx b
  | .rx n _ => .rx n []

/-- A segment as it was submitted. -/
def TraceSeg.asSeg : TraceSeg → Seg
  | .tx b => .tx b
  | .rx n _ => .rx n

/-- `DC` going high right after a message: the message was a command byte (R90). -/
def closing : List Event → List Event
  | .dc true :: _ => [.dc true]
  | _ => []

/-- The events of a successful run cut short by the failure of its message number `k`, counting from 0:
everything up to that message, the message with outcome `fail`, and the `DC(1)` that follows it if it is
a command byte (R90, `60_exceptions.md` R209). -/
def cutAt : Nat → List Event → List Event
  | _, [] => []
  | 0, .msg segs _ :: rest => .msg (segs.map TraceSeg.failed) false :: closing rest
  | k + 1, .msg segs ok :: rest => .msg segs ok :: cutAt k rest
  | k, .dc l :: rest => .dc l :: cutAt k rest
  | k, .rst l :: rest => .rst l :: cutAt k rest
  | k, .delay d :: rest => .delay d :: cutAt k rest

/-- The events of a post-delay (R184, R230). -/
def delayEvents (d : Nat) : List Event := if 0 < d then [.delay d] else []

/-- The events of one entry of `RST_SCRIPT` (R230). -/
def rstEvents (r : RstStep) : List Event := .rst r.level :: delayEvents r.delay

/-- The bus activity of one step of `INIT_SCRIPT` (R184): the command, then its data in one message when
there is any. -/
def initMessages (i : InitStep) : List Event :=
  commandEvents i.code true ++ (if i.data = [] then [] else [dataEvent i.data true])

/-- The events of one step of `INIT_SCRIPT` when every message ends `ok` (R184). -/
def initEvents (i : InitStep) : List Event := initMessages i ++ delayEvents i.delay

/-- The trace of the whole reset sequence when every message ends `ok` (R233). -/
def bootEvents (c : Config) : List Event :=
  c.rstScript.flatMap rstEvents ++ c.initScript.flatMap initEvents

/-- Requests run one after another, stopping at the first that does not answer a next state. -/
def execAll : List Instr → State → Host.Outcome State Fault Refusal
  | [], s => .next s
  | i :: rest, s =>
    match exec i s with
    | .next t => execAll rest t
    | .fault f => .fault f
    | .refused r => .refused r

/-- The five requests of the control call. -/
def isControl : Instr → Bool
  | .setmodeIdle => true
  | .setmodeRect => true
  | .setmodeStream => true
  | .setmodeInvalid _ => true
  | .ctrlUnknown _ _ => true
  | _ => false

/-- WRITE and its five variants. -/
def isWrite : Instr → Bool
  | .write _ => true
  | .writeIdle _ => true
  | .writeRect _ => true
  | .writeHdr _ _ _ _ => true
  | .writeBadhdr _ => true
  | .writeRow _ => true
  | _ => false

/-! ## What is left alone -/

/-- Only the bus has been used: nothing but the trace, `DC`, the environment's position and the mark of a
message that never completes differs. -/
def OnlyBus (s t : State) : Prop :=
  t = { s with trace := t.trace, dc := t.dc, env := t.env, hung := t.hung }

/-- Only the bus and the window cache have been used. -/
def OnlyWindow (s t : State) : Prop :=
  t = { s with
    trace := t.trace, dc := t.dc, env := t.env, hung := t.hung
    ccolV := t.ccolV, ccolX1 := t.ccolX1, ccolX2 := t.ccolX2
    crowV := t.crowV, crowY1 := t.crowY1, crowY2 := t.crowY2 }

/-- The window cache is the same. -/
def SameCache (s t : State) : Prop :=
  t.ccolV = s.ccolV ∧ t.ccolX1 = s.ccolX1 ∧ t.ccolX2 = s.ccolX2 ∧
  t.crowV = s.crowV ∧ t.crowY1 = s.crowY1 ∧ t.crowY2 = s.crowY2

/-- The window cache after a run from `s` that sets the window to columns `x1..x2` and rows `y1..y2` and
whose message number `k` fails (`41_address_window.md` R115). A column failure leaves that axis invalid and
the row axis as it was; a row failure leaves the row axis invalid and the column axis with its new value; a
failure after the window leaves both with their new values. -/
def CacheAfterFailure (s t : State) (x1 x2 y1 y2 : Half) (k : Nat) : Prop :=
  (k < messages (s.columnEvents x1 x2) →
    t.ccolV = false ∧ t.crowV = s.crowV ∧ t.crowY1 = s.crowY1 ∧ t.crowY2 = s.crowY2) ∧
  (messages (s.columnEvents x1 x2) ≤ k → t.ccolV = true ∧ t.ccolX1 = x1 ∧ t.ccolX2 = x2) ∧
  (messages (s.columnEvents x1 x2) ≤ k → k < messages (s.windowEvents x1 x2 y1 y2) →
    t.crowV = false) ∧
  (messages (s.windowEvents x1 x2 y1 y2) ≤ k → t.crowV = true ∧ t.crowY1 = y1 ∧ t.crowY2 = y2)

/-- The stream registers are the same. -/
def SameStream (s t : State) : Prop :=
  t.pwinV = s.pwinV ∧ t.pwinX = s.pwinX ∧ t.pwinY = s.pwinY ∧ t.pwinW = s.pwinW ∧ t.pwinH = s.pwinH ∧
  t.nextRow = s.nextRow

/-- Every byte of the frame buffer reads as before. -/
def SameFb (s t : State) : Prop := ∀ a, t.fbByte a = s.fbByte a

/-! ## What the controller was told -/

/-- The two axes of a window. -/
inductive Axis where
  | col
  | row
  deriving DecidableEq, Repr

/-- What the trace shows of the commands sent. `col` is the payload of the last column-set transaction
attempted, if it ended `ok` in both its messages; `row` likewise (`10_state.md` R24). `last` is the last
command byte sent and its outcome. -/
structure BusView where
  dcLow : Bool
  axis  : Option Axis
  col   : Option (List Byte)
  row   : Option (List Byte)
  last  : Option (Byte × Bool)
  deriving DecidableEq, Repr

/-- A message sent with `DC` low is a command byte (R70). -/
def BusView.command (c : Config) (segs : List TraceSeg) (ok : Bool) (v : BusView) : BusView :=
  match segs with
  | [.tx [b]] =>
    { v with
      last := some (b, ok)
      axis := if ok = true ∧ b = c.cmdCaset then some .col
        else if ok = true ∧ b = c.cmdPaset then some .row else none
      col := if b = c.cmdCaset then none else v.col
      row := if b = c.cmdPaset then none else v.row }
  | _ => v

/-- A message sent with `DC` high is data; the first after a range-set command is its payload (R70). -/
def BusView.data (segs : List TraceSeg) (ok : Bool) (v : BusView) : BusView :=
  match v.axis, segs with
  | some .col, [.tx p] => { v with axis := none, col := if ok then some p else none }
  | some .row, [.tx p] => { v with axis := none, row := if ok then some p else none }
  | _, _ => { v with axis := none }

/-- One event more. -/
def BusView.see (c : Config) (v : BusView) : Event → BusView
  | .dc l => { v with dcLow := !l }
  | .rst _ => v
  | .delay _ => v
  | .msg segs ok => if v.dcLow then v.command c segs ok else v.data segs ok

/-- Before the first event `DC` is high and nothing has been sent (R230). -/
def BusView.start : BusView := ⟨false, none, none, none, none⟩

/-- The view of a whole trace. -/
def busView (c : Config) (trace : List Event) : BusView := trace.foldl (BusView.see c) BusView.start

/-- The view of the machine's own trace. -/
def State.view (s : State) : BusView := busView s.cfg s.trace

/-- The column and row payloads of the full-panel window (R7). -/
def fullColumns : List Byte := [0x00, 0x00, 0x00, 0xEF]
def fullRows    : List Byte := [0x00, 0x00, 0x01, 0x3F]

/-- Armed (`00_scope.md` R15): the last command sent was the memory-write command, with the full-panel
window latched. -/
def State.armed (s : State) : Bool :=
  decide (s.view.last = some (s.cfg.cmdRamwr, true)) && decide (s.view.col = some fullColumns) &&
  decide (s.view.row = some fullRows)

/-! ## Invariants -/

/-- The stream-state invariant (R27). -/
abbrev StreamInv (s : State) : Prop :=
  (s.pwinV = false ↔ s.nextRow = -1) ∧
  (s.nextRow ≠ -1 →
    0 ≤ s.nextRow.toInt ∧ s.nextRow.toInt < s.pwinH.toInt ∧
    validRect s.pwinX s.pwinY s.pwinW s.pwinH = true)

/-- The cache invariant (R24). -/
abbrev CacheInv (s : State) : Prop :=
  (s.ccolV = true → s.view.col = some (winPayload s.ccolX1 s.ccolX2)) ∧
  (s.crowV = true → s.view.row = some (winPayload s.crowY1 s.crowY2))

/-- `DC` is high between procedures (R30), unless a message never completed; and the trace shows the
level `DC` has. -/
abbrev LineInv (s : State) : Prop := (s.hung = true ∨ s.dc = true) ∧ s.view.dcLow = !s.dc

/-- The frame buffer's memory is in canonical form and lists no address outside `FB` (R40, R50). -/
abbrev FbInv (s : State) : Prop := Memory.wf s.fb ∧ ∀ c ∈ s.fb, c.1 < Config.fbSize

/-- During the reset sequence nothing has been attached, cached or armed (R32, R37); FrameStream mode is
entered only with a frame buffer (R28, `43_mode_controller.md` R140). -/
abbrev ModeInv (s : State) : Prop :=
  (s.phase ≠ .done → s.attached = false ∧ s.mode = .idle ∧ s.ccolV = false ∧ s.crowV = false) ∧
  (s.mode = .stream → s.fbCreated = true)

/-- The machine's invariant. -/
abbrev Invariant (s : State) : Prop :=
  s.cfg.wf = true ∧ StreamInv s ∧ CacheInv s ∧ LineInv s ∧ FbInv s ∧ ModeInv s

/-- A run is safe while the invariant holds. -/
abbrev Safe (s : State) : Prop := Invariant s

/-- The launch state (`70_reset_and_hazards.md` R234): ready, idle, the values of R37. -/
def State.launch (cfg : Config) : State :=
  { State.resetWith cfg with
    attached := true
    phase := .done
    rst := match cfg.rstScript.getLast? with | none => true | some r => r.level }

end Sys2Proof.Machine
end

