-- ==== Sys2Proof/Certificates/Slice0/Obligations.lean ====
section
/-! DEFINITION. The statements for the provers. Each names the rule of spec/ it formalises; a clause that
rests on a choice of the model says so and names the log entry. -/

open Sys2Proof Sys2Proof.Machine

/-! ## Encodings (`30_encoding.md`) -/

/-- Every well-formed host request, with every operand, decodes from its encoding, whatever follows it; a
variant of a WRITE decodes to the WRITE with its payload (R60, R63, R64, R65, R74). -/
def Obligations.HostRequestRoundTrip : Prop :=
  ∀ (c : Config) (i : Instr) (rest : List Byte),
    c.wf = true → i.isHost = true → i.wf c = true →
    ∃ bytes, encode c i = .host bytes ∧ decode c (bytes ++ rest) = .ok i.asRequest rest

/-- Every well-formed bus command, with every operand, decodes from its frame (R70, R71). -/
def Obligations.BusCommandRoundTrip : Prop :=
  ∀ (c : Config) (i : Instr),
    c.wf = true → i.isHost = false → i.wf c = true → decodeWire c (encode c i) = .ok i []

/-- No two requests share their bytes: what decodes is well-formed, is a host request, and the bytes are
its encoding followed by what is left over (R60, R74). -/
def Obligations.DecodedRequestIsItsEncoding : Prop :=
  ∀ (c : Config) (bytes : List Byte) (i : Instr) (rest : List Byte),
    c.wf = true → decode c bytes = .ok i rest →
    i.wf c = true ∧ i.isHost = true ∧ ∃ w, encode c i = .host w ∧ bytes = w ++ rest

/-- The decode of a WRITE by state (R65): each line of the rule's table. -/
def Obligations.WriteMeansWhatStateSelects : Prop :=
  ∀ (s : State) (p : List Byte),
    (s.mode = .idle → exec (.write p) s = exec (.writeIdle p) s) ∧
    (s.mode = .rect → exec (.write p) s = exec (.writeRect p) s) ∧
    (s.mode = .stream → s.nextRow = -1 → p.length = 16 →
      exec (.write p) s = exec (.writeHdr (wordAt p 0) (wordAt p 4) (wordAt p 8) (wordAt p 12)) s) ∧
    (s.mode = .stream → s.nextRow = -1 → p.length ≠ 16 →
      exec (.write p) s = exec (.writeBadhdr p) s) ∧
    (s.mode = .stream → 0 ≤ s.nextRow.toInt → exec (.write p) s = exec (.writeRow p) s)

/-- Format `RECTDESC` (R66, R42): 16 bytes, four fields in the order x, y, w, h, each two's complement and
least significant byte first. -/
def Obligations.RectDescriptorIsLittleEndian : Prop :=
  ∀ (p : List Byte) (s : State), p.length = 16 → s.mode = .stream → s.nextRow = -1 →
    ∃ x y w h : Word,
      exec (.write p) s = exec (.writeHdr x y w h) s ∧ rectBytes x y w h = p ∧
      (∀ (i : Nat) (v : Word), (i, v) ∈ [(0, x), (4, y), (8, w), (12, h)] →
        v.toInt = Int.bmod ((p.getD i 0).toNat + 2 ^ 8 * (p.getD (i + 1) 0).toNat +
          2 ^ 16 * (p.getD (i + 2) 0).toNat + 2 ^ 24 * (p.getD (i + 3) 0).toNat) (2 ^ 32))

/-- Words written out from the encodings of R60, R63, R64, R66, R71 and the vectors V1 to V7. -/
def Obligations.SampleWordsDecode : Prop :=
  decode Config.reference [0x02, 0x00, 0x02] = .ok .setmodeStream [] ∧
  decode Config.reference [0x02, 0x00, 0x63] = .ok (.setmodeInvalid 0x63) [] ∧
  decode Config.reference [0x02, 0x07, 0x02] = .ok (.ctrlUnknown 0x07 0x02) [] ∧
  decode Config.reference [0x00, 0x03, 0x00, 0x00, 0x00, 0xAA, 0xBB, 0xCC, 0x01] =
    .ok (.write [0xAA, 0xBB, 0xCC]) [0x01] ∧
  decode Config.reference [0x01, 0x04, 0x00, 0x00, 0x00] = .ok (.read 4) [] ∧
  decodeBus Config.reference ⟨0x2B, [.tx [0x00, 0x00, 0x01, 0x3F]]⟩ = .ok (.paset 0 319) []

/-- A reserved selector has no meaning: the decoder reports it and a step without a reset refuses it, with
no answer (R62). -/
def Obligations.ReservedSelectorIsRefused : Prop :=
  ∀ (s : State) (op : Byte) (rest : List Byte), 3 ≤ op.toNat →
    decode s.cfg (op :: rest) = .reject (.reservedSelector op) ∧
    (s.resetNow = .idle → s.hung = false → s.phase = .done → s.attached = true →
      s.hostIn = op :: rest → step s = .refused (.reservedSelector op))

/-! ## The step (`43_mode_controller.md` R135, `70_reset_and_hazards.md` R230) -/

/-- A step of a ready block runs the request at the head of the host port, on the state with that
request's bytes taken. No reset is asserted during the step, and the step moves past that entry of the
reset input (log entry 25). -/
def Obligations.StepRunsDecodedRequest : Prop :=
  ∀ (s : State) (i : Instr) (rest : List Byte),
    s.resetNow = .idle → s.hung = false → s.phase = .done → s.attached = true →
    decode s.cfg s.hostIn = .ok i rest →
    step s = exec i { s with hostIn := rest, resetIn := s.resetIn.tail }

/-- A step of the init sequence runs the command at the head of the script: by its row when it decodes,
else as a vendor command; then its post-delay and the rest of the script. No reset is asserted during the
step. -/
def Obligations.StepRunsInitCommand : Prop :=
  ∀ (s : State) (p : Pending) (rest : List Pending),
    s.resetNow = .idle → s.hung = false → s.phase = .init (p :: rest) →
    (∀ i more, decodeBus s.cfg p.frame = .ok i more →
      step s = afterInitOutcome p.delay rest (exec i { s with resetIn := s.resetIn.tail })) ∧
    (∀ why, decodeBus s.cfg p.frame = .reject why →
      step s = afterInitOutcome p.delay rest (execVendor p.frame { s with resetIn := s.resetIn.tail }))

/-- A command of the init script that succeeds: the command, its data in one message when there is any, a
delay when it is not zero, and the rest of the script (R184); nothing else changes, but that the step
moves past an entry of the reset input in which no reset is asserted (log entry 25). -/
def Obligations.InitCommandRuns : Prop :=
  ∀ (s : State) (i : InitStep) (rest : List Pending),
    s.resetNow = .idle → s.hung = false → s.dc = true → s.phase = .init (Pending.ofStep i :: rest) →
    s.answersOk (messages (initMessages i)) →
    step s = .next { s.sent (initEvents i) (messages (initMessages i)) with
      phase := .init rest, resetIn := s.resetIn.tail }

/-- Init failure (R185): the step ends at the failing message, the rest of the script is dropped,
`ATTACHED` stays 0, and no step follows while no reset is asserted. -/
def Obligations.InitFailureStopsForEver : Prop :=
  ∀ (s : State) (i : InitStep) (rest : List Pending) (k : Nat),
    s.resetNow = .idle → s.hung = false → s.dc = true → s.attached = false →
    s.phase = .init (Pending.ofStep i :: rest) →
    k < messages (initMessages i) → s.failsAt k →
    ∃ t, step s = .next t ∧ t.trace = s.trace ++ cutAt k (initMessages i) ∧ t.attached = false ∧
      t.phase = .done ∧ t.responses = s.responses ∧ t.hostIn = s.hostIn ∧
      (t.resetNow = .idle → step t = .fault .attachFailed)

/-- While `ATTACHED = 0` no request is taken and none is answered (R135, R32), and without a reset the mode,
the stream registers, `FB` and the window cache stay as they are. That a step on which a reset lands keeps
the host's bytes and the responses too is no rule of the spec: it is the model's choice (log entry 25,
unsafe). -/
def Obligations.NoRequestUntilAttached : Prop :=
  ∀ s t : State, s.attached = false → step s = .next t →
    t.hostIn = s.hostIn ∧ t.responses = s.responses ∧
    (s.resetNow = .idle → t.mode = s.mode ∧ SameStream s t ∧ t.fb = s.fb ∧ SameCache s t)

/-- The reset values the spec gives (R37, R230 step 1), for every choice of the parameters. That no byte
of `FB` is listed is the model's form of "unspecified" (log entry 3). -/
def Obligations.ResetValues : Prop :=
  ∀ c : Config, ∀ s : State, s = State.resetWith c →
    s.mode = .idle ∧ s.ccolV = false ∧ s.crowV = false ∧ s.pwinV = false ∧ s.nextRow.toInt = -1 ∧
    s.fbCreated = false ∧ s.dc = true ∧ s.attached = false ∧ s.trace = [] ∧ s.responses = [] ∧
    (∀ a, s.fbByte a = Config.fbInit s.launches a) ∧
    (c.rstScript = [] → s.rst = true) ∧ (∀ e rest, c.rstScript = e :: rest → s.rst = e.level)

/-- The reset sequence (R230, R233): from the state a reset leaves, with every bus message `ok` and no
further reset, it emits the trace of the two scripts and ends in the launch state, whatever the parameters,
the environment, the host's bytes and the number of resets before. One step per script entry and one at the
end of each script is the model's grain (log entry 10). -/
def Obligations.ResetSequenceReachesLaunch : Prop :=
  ∀ (c : Config) (e : Env) (bytes : List Byte) (rs : List Response) (n : Nat), ∀ s : State,
    s = { State.resetWith c with env := e, hostIn := bytes, responses := rs, launches := n } →
    s.answersOk (messages (bootEvents c)) →
    Sys2Proof.core.run (c.rstScript.length + c.initScript.length + 2) s =
      .next ({ State.launch c with env := e, hostIn := bytes, responses := rs, launches := n }.sent
        (bootEvents c) (messages (bootEvents c)))

/-! ## The control call (`43_mode_controller.md` R136 to R142) -/

/-- `SETMODE IDLE` and `SETMODE RECT` record the mode, answer `Ok`, and do nothing else (R138, R139). -/
def Obligations.PlainModeSetRecordsMode : Prop :=
  ∀ s : State,
    exec .setmodeIdle s =
      .next { s with mode := .idle, responses := s.responses ++ [⟨.ok, 0, []⟩] } ∧
    exec .setmodeRect s =
      .next { s with mode := .rect, responses := s.responses ++ [⟨.ok, 0, []⟩] }

/-- An unrecognised mode byte forces `MODE` to Idle and answers `ErrInval`; nothing else changes (R137). -/
def Obligations.UnknownModeForcesIdle : Prop :=
  ∀ (s : State) (arg : Byte), 3 ≤ arg.toNat →
    decode s.cfg [0x02, s.cfg.reqSetMode, arg] = .ok (.setmodeInvalid arg) [] ∧
    exec (.setmodeInvalid arg) s =
      .next { s with mode := .idle, responses := s.responses ++ [⟨.error .inval, 0, []⟩] }

/-- A control call other than the mode-select call is answered `ErrNoTty`, whatever its argument, with no
state change and no event (R136, R204). -/
def Obligations.UnknownControlCallChangesNothing : Prop :=
  ∀ (s : State) (req arg : Byte), req ≠ s.cfg.reqSetMode →
    decode s.cfg [0x02, req, arg] = .ok (.ctrlUnknown req arg) [] ∧
    exec (.ctrlUnknown req arg) s =
      .next { s with responses := s.responses ++ [⟨.error .noTty, 0, []⟩] }

/-- `SETMODE STREAM` when the buffer is there or can be had and every message ends `ok`: the full-panel
window where the cache misses, then `RAMWR`; the mode, the buffer and the cache recorded; whatever the
mode was (R140, R141). -/
def Obligations.StreamModeArms : Prop :=
  ∀ s : State, ∀ evs : List Event,
    evs = s.windowEvents 0 239 0 319 ++ commandEvents s.cfg.cmdRamwr true →
    s.dc = true → (s.fbCreated = true ∨ s.allocOk = true) → s.answersOk (messages evs) →
    exec .setmodeStream s = .next
      { (if s.fbCreated then s else s.popAlloc).sent evs (messages evs) with
        mode := .stream, fbCreated := true
        ccolV := true, ccolX1 := 0, ccolX2 := 239, crowV := true, crowY1 := 0, crowY2 := 319
        responses := s.responses ++ [⟨.ok, 0, []⟩] }

/-- A bus failure while arming (R140, R209): `ErrIO`, `MODE` FrameStream and the buffer created, the trace
up to and including the failed message, the window cache as R115 leaves it, and everything else as it
was. -/
def Obligations.ArmingFailureKeepsMode : Prop :=
  ∀ (s : State) (k : Nat), ∀ evs : List Event,
    evs = s.windowEvents 0 239 0 319 ++ commandEvents s.cfg.cmdRamwr true →
    s.dc = true → (s.fbCreated = true ∨ s.allocOk = true) → k < messages evs → s.failsAt k →
    ∃ t, exec .setmodeStream s = .next t ∧ t.mode = .stream ∧ t.fbCreated = true ∧
      t.trace = s.trace ++ cutAt k evs ∧ t.dc = true ∧ t.hung = s.hung ∧
      t.responses = s.responses ++ [⟨.error .io, 0, []⟩] ∧ CacheAfterFailure s t 0 239 0 319 k ∧
      OnlyWindow { s with mode := .stream, fbCreated := true } { t with responses := s.responses }

/-- Repeating `SETMODE STREAM` sends `RAMWR` and nothing else (R141). -/
def Obligations.SecondArmingResendsRamwrOnly : Prop :=
  ∀ s t : State, s.dc = true → exec .setmodeStream s = .next t →
    t.responses = s.responses ++ [⟨.ok, 0, []⟩] → t.answersOk 1 →
    exec .setmodeStream t = .next
      { t.sent (commandEvents t.cfg.cmdRamwr true) 1 with
        responses := t.responses ++ [⟨.ok, 0, []⟩] }

/-- What a mode set does not touch, on any answer of the environment (R142, and the lines and positions
of R31, R32): the stream registers and `FB`; and for every control call but `SETMODE STREAM` also the
window cache, `DC`, the trace and `FB_CREATED`. -/
def Obligations.ControlCallFrame : Prop :=
  ∀ (i : Instr) (s t : State), isControl i = true → i.wf s.cfg = true → exec i s = .next t →
    SameStream s t ∧ t.fb = s.fb ∧ t.rst = s.rst ∧ t.attached = s.attached ∧ t.phase = s.phase ∧
    t.hostIn = s.hostIn ∧ t.cfg = s.cfg ∧
    (i ≠ .setmodeStream →
      SameCache s t ∧ t.dc = s.dc ∧ t.trace = s.trace ∧ t.env = s.env ∧ t.fbCreated = s.fbCreated ∧
      t.hung = s.hung)

/-- A buffer acquisition that fails (R202, R125, R140): `ErrNoMem`, no event, no state changed. The
environment's own positions move on (log entry 1). -/
def Obligations.NoMemoryTouchesNothing : Prop :=
  ∀ (s : State) (p : List Byte) (i : Instr), s.allocOk = false →
    (s.fbCreated = false → exec .setmodeStream s = .next
      { s.popAlloc with responses := s.responses ++ [⟨.error .noMem, 0, []⟩] }) ∧
    (s.mode = .rect → i = .write p ∨ i = .writeRect p → exec i s = .next
      { s.popDraw.popAlloc with responses := s.responses ++ [⟨.error .noMem, 0, []⟩] })

/-! ## WRITE in Idle and RectTest modes -/

/-- A WRITE in Idle mode sends one `NOP` and answers `Ok(len)`, or `ErrIO` when the message fails; any
length does the same (R144). -/
def Obligations.IdleWriteSendsNop : Prop :=
  ∀ (s : State) (p : List Byte) (i : Instr), s.mode = .idle → i = .write p ∨ i = .writeIdle p →
    (s.answersOk 1 → exec i s = .next
      { s.sent (commandEvents s.cfg.cmdNop true) 1 with
        dc := true, responses := s.responses ++ [⟨.ok, BitVec.ofNat 32 p.length, []⟩] }) ∧
    (s.answer 0 = .fail → exec i s = .next
      { s.sent (commandEvents s.cfg.cmdNop false) 1 with
        dc := true, responses := s.responses ++ [⟨.error .io, 0, []⟩] })

/-- A WRITE in RectTest mode paints exactly one rectangle: the window where the cache misses, `RAMWR`, one
message of `w` pixels for each of the `h` rows, `NOP` (R145, R124). -/
def Obligations.RectWritePaintsOneRectangle : Prop :=
  ∀ (s : State) (p : List Byte) (i : Instr) (d : RectDraw) (col : Color) (x1 x2 y1 y2 : Half),
    ∀ evs : List Event, s.mode = .rect → i = .write p ∨ i = .writeRect p →
    d = s.nextDraw → col = drawColor s.cfg d →
    x1 = BitVec.ofNat 16 d.x → x2 = BitVec.ofNat 16 (d.x + d.w - 1) →
    y1 = BitVec.ofNat 16 d.y → y2 = BitVec.ofNat 16 (d.y + d.h - 1) →
    evs = s.windowEvents x1 x2 y1 y2 ++ commandEvents s.cfg.cmdRamwr true ++
      List.replicate d.h (dataEvent (List.replicate d.w (be16 (pack565 col))).flatten true) ++
      commandEvents s.cfg.cmdNop true →
    s.dc = true → s.cfg.wf = true → s.allocOk = true → s.answersOk (messages evs) →
    messages evs = messages (s.windowEvents x1 x2 y1 y2) + 1 + d.h + 1 ∧
    exec i s = .next
      { s.popDraw.popAlloc.sent evs (messages evs) with
        ccolV := true, ccolX1 := x1, ccolX2 := x2, crowV := true, crowY1 := y1, crowY2 := y2
        responses := s.responses ++ [⟨.ok, BitVec.ofNat 32 p.length, []⟩] }

/-- A bus failure inside a fill (R126): `ErrIO`; the rows after the failing message and the `NOP` are not
sent; the window cache is as `set_window` left it, and as R115 says where `set_window` itself failed;
everything but the bus and that cache is as it was. -/
def Obligations.FillFailureStopsAtMessage : Prop :=
  ∀ (s : State) (p : List Byte) (i : Instr) (k : Nat) (d : RectDraw) (x1 x2 y1 y2 : Half),
    ∀ evs : List Event, s.mode = .rect → i = .write p ∨ i = .writeRect p → d = s.nextDraw →
    x1 = BitVec.ofNat 16 d.x → x2 = BitVec.ofNat 16 (d.x + d.w - 1) →
    y1 = BitVec.ofNat 16 d.y → y2 = BitVec.ofNat 16 (d.y + d.h - 1) →
    evs = s.windowEvents x1 x2 y1 y2 ++ commandEvents s.cfg.cmdRamwr true ++
      List.replicate d.h (dataEvent (scanline d.w (drawColor s.cfg d)) true) ++
      commandEvents s.cfg.cmdNop true →
    s.dc = true → s.cfg.wf = true → s.allocOk = true → k < messages evs → s.failsAt k →
    ∃ t, exec i s = .next t ∧ t.trace = s.trace ++ cutAt k evs ∧
      t.responses = s.responses ++ [⟨.error .io, 0, []⟩] ∧ t.dc = true ∧ t.hung = s.hung ∧
      SameCache (setWindow d.x d.y d.w d.h s.popDraw.popAlloc).st t ∧
      CacheAfterFailure s t x1 x2 y1 y2 k ∧
      OnlyWindow s { t with responses := s.responses }

/-- The RectTest draw (R127): always inside its bounds, and every rectangle inside them can be drawn; and
the colour the drawn selector picks (R128). -/
def Obligations.DrawStaysInBounds : Prop :=
  ∀ s : State, s.cfg.wf = true →
    (∀ d : RectDraw,
      (d.sel.toNat = 0 → drawColor s.cfg d = s.cfg.colorRed) ∧
      (d.sel.toNat = 1 → drawColor s.cfg d = s.cfg.colorGreen) ∧
      (d.sel.toNat = 2 → drawColor s.cfg d = s.cfg.colorBlue) ∧
      (d.sel.toNat = 3 → drawColor s.cfg d = d.rgb)) ∧
    (1 ≤ s.nextDraw.w ∧ 1 ≤ s.nextDraw.h ∧ s.nextDraw.x + s.nextDraw.w ≤ 240 ∧
      s.nextDraw.y + s.nextDraw.h ≤ s.cfg.rtYlim) ∧
    (∀ d : RectDraw, 1 ≤ d.w → 1 ≤ d.h → d.x + d.w ≤ 240 → d.y + d.h ≤ s.cfg.rtYlim →
      { s with env := { s.env with drawIn := [d] } }.nextDraw = d)

/-! ## Colours (`42_rect_fill.md`) -/

/-- The packed value and its fields (R120, R121), the round trip and its idempotence (R121), and the wire
bytes of a pixel, packed value and channel terms (R122). -/
def Obligations.PackingRoundTrip : Prop :=
  (∀ p : Half, (unpack565 p).r.toNat = p.toNat / 2 ^ 11 % 2 ^ 5 * 2 ^ 3 ∧
    (unpack565 p).g.toNat = p.toNat / 2 ^ 5 % 2 ^ 6 * 2 ^ 2 ∧
    (unpack565 p).b.toNat = p.toNat % 2 ^ 5 * 2 ^ 3) ∧
  ∀ c : Color,
    (pack565 c).toNat =
      c.r.toNat / 2 ^ 3 * 2 ^ 11 + c.g.toNat / 2 ^ 2 * 2 ^ 5 + c.b.toNat / 2 ^ 3 ∧
    unpack565 (pack565 c) = ⟨c.r &&& 0xF8, c.g &&& 0xFC, c.b &&& 0xF8⟩ ∧
    pack565 (unpack565 (pack565 c)) = pack565 c ∧
    pixelBytes c = be16 (pack565 c) ∧
    pixelBytes c = [(c.r &&& 0xF8) ||| (c.g >>> 5), ((c.g &&& 0x1C) <<< 3) ||| (c.b >>> 3)]

/-! ## The Frame Streaming Engine (`44_frame_stream.md`) -/

/-- A header (R161): when it meets `ValidRect` it sets the cursor and answers `Ok(16)`, with no event and
`FB` untouched; when it does not, it faults. -/
def Obligations.HeaderOpensWindow : Prop :=
  ∀ (s : State) (x y w h : Word) (i : Instr) (valid : Prop),
    s.mode = .stream → s.nextRow = -1 → i = .writeHdr x y w h ∨ i = .write (rectBytes x y w h) →
    (valid ↔ 0 ≤ x.toInt ∧ 0 ≤ y.toInt ∧ 1 ≤ w.toInt ∧ 1 ≤ h.toInt ∧
      x.toInt + w.toInt ≤ 240 ∧ y.toInt + h.toInt ≤ 320) →
    (valid → exec i s = .next
      { s with
        pwinV := true, pwinX := x, pwinY := y, pwinW := w, pwinH := h, nextRow := 0
        responses := s.responses ++ [⟨.ok, 16, []⟩] }) ∧
    (¬ valid → exec i s = .fault (.badGeometry x y w h))

/-- A header faults exactly when it breaks `ValidRect` (R163). -/
def Obligations.BadGeometryFaults : Prop :=
  ∀ (s : State) (x y w h : Word), s.mode = .stream → s.nextRow = -1 →
    (exec (.writeHdr x y w h) s = .fault (.badGeometry x y w h) ↔
      ¬ (0 ≤ x.toInt ∧ 0 ≤ y.toInt ∧ 1 ≤ w.toInt ∧ 1 ≤ h.toInt ∧
        x.toInt + w.toInt ≤ 240 ∧ y.toInt + h.toInt ≤ 320))

/-- A WRITE of any length but 16 in AwaitingHeader is answered `ErrInval` and changes nothing (R162). -/
def Obligations.WrongHeaderSizeRejected : Prop :=
  ∀ (s : State) (p : List Byte) (i : Instr), s.mode = .stream → s.nextRow = -1 → p.length ≠ 16 →
    i = .writeBadhdr p ∨ i = .write p →
    exec i s = .next { s with responses := s.responses ++ [⟨.error .inval, 0, []⟩] }

/-- A row that is not the last (R164, R165, R168): all its bytes are copied at the row's offset, every
other byte of `FB` reads as before, the cursor moves by one, the answer is `Ok(len)`, and nothing else
changes; with `STRICT_ROW_LEN` a length other than `2 * PWIN_W` faults instead. -/
def Obligations.RowIsCopiedAndCursorMoves : Prop :=
  ∀ (s : State) (p : List Byte) (i : Instr) (off : Nat),
    s.mode = .stream → 0 ≤ s.nextRow.toInt → i = .writeRow p ∨ i = .write p →
    (off : Int) = ((s.pwinY.toInt + s.nextRow.toInt) * 240 + s.pwinX.toInt) * 2 →
    (s.cfg.strictRowLen = true → (p.length : Int) ≠ 2 * s.pwinW.toInt →
      exec i s = .fault (.rowLength p.length)) ∧
    (s.cfg.strictRowLen = false ∨ (p.length : Int) = 2 * s.pwinW.toInt →
      off + p.length ≤ 153600 → s.nextRow.toInt + 1 < s.pwinH.toInt →
      ∃ t, exec i s = .next t ∧
        t = { s with
          fb := t.fb, nextRow := t.nextRow
          responses := s.responses ++ [⟨.ok, BitVec.ofNat 32 p.length, []⟩] } ∧
        t.nextRow.toInt = s.nextRow.toInt + 1 ∧
        ∀ a, t.fbByte a =
          if off ≤ a ∧ a < off + p.length then p.getD (a - off) 0 else s.fbByte a)

/-- The last row (R166, R167): after the copy the whole frame buffer goes out in one data message, `FB[0]`
first, with no command; then the cursor is back at AwaitingHeader, on success and on failure alike, and the
answer is `Ok(len)` or `ErrIO`; the row stays in `FB` and nothing is sent again. -/
def Obligations.LastRowFlushesWholeBuffer : Prop :=
  ∀ (s : State) (p : List Byte) (i : Instr) (off : Nat) (ok : Bool),
    s.mode = .stream → 0 ≤ s.nextRow.toInt → i = .writeRow p ∨ i = .write p →
    (off : Int) = ((s.pwinY.toInt + s.nextRow.toInt) * 240 + s.pwinX.toInt) * 2 →
    s.cfg.strictRowLen = false ∨ (p.length : Int) = 2 * s.pwinW.toInt →
    off + p.length ≤ 153600 → s.nextRow.toInt + 1 = s.pwinH.toInt →
    (ok = true → s.answersOk 1) → (ok = false → s.answer 0 = .fail) →
    ∃ (t : State) (bytes : List Byte), exec i s = .next t ∧
      t = { s.sent [.msg [.tx bytes] ok] 1 with
        fb := t.fb, nextRow := -1, pwinV := false
        responses := s.responses ++
          [if ok then ⟨.ok, BitVec.ofNat 32 p.length, []⟩ else ⟨.error .io, 0, []⟩] } ∧
      bytes.length = 153600 ∧ (∀ a, a < 153600 → bytes.getD a 0 = t.fbByte a) ∧
      ∀ a, t.fbByte a = if off ≤ a ∧ a < off + p.length then p.getD (a - off) 0 else s.fbByte a

/-- Frame-buffer overrun (R169): a row of an open window faults with `FbOverrun` exactly when it passes the
last byte (with `STRICT_ROW_LEN` clear), and a row of the expected length never does. -/
def Obligations.OverrunFaultsOnlyPastTheEnd : Prop :=
  ∀ (s : State) (p : List Byte) (off : Int), StreamInv s → s.mode = .stream → s.nextRow ≠ -1 →
    off = ((s.pwinY.toInt + s.nextRow.toInt) * 240 + s.pwinX.toInt) * 2 →
    0 ≤ off ∧ off ≤ 153598 ∧ off + 2 * s.pwinW.toInt ≤ 153600 ∧
    (s.cfg.strictRowLen = false →
      (exec (.write p) s = .fault (.fbOverrun off p.length) ↔ 153600 < off + p.length))

/-- Streaming reconstruction, for every sub-window, from the rules of the header, the rows and the flush
(R161, R164, R165, R166; the spec's own claim R173 is of one window): a header followed by its scanlines leaves `FB`
with exactly those scanlines at their places and everything else as it was, emits nothing before the last
row and exactly one flush of the whole buffer after it, and returns to AwaitingHeader. -/
def Obligations.StreamingReconstruction : Prop :=
  ∀ (s : State) (x y w h : Nat) (rows : List (List Byte)),
    s.mode = .stream → s.nextRow = -1 → 1 ≤ w → 1 ≤ h → x + w ≤ 240 → y + h ≤ 320 →
    rows.length = h → (∀ p ∈ rows, p.length = 2 * w) → s.answersOk 1 →
    ∀ hdr : Instr, hdr = .write (rectBytes (BitVec.ofNat 32 x) (BitVec.ofNat 32 y)
      (BitVec.ofNat 32 w) (BitVec.ofNat 32 h)) →
    (∀ k, k < h → ∃ u, execAll (hdr :: (rows.take k).map Instr.write) s = .next u ∧
      u.trace = s.trace) ∧
    ∃ t, execAll (hdr :: rows.map Instr.write) s = .next t ∧
      t.nextRow = -1 ∧ t.pwinV = false ∧ t.mode = .stream ∧ SameCache s t ∧
      t.trace = s.trace ++ [.msg [.tx (t.fbRead 0 153600)] true] ∧
      t.responses = s.responses ++ ⟨.ok, 16, []⟩ ::
        rows.map (fun p => ⟨.ok, BitVec.ofNat 32 p.length, []⟩) ∧
      (∀ r i, r < h → i < 2 * w →
        t.fbByte (((y + r) * 240 + x) * 2 + i) = (rows.getD r []).getD i 0) ∧
      (∀ a, (∀ r i, r < h → i < 2 * w → a ≠ ((y + r) * 240 + x) * 2 + i) → t.fbByte a = s.fbByte a)

/-! ## READ (`45_read_and_init.md`) -/

/-- READ when every message ends `ok` (R180): the full-panel window where the cache misses, `RAMRD`, one
receive of `count` bytes, answered with `val = count` and the bytes the bus gave; `MODE`, the stream
registers and `FB` untouched. -/
def Obligations.ReadReturnsBusBytes : Prop :=
  ∀ (s : State) (count : Word) (rx : List Byte), ∀ evs : List Event,
    evs = s.windowEvents 0 239 0 319 ++ commandEvents s.cfg.cmdRamrd true ++
      [.msg [.rx count.toNat rx] true] →
    s.dc = true → s.answersOk (messages evs) → s.answer (messages evs - 1) = .ok rx →
    rx.length = count.toNat →
    exec (.read count) s = .next
      { s.sent evs (messages evs) with
        ccolV := true, ccolX1 := 0, ccolX2 := 239, crowV := true, crowY1 := 0, crowY2 := 319
        responses := s.responses ++ [⟨.ok, count, rx⟩] }

/-- READ with a failing message (R180, R209): nothing after it is sent, `ErrIO`, no data, the window cache
as R115 leaves it, and everything else as it was. -/
def Obligations.ReadFailureReturnsNoData : Prop :=
  ∀ (s : State) (count : Word) (k : Nat), ∀ evs : List Event,
    evs = s.windowEvents 0 239 0 319 ++ commandEvents s.cfg.cmdRamrd true ++
      [.msg [.rx count.toNat []] true] →
    s.dc = true → k < messages evs → s.failsAt k →
    ∃ t, exec (.read count) s = .next t ∧ t.trace = s.trace ++ cutAt k evs ∧ t.dc = true ∧
      t.hung = s.hung ∧ t.responses = s.responses ++ [⟨.error .io, 0, []⟩] ∧
      CacheAfterFailure s t 0 239 0 319 k ∧ OnlyWindow s { t with responses := s.responses }

/-- What READ leaves alone on any answer of the environment (R180): `MODE`, the stream registers, `FB`. -/
def Obligations.ReadFrame : Prop :=
  ∀ (s t : State) (count : Word), exec (.read count) s = .next t →
    OnlyWindow s { t with responses := s.responses } ∧ t.mode = s.mode ∧ SameStream s t ∧ SameFb s t ∧
    t.fbCreated = s.fbCreated

/-! ## The bus commands (`40_transaction_layer.md`) -/

/-- The commands without data (R96 to R99): the command byte between `DC(0)` and `DC(1)`, and no state of
the block. -/
def Obligations.BareCommandIsOneByte : Prop :=
  ∀ (s : State) (i : Instr) (code : Byte),
    (i, code) ∈ [(Instr.nop, s.cfg.cmdNop), (.swreset, s.cfg.cmdSwreset), (.slpout, s.cfg.cmdSlpout),
      (.dispon, s.cfg.cmdDispon)] →
    s.answersOk 1 →
    exec i s = .next { s.sent (commandEvents code true) 1 with dc := true }

/-- `CASET` and `PASET` (R100, R101): the command byte, then one data message, the start coordinate then
the end, each most significant byte first (R43, R69). -/
def Obligations.RangeCommandCarriesBothEnds : Prop :=
  ∀ (s : State) (v1 v2 : Half) (i : Instr) (code : Byte),
    (i, code) ∈ [(Instr.caset v1 v2, s.cfg.cmdCaset), (.paset v1 v2, s.cfg.cmdPaset)] →
    s.answersOk 2 →
    ∃ b0 b1 b2 b3 : Byte,
      b0.toNat = v1.toNat / 256 ∧ b1.toNat = v1.toNat % 256 ∧
      b2.toNat = v2.toNat / 256 ∧ b3.toNat = v2.toNat % 256 ∧
      exec i s = .next
        { s.sent (commandEvents code true ++ [dataEvent [b0, b1, b2, b3] true]) 2 with dc := true }

/-- `RAMWR`, `RAMRD` and `PIXFMT` (R102, R103, R104): the command byte, then the pixel messages, the one
receive, or the one message of data. -/
def Obligations.DataCommandCarriesItsMessages : Prop :=
  ∀ (s : State) (ms : List (List Byte)) (count : Word) (d rx : List Byte),
    (s.answersOk (ms.length + 1) → exec (.ramwr ms) s = .next
      { s.sent (commandEvents s.cfg.cmdRamwr true ++ ms.map (dataEvent · true)) (ms.length + 1) with
        dc := true }) ∧
    (s.answersOk 2 → s.answer 1 = .ok rx → rx.length = count.toNat → exec (.ramrd count) s = .next
      { s.sent (commandEvents s.cfg.cmdRamrd true ++ [.msg [.rx count.toNat rx] true]) 2 with
        dc := true }) ∧
    (d ≠ [] → s.answersOk 2 → exec (.pixfmt d) s = .next
      { s.sent (commandEvents s.cfg.cmdPixfmt true ++ [dataEvent d true]) 2 with dc := true }) ∧
    (s.answersOk 1 → exec (.pixfmt []) s = .next
      { s.sent (commandEvents s.cfg.cmdPixfmt true) 1 with dc := true })

/-- What a bus command leaves alone on any answer of the environment: everything but the bus; it can end
the init sequence, and only while that sequence runs (R97, R185). -/
def Obligations.BusCommandFrame : Prop :=
  ∀ (i : Instr) (s t : State), i.isHost = false → exec i s = .next t →
    OnlyBus s { t with phase := s.phase } ∧
    (t.phase = s.phase ∨ (∃ rest, s.phase = .init rest) ∧ t.phase = .done)

/-- `send_command` (R90): the line is high again whether the message ends `ok` or `fail`, and the failure
is passed on. -/
def Obligations.SendCommandRestoresSelector : Prop :=
  ∀ (s : State) (code : Byte),
    (s.answersOk 1 → sendCommand code s =
      ⟨.ok (), { s.sent [.dc false, .msg [.tx [code]] true, .dc true] 1 with dc := true }⟩) ∧
    (s.answer 0 = .fail → sendCommand code s =
      ⟨.err .io, { s.sent [.dc false, .msg [.tx [code]] false, .dc true] 1 with dc := true }⟩)

/-- `send_data`, `read_data` and `send_batch` (R91, R92, R93): one message with everything in it, `DC`
untouched; a failure is `ErrIO` and brings no bytes. -/
def Obligations.DataTransferIsOneMessage : Prop :=
  ∀ (s : State) (bytes rx : List Byte) (n : Nat) (segs : List Seg),
    (s.answersOk 1 → sendData bytes s = ⟨.ok (), s.sent [.msg [.tx bytes] true] 1⟩) ∧
    (s.answer 0 = .fail → sendData bytes s = ⟨.err .io, s.sent [.msg [.tx bytes] false] 1⟩) ∧
    (s.answer 0 = .ok rx → rx.length = n →
      readData n s = ⟨.ok rx, s.sent [.msg [.rx n rx] true] 1⟩) ∧
    (s.answer 0 = .fail → readData n s = ⟨.err .io, s.sent [.msg [.rx n []] false] 1⟩) ∧
    (s.answersOk 1 → ∃ done : List TraceSeg,
      sendBatch segs s = ⟨.ok (rxBytes done), s.sent [.msg done true] 1⟩ ∧
      done.map TraceSeg.asSeg = segs ∧ (∀ n got, TraceSeg.rx n got ∈ done → got.length = n)) ∧
    (s.answer 0 = .fail → ∃ done : List TraceSeg,
      sendBatch segs s = ⟨.err .io, s.sent [.msg done false] 1⟩ ∧ done.map TraceSeg.asSeg = segs ∧
      (∀ n got, TraceSeg.rx n got ∈ done → got = []))

/-- A bus message that never completes (R94), of any instruction: the request that submitted it is not
answered, and the block is stuck until a reset; and the `NOP` of a WRITE in Idle mode is one. That the
message leaves no event and the step after it faults is the model's form of waiting for ever (log
entry 2). -/
def Obligations.UnansweredMessageIsStuck : Prop :=
  (∀ (i : Instr) (s t : State), s.hung = false → exec i s = .next t → t.hung = true →
    t.responses = s.responses ∧ (t.resetNow = .idle → step t = .fault .busNeverCompletes)) ∧
  ∀ (s : State) (p : List Byte), s.mode = .idle → s.answer 0 = .never →
    ∃ t, exec (.write p) s = .next t ∧ t.hung = true ∧ t.trace = s.trace ++ [.dc false]

/-! ## The window cache (`41_address_window.md`) -/

/-- Of two consecutive calls with the same arguments the second sends nothing, when the first returned
`Ok` (R116 (a)). -/
def Obligations.RepeatedWindowSendsNothing : Prop :=
  ∀ (s : State) (x y w h : Int), (setWindow x y w h s).res = .ok () →
    setWindow x y w h (setWindow x y w h s).st = ⟨.ok (), (setWindow x y w h s).st⟩

/-- A call sends, axis by axis and independently, the range-set command of each axis whose pair differs
from the cache, column first, and then caches both pairs (R112, R113, R114, R116 (c)). -/
def Obligations.WindowSendsOnlyWhatDiffers : Prop :=
  ∀ (s : State) (x y w h : Nat) (x1 x2 y1 y2 : Half) (colEvs rowEvs : List Event),
    1 ≤ w → 1 ≤ h → x + w ≤ 240 → y + h ≤ 320 → s.dc = true →
    x1.toNat = x → x2.toNat = x + w - 1 → y1.toNat = y → y2.toNat = y + h - 1 →
    colEvs = (if s.ccolV = true ∧ s.ccolX1 = x1 ∧ s.ccolX2 = x2 then []
      else commandEvents s.cfg.cmdCaset true ++ [dataEvent (be16 x1 ++ be16 x2) true]) →
    rowEvs = (if s.crowV = true ∧ s.crowY1 = y1 ∧ s.crowY2 = y2 then []
      else commandEvents s.cfg.cmdPaset true ++ [dataEvent (be16 y1 ++ be16 y2) true]) →
    s.answersOk (messages (colEvs ++ rowEvs)) →
    setWindow x y w h s = ⟨.ok (),
      { s.sent (colEvs ++ rowEvs) (messages (colEvs ++ rowEvs)) with
        ccolV := true, ccolX1 := x1, ccolX2 := x2, crowV := true, crowY1 := y1, crowY2 := y2 }⟩

/-- A failure inside `set_window` (R115): the failing axis is left invalid, whichever of its two messages
failed; after a column failure the row cache is untouched; after a row failure the column cache keeps its
new value. -/
def Obligations.FailedWindowInvalidatesItsAxis : Prop :=
  ∀ (s : State) (x y w h : Int) (x1 x2 y1 y2 : Half) (k : Nat),
    s.dc = true → x1 = trunc16 x → x2 = trunc16 (x + w - 1) → y1 = trunc16 y →
    y2 = trunc16 (y + h - 1) → s.failsAt k →
    (k < messages (s.columnEvents x1 x2) →
      ∃ t, setWindow x y w h s = ⟨.err .io, t⟩ ∧ t.ccolV = false ∧
        t.crowV = s.crowV ∧ t.crowY1 = s.crowY1 ∧ t.crowY2 = s.crowY2 ∧
        t.trace = s.trace ++ cutAt k (s.columnEvents x1 x2)) ∧
    (messages (s.columnEvents x1 x2) ≤ k → k < messages (s.windowEvents x1 x2 y1 y2) →
      ∃ t, setWindow x y w h s = ⟨.err .io, t⟩ ∧ t.crowV = false ∧
        t.ccolV = true ∧ t.ccolX1 = x1 ∧ t.ccolX2 = x2 ∧
        t.trace = s.trace ++ cutAt k (s.windowEvents x1 x2 y1 y2))

/-! ## Whole-machine rules -/

/-- A request gets exactly one response, unless a bus message never completed; an error response carries
the value 0 and no data (R8, R61, R209, R94). -/
def Obligations.OneResponsePerRequest : Prop :=
  ∀ (i : Instr) (s t : State), i.isHost = true → exec i s = .next t →
    (t.hung = true ∧ t.responses = s.responses) ∨
    ∃ r, t.responses = s.responses ++ [r] ∧ (r.status ≠ .ok → r.val = 0 ∧ r.data = [])

/-- `MODE` is written only by the mode-select call (R21). -/
def Obligations.OnlyModeSetChangesMode : Prop :=
  ∀ (i : Instr) (s t : State), isControl i = false → exec i s = .next t → t.mode = s.mode

/-- `FB` is written only by a WRITE in FrameStream mode that is a scanline (R28). -/
def Obligations.OnlyRowsWriteFrameBuffer : Prop :=
  ∀ (i : Instr) (s t : State), exec i s = .next t →
    (isWrite i = false ∨ s.mode ≠ .stream ∨ s.nextRow = -1) → t.fb = s.fb

/-- The requests that send nothing cannot raise `ErrIO` (R201): the control calls but `SETMODE STREAM`, and
a WRITE in FrameStream mode that does not complete a sub-window. -/
def Obligations.QuietRequestsCannotFailOnBus : Prop :=
  ∀ (i : Instr) (s t : State), i.wf s.cfg = true → exec i s = .next t →
    (isControl i = true ∧ i ≠ .setmodeStream) ∨
      (isWrite i = true ∧ s.mode = .stream ∧
        (s.nextRow = -1 ∨ s.nextRow.toInt + 1 ≠ s.pwinH.toInt)) →
    t.trace = s.trace ∧ t.env = s.env ∧
    ∃ r, t.responses = s.responses ++ [r] ∧ r.status ≠ .error .io

/-- Without a reset a step only adds to the trace and to the responses (R10, R51); a reset empties the trace
(R230 step 1). That the responses are a list in State, and that a reset keeps those already given, is no
rule of the spec: it is the model's choice (log entries 17 and 25). -/
def Obligations.ObservationGrowsUntilReset : Prop :=
  ∀ s t : State, step s = .next t →
    (∃ rs, t.responses = s.responses ++ rs) ∧
    (s.resetNow = .idle → ∃ evs, t.trace = s.trace ++ evs) ∧
    (s.resetNow ≠ .idle → t.trace = [] ∧ t.responses = s.responses)

/-- The parameters are constant for a run, and stay the same across a reset by the model's choice (log entry
25); without a reset `FB_CREATED` is never cleared, and a ready block stays
ready with `RST` at its level: `ATTACHED` is never cleared (R36, R28, R31, R32). -/
def Obligations.ParametersFbCreatedAttachedPersist : Prop :=
  ∀ s t : State, step s = .next t →
    t.cfg = s.cfg ∧
    (s.resetNow = .idle →
      (s.fbCreated = true → t.fbCreated = true) ∧
      (s.attached = true → s.phase = .done → t.attached = true ∧ t.phase = .done ∧ t.rst = s.rst))

/-- The arm (R240): `SETMODE STREAM` that answers `Ok` arms the controller; inside FrameStream mode a
WRITE leaves the arm as it is; a READ that is answered disarms it. -/
def Obligations.ArmIsKeptByRowsAndLostByRead : Prop :=
  ∀ s t : State, Invariant s → s.phase = .done → s.hung = false → t.hung = false →
    (exec .setmodeStream s = .next t → t.responses = s.responses ++ [⟨.ok, 0, []⟩] →
      t.armed = true) ∧
    (∀ p, s.mode = .stream → exec (.write p) s = .next t → t.armed = s.armed) ∧
    (∀ n, exec (.read n) s = .next t → t.armed = false)

/-! ## Invariants -/

/-- Every step keeps the stream-state invariant (R27). -/
def Obligations.StepKeepsStreamInvariant : Prop :=
  ∀ s t : State, StreamInv s → step s = .next t → StreamInv t

/-- Every step keeps the frame buffer's memory inside `FB`, which is what R40 and R50 say, and its list in
canonical form, which is the model's choice of how memory is held (log entry 3). -/
def Obligations.StepKeepsFrameBufferInside : Prop :=
  ∀ s t : State, FbInv s → step s = .next t → FbInv t

/-- Every step keeps `DC` high between procedures (R30); the one exception is a command byte whose message
never completes (R94, log entry 2). -/
def Obligations.StepKeepsSelectorHigh : Prop :=
  ∀ s t : State, LineInv s → step s = .next t → LineInv t

/-- Every step keeps the machine's invariant: a valid cache axis holds what the last range-set transaction
of that axis carried (R24), the stream registers agree (R27), `DC` is high between procedures (R30),
nothing is attached or cached during the reset sequence (R37), `FB` stays inside (R40), and FrameStream
mode has its buffer (R140). It rests on choices of the model: the mark of a message that never completes
(log entry 2), the canonical memory list (log entry 3), the position in the reset sequence (log entry 10),
reading the commands off the trace (log entry 13) and keeping the parameters across a reset (log
entry 25). -/
def Obligations.StepKeepsInvariant : Prop :=
  ∀ s t : State, Invariant s → step s = .next t → Invariant t

/-- The invariant holds right after reset, for every well-formed choice of the parameters, and in the
launch state. -/
def Obligations.ResetMeetsInvariant : Prop :=
  Invariant State.reset ∧ ∀ c : Config, c.wf = true → Invariant (State.resetWith c) ∧ Invariant (State.launch c)

/-! ## The reset input (`70_reset_and_hazards.md` R230) -/

/-- A reset (R230): the step it lands on ends in the reset state of the same parameters, whatever the block
was doing, in mid-request, waiting for ever, in the reset sequence or after an init failure. A request that
it abandons is gone and has no response. That the input is a list in State, and that the environment, the
host's other bytes, the responses already given and the number of resets are what stays, is the model's
form of a reset input, and so is that the parameters stay (log entries 3, 17 and 25). -/
def Obligations.ResetAbandonsEverything : Prop :=
  ∀ s : State,
    (s.resetNow = .before → step s = .next
      { State.resetWith s.cfg with
        env := s.env, hostIn := s.hostIn, responses := s.responses
        resetIn := s.resetIn.tail, launches := s.launches + 1 }) ∧
    (∀ (i : Instr) (rest : List Byte),
      s.resetNow = .within → s.hung = false → s.phase = .done → s.attached = true →
      decode s.cfg s.hostIn = .ok i rest → step s = .next
        { State.resetWith s.cfg with
          env := s.env, hostIn := rest, responses := s.responses
          resetIn := s.resetIn.tail, launches := s.launches + 1 }) ∧
    (s.resetNow = .within →
      (s.hung = true ∨ s.phase ≠ .done ∨ s.attached = false ∨
        ∃ why, decode s.cfg s.hostIn = .reject why) →
      step s = step { s with resetIn := .before :: s.resetIn.tail })
end

