-- ==== Sys2Proof/Laws/State.lean ====
section
/-! SUPPORT. One lemma per field per update of State, and what the derived reads (an environment answer, a
byte of `FB`, a cache hit, a row offset) see of each update. -/

namespace Sys2Proof.Machine

open Sys2Proof

variable (s : State)


/-! ### emit -/

@[simp] theorem emit_cfg (e : Event) : (s.emit e).cfg = s.cfg := rfl
@[simp] theorem emit_mode (e : Event) : (s.emit e).mode = s.mode := rfl
@[simp] theorem emit_ccolV (e : Event) : (s.emit e).ccolV = s.ccolV := rfl
@[simp] theorem emit_ccolX1 (e : Event) : (s.emit e).ccolX1 = s.ccolX1 := rfl
@[simp] theorem emit_ccolX2 (e : Event) : (s.emit e).ccolX2 = s.ccolX2 := rfl
@[simp] theorem emit_crowV (e : Event) : (s.emit e).crowV = s.crowV := rfl
@[simp] theorem emit_crowY1 (e : Event) : (s.emit e).crowY1 = s.crowY1 := rfl
@[simp] theorem emit_crowY2 (e : Event) : (s.emit e).crowY2 = s.crowY2 := rfl
@[simp] theorem emit_pwinV (e : Event) : (s.emit e).pwinV = s.pwinV := rfl
@[simp] theorem emit_pwinX (e : Event) : (s.emit e).pwinX = s.pwinX := rfl
@[simp] theorem emit_pwinY (e : Event) : (s.emit e).pwinY = s.pwinY := rfl
@[simp] theorem emit_pwinW (e : Event) : (s.emit e).pwinW = s.pwinW := rfl
@[simp] theorem emit_pwinH (e : Event) : (s.emit e).pwinH = s.pwinH := rfl
@[simp] theorem emit_nextRow (e : Event) : (s.emit e).nextRow = s.nextRow := rfl
@[simp] theorem emit_fb (e : Event) : (s.emit e).fb = s.fb := rfl
@[simp] theorem emit_fbCreated (e : Event) : (s.emit e).fbCreated = s.fbCreated := rfl
@[simp] theorem emit_dc (e : Event) : (s.emit e).dc = s.dc := rfl
@[simp] theorem emit_rst (e : Event) : (s.emit e).rst = s.rst := rfl
@[simp] theorem emit_attached (e : Event) : (s.emit e).attached = s.attached := rfl
@[simp] theorem emit_phase (e : Event) : (s.emit e).phase = s.phase := rfl
@[simp] theorem emit_hung (e : Event) : (s.emit e).hung = s.hung := rfl
@[simp] theorem emit_hostIn (e : Event) : (s.emit e).hostIn = s.hostIn := rfl
@[simp] theorem emit_responses (e : Event) : (s.emit e).responses = s.responses := rfl
@[simp] theorem emit_trace (e : Event) : (s.emit e).trace = s.trace ++ [e] := rfl
@[simp] theorem emit_env (e : Event) : (s.emit e).env = s.env := rfl
@[simp] theorem emit_resetIn (e : Event) : (s.emit e).resetIn = s.resetIn := rfl
@[simp] theorem emit_launches (e : Event) : (s.emit e).launches = s.launches := rfl

/-! ### lineDC -/

@[simp] theorem lineDC_cfg (l : Level) : (s.lineDC l).cfg = s.cfg := rfl
@[simp] theorem lineDC_mode (l : Level) : (s.lineDC l).mode = s.mode := rfl
@[simp] theorem lineDC_ccolV (l : Level) : (s.lineDC l).ccolV = s.ccolV := rfl
@[simp] theorem lineDC_ccolX1 (l : Level) : (s.lineDC l).ccolX1 = s.ccolX1 := rfl
@[simp] theorem lineDC_ccolX2 (l : Level) : (s.lineDC l).ccolX2 = s.ccolX2 := rfl
@[simp] theorem lineDC_crowV (l : Level) : (s.lineDC l).crowV = s.crowV := rfl
@[simp] theorem lineDC_crowY1 (l : Level) : (s.lineDC l).crowY1 = s.crowY1 := rfl
@[simp] theorem lineDC_crowY2 (l : Level) : (s.lineDC l).crowY2 = s.crowY2 := rfl
@[simp] theorem lineDC_pwinV (l : Level) : (s.lineDC l).pwinV = s.pwinV := rfl
@[simp] theorem lineDC_pwinX (l : Level) : (s.lineDC l).pwinX = s.pwinX := rfl
@[simp] theorem lineDC_pwinY (l : Level) : (s.lineDC l).pwinY = s.pwinY := rfl
@[simp] theorem lineDC_pwinW (l : Level) : (s.lineDC l).pwinW = s.pwinW := rfl
@[simp] theorem lineDC_pwinH (l : Level) : (s.lineDC l).pwinH = s.pwinH := rfl
@[simp] theorem lineDC_nextRow (l : Level) : (s.lineDC l).nextRow = s.nextRow := rfl
@[simp] theorem lineDC_fb (l : Level) : (s.lineDC l).fb = s.fb := rfl
@[simp] theorem lineDC_fbCreated (l : Level) : (s.lineDC l).fbCreated = s.fbCreated := rfl
@[simp] theorem lineDC_dc (l : Level) : (s.lineDC l).dc = l := rfl
@[simp] theorem lineDC_rst (l : Level) : (s.lineDC l).rst = s.rst := rfl
@[simp] theorem lineDC_attached (l : Level) : (s.lineDC l).attached = s.attached := rfl
@[simp] theorem lineDC_phase (l : Level) : (s.lineDC l).phase = s.phase := rfl
@[simp] theorem lineDC_hung (l : Level) : (s.lineDC l).hung = s.hung := rfl
@[simp] theorem lineDC_hostIn (l : Level) : (s.lineDC l).hostIn = s.hostIn := rfl
@[simp] theorem lineDC_responses (l : Level) : (s.lineDC l).responses = s.responses := rfl
@[simp] theorem lineDC_trace (l : Level) : (s.lineDC l).trace = s.trace ++ [.dc l] := rfl
@[simp] theorem lineDC_env (l : Level) : (s.lineDC l).env = s.env := rfl
@[simp] theorem lineDC_resetIn (l : Level) : (s.lineDC l).resetIn = s.resetIn := rfl
@[simp] theorem lineDC_launches (l : Level) : (s.lineDC l).launches = s.launches := rfl

/-! ### lineRST -/

@[simp] theorem lineRST_cfg (l : Level) : (s.lineRST l).cfg = s.cfg := rfl
@[simp] theorem lineRST_mode (l : Level) : (s.lineRST l).mode = s.mode := rfl
@[simp] theorem lineRST_ccolV (l : Level) : (s.lineRST l).ccolV = s.ccolV := rfl
@[simp] theorem lineRST_ccolX1 (l : Level) : (s.lineRST l).ccolX1 = s.ccolX1 := rfl
@[simp] theorem lineRST_ccolX2 (l : Level) : (s.lineRST l).ccolX2 = s.ccolX2 := rfl
@[simp] theorem lineRST_crowV (l : Level) : (s.lineRST l).crowV = s.crowV := rfl
@[simp] theorem lineRST_crowY1 (l : Level) : (s.lineRST l).crowY1 = s.crowY1 := rfl
@[simp] theorem lineRST_crowY2 (l : Level) : (s.lineRST l).crowY2 = s.crowY2 := rfl
@[simp] theorem lineRST_pwinV (l : Level) : (s.lineRST l).pwinV = s.pwinV := rfl
@[simp] theorem lineRST_pwinX (l : Level) : (s.lineRST l).pwinX = s.pwinX := rfl
@[simp] theorem lineRST_pwinY (l : Level) : (s.lineRST l).pwinY = s.pwinY := rfl
@[simp] theorem lineRST_pwinW (l : Level) : (s.lineRST l).pwinW = s.pwinW := rfl
@[simp] theorem lineRST_pwinH (l : Level) : (s.lineRST l).pwinH = s.pwinH := rfl
@[simp] theorem lineRST_nextRow (l : Level) : (s.lineRST l).nextRow = s.nextRow := rfl
@[simp] theorem lineRST_fb (l : Level) : (s.lineRST l).fb = s.fb := rfl
@[simp] theorem lineRST_fbCreated (l : Level) : (s.lineRST l).fbCreated = s.fbCreated := rfl
@[simp] theorem lineRST_dc (l : Level) : (s.lineRST l).dc = s.dc := rfl
@[simp] theorem lineRST_rst (l : Level) : (s.lineRST l).rst = l := rfl
@[simp] theorem lineRST_attached (l : Level) : (s.lineRST l).attached = s.attached := rfl
@[simp] theorem lineRST_phase (l : Level) : (s.lineRST l).phase = s.phase := rfl
@[simp] theorem lineRST_hung (l : Level) : (s.lineRST l).hung = s.hung := rfl
@[simp] theorem lineRST_hostIn (l : Level) : (s.lineRST l).hostIn = s.hostIn := rfl
@[simp] theorem lineRST_responses (l : Level) : (s.lineRST l).responses = s.responses := rfl
@[simp] theorem lineRST_trace (l : Level) : (s.lineRST l).trace = s.trace ++ [.rst l] := rfl
@[simp] theorem lineRST_env (l : Level) : (s.lineRST l).env = s.env := rfl
@[simp] theorem lineRST_resetIn (l : Level) : (s.lineRST l).resetIn = s.resetIn := rfl
@[simp] theorem lineRST_launches (l : Level) : (s.lineRST l).launches = s.launches := rfl

/-! ### respond -/

@[simp] theorem respond_cfg (st : Status) (v : Word) (d : List Byte) :
    (s.respond st v d).cfg = s.cfg := rfl
@[simp] theorem respond_mode (st : Status) (v : Word) (d : List Byte) :
    (s.respond st v d).mode = s.mode := rfl
@[simp] theorem respond_ccolV (st : Status) (v : Word) (d : List Byte) :
    (s.respond st v d).ccolV = s.ccolV := rfl
@[simp] theorem respond_ccolX1 (st : Status) (v : Word) (d : List Byte) :
    (s.respond st v d).ccolX1 = s.ccolX1 := rfl
@[simp] theorem respond_ccolX2 (st : Status) (v : Word) (d : List Byte) :
    (s.respond st v d).ccolX2 = s.ccolX2 := rfl
@[simp] theorem respond_crowV (st : Status) (v : Word) (d : List Byte) :
    (s.respond st v d).crowV = s.crowV := rfl
@[simp] theorem respond_crowY1 (st : Status) (v : Word) (d : List Byte) :
    (s.respond st v d).crowY1 = s.crowY1 := rfl
@[simp] theorem respond_crowY2 (st : Status) (v : Word) (d : List Byte) :
    (s.respond st v d).crowY2 = s.crowY2 := rfl
@[simp] theorem respond_pwinV (st : Status) (v : Word) (d : List Byte) :
    (s.respond st v d).pwinV = s.pwinV := rfl
@[simp] theorem respond_pwinX (st : Status) (v : Word) (d : List Byte) :
    (s.respond st v d).pwinX = s.pwinX := rfl
@[simp] theorem respond_pwinY (st : Status) (v : Word) (d : List Byte) :
    (s.respond st v d).pwinY = s.pwinY := rfl
@[simp] theorem respond_pwinW (st : Status) (v : Word) (d : List Byte) :
    (s.respond st v d).pwinW = s.pwinW := rfl
@[simp] theorem respond_pwinH (st : Status) (v : Word) (d : List Byte) :
    (s.respond st v d).pwinH = s.pwinH := rfl
@[simp] theorem respond_nextRow (st : Status) (v : Word) (d : List Byte) :
    (s.respond st v d).nextRow = s.nextRow := rfl
@[simp] theorem respond_fb (st : Status) (v : Word) (d : List Byte) :
    (s.respond st v d).fb = s.fb := rfl
@[simp] theorem respond_fbCreated (st : Status) (v : Word) (d : List Byte) :
    (s.respond st v d).fbCreated = s.fbCreated := rfl
@[simp] theorem respond_dc (st : Status) (v : Word) (d : List Byte) :
    (s.respond st v d).dc = s.dc := rfl
@[simp] theorem respond_rst (st : Status) (v : Word) (d : List Byte) :
    (s.respond st v d).rst = s.rst := rfl
@[simp] theorem respond_attached (st : Status) (v : Word) (d : List Byte) :
    (s.respond st v d).attached = s.attached := rfl
@[simp] theorem respond_phase (st : Status) (v : Word) (d : List Byte) :
    (s.respond st v d).phase = s.phase := rfl
@[simp] theorem respond_hung (st : Status) (v : Word) (d : List Byte) :
    (s.respond st v d).hung = s.hung := rfl
@[simp] theorem respond_hostIn (st : Status) (v : Word) (d : List Byte) :
    (s.respond st v d).hostIn = s.hostIn := rfl
@[simp] theorem respond_responses (st : Status) (v : Word) (d : List Byte) :
    (s.respond st v d).responses = s.responses ++ [⟨st, v, d⟩] := rfl
@[simp] theorem respond_trace (st : Status) (v : Word) (d : List Byte) :
    (s.respond st v d).trace = s.trace := rfl
@[simp] theorem respond_env (st : Status) (v : Word) (d : List Byte) :
    (s.respond st v d).env = s.env := rfl
@[simp] theorem respond_resetIn (st : Status) (v : Word) (d : List Byte) :
    (s.respond st v d).resetIn = s.resetIn := rfl
@[simp] theorem respond_launches (st : Status) (v : Word) (d : List Byte) :
    (s.respond st v d).launches = s.launches := rfl

/-! ### popAnswer -/

@[simp] theorem popAnswer_cfg : (s.popAnswer).cfg = s.cfg := rfl
@[simp] theorem popAnswer_mode : (s.popAnswer).mode = s.mode := rfl
@[simp] theorem popAnswer_ccolV : (s.popAnswer).ccolV = s.ccolV := rfl
@[simp] theorem popAnswer_ccolX1 : (s.popAnswer).ccolX1 = s.ccolX1 := rfl
@[simp] theorem popAnswer_ccolX2 : (s.popAnswer).ccolX2 = s.ccolX2 := rfl
@[simp] theorem popAnswer_crowV : (s.popAnswer).crowV = s.crowV := rfl
@[simp] theorem popAnswer_crowY1 : (s.popAnswer).crowY1 = s.crowY1 := rfl
@[simp] theorem popAnswer_crowY2 : (s.popAnswer).crowY2 = s.crowY2 := rfl
@[simp] theorem popAnswer_pwinV : (s.popAnswer).pwinV = s.pwinV := rfl
@[simp] theorem popAnswer_pwinX : (s.popAnswer).pwinX = s.pwinX := rfl
@[simp] theorem popAnswer_pwinY : (s.popAnswer).pwinY = s.pwinY := rfl
@[simp] theorem popAnswer_pwinW : (s.popAnswer).pwinW = s.pwinW := rfl
@[simp] theorem popAnswer_pwinH : (s.popAnswer).pwinH = s.pwinH := rfl
@[simp] theorem popAnswer_nextRow : (s.popAnswer).nextRow = s.nextRow := rfl
@[simp] theorem popAnswer_fb : (s.popAnswer).fb = s.fb := rfl
@[simp] theorem popAnswer_fbCreated : (s.popAnswer).fbCreated = s.fbCreated := rfl
@[simp] theorem popAnswer_dc : (s.popAnswer).dc = s.dc := rfl
@[simp] theorem popAnswer_rst : (s.popAnswer).rst = s.rst := rfl
@[simp] theorem popAnswer_attached : (s.popAnswer).attached = s.attached := rfl
@[simp] theorem popAnswer_phase : (s.popAnswer).phase = s.phase := rfl
@[simp] theorem popAnswer_hung : (s.popAnswer).hung = s.hung := rfl
@[simp] theorem popAnswer_hostIn : (s.popAnswer).hostIn = s.hostIn := rfl
@[simp] theorem popAnswer_responses : (s.popAnswer).responses = s.responses := rfl
@[simp] theorem popAnswer_trace : (s.popAnswer).trace = s.trace := rfl
@[simp] theorem popAnswer_env :
    (s.popAnswer).env = ⟨s.env.busIn.tail, s.env.busUsed + 1, s.env.allocIn, s.env.allocUsed, s.env.drawIn,
      s.env.drawUsed⟩ := rfl
@[simp] theorem popAnswer_resetIn : (s.popAnswer).resetIn = s.resetIn := rfl
@[simp] theorem popAnswer_launches : (s.popAnswer).launches = s.launches := rfl

/-! ### popAlloc -/

@[simp] theorem popAlloc_cfg : (s.popAlloc).cfg = s.cfg := rfl
@[simp] theorem popAlloc_mode : (s.popAlloc).mode = s.mode := rfl
@[simp] theorem popAlloc_ccolV : (s.popAlloc).ccolV = s.ccolV := rfl
@[simp] theorem popAlloc_ccolX1 : (s.popAlloc).ccolX1 = s.ccolX1 := rfl
@[simp] theorem popAlloc_ccolX2 : (s.popAlloc).ccolX2 = s.ccolX2 := rfl
@[simp] theorem popAlloc_crowV : (s.popAlloc).crowV = s.crowV := rfl
@[simp] theorem popAlloc_crowY1 : (s.popAlloc).crowY1 = s.crowY1 := rfl
@[simp] theorem popAlloc_crowY2 : (s.popAlloc).crowY2 = s.crowY2 := rfl
@[simp] theorem popAlloc_pwinV : (s.popAlloc).pwinV = s.pwinV := rfl
@[simp] theorem popAlloc_pwinX : (s.popAlloc).pwinX = s.pwinX := rfl
@[simp] theorem popAlloc_pwinY : (s.popAlloc).pwinY = s.pwinY := rfl
@[simp] theorem popAlloc_pwinW : (s.popAlloc).pwinW = s.pwinW := rfl
@[simp] theorem popAlloc_pwinH : (s.popAlloc).pwinH = s.pwinH := rfl
@[simp] theorem popAlloc_nextRow : (s.popAlloc).nextRow = s.nextRow := rfl
@[simp] theorem popAlloc_fb : (s.popAlloc).fb = s.fb := rfl
@[simp] theorem popAlloc_fbCreated : (s.popAlloc).fbCreated = s.fbCreated := rfl
@[simp] theorem popAlloc_dc : (s.popAlloc).dc = s.dc := rfl
@[simp] theorem popAlloc_rst : (s.popAlloc).rst = s.rst := rfl
@[simp] theorem popAlloc_attached : (s.popAlloc).attached = s.attached := rfl
@[simp] theorem popAlloc_phase : (s.popAlloc).phase = s.phase := rfl
@[simp] theorem popAlloc_hung : (s.popAlloc).hung = s.hung := rfl
@[simp] theorem popAlloc_hostIn : (s.popAlloc).hostIn = s.hostIn := rfl
@[simp] theorem popAlloc_responses : (s.popAlloc).responses = s.responses := rfl
@[simp] theorem popAlloc_trace : (s.popAlloc).trace = s.trace := rfl
@[simp] theorem popAlloc_env :
    (s.popAlloc).env = ⟨s.env.busIn, s.env.busUsed, s.env.allocIn.tail, s.env.allocUsed + 1, s.env.drawIn,
      s.env.drawUsed⟩ := rfl
@[simp] theorem popAlloc_resetIn : (s.popAlloc).resetIn = s.resetIn := rfl
@[simp] theorem popAlloc_launches : (s.popAlloc).launches = s.launches := rfl

/-! ### popDraw -/

@[simp] theorem popDraw_cfg : (s.popDraw).cfg = s.cfg := rfl
@[simp] theorem popDraw_mode : (s.popDraw).mode = s.mode := rfl
@[simp] theorem popDraw_ccolV : (s.popDraw).ccolV = s.ccolV := rfl
@[simp] theorem popDraw_ccolX1 : (s.popDraw).ccolX1 = s.ccolX1 := rfl
@[simp] theorem popDraw_ccolX2 : (s.popDraw).ccolX2 = s.ccolX2 := rfl
@[simp] theorem popDraw_crowV : (s.popDraw).crowV = s.crowV := rfl
@[simp] theorem popDraw_crowY1 : (s.popDraw).crowY1 = s.crowY1 := rfl
@[simp] theorem popDraw_crowY2 : (s.popDraw).crowY2 = s.crowY2 := rfl
@[simp] theorem popDraw_pwinV : (s.popDraw).pwinV = s.pwinV := rfl
@[simp] theorem popDraw_pwinX : (s.popDraw).pwinX = s.pwinX := rfl
@[simp] theorem popDraw_pwinY : (s.popDraw).pwinY = s.pwinY := rfl
@[simp] theorem popDraw_pwinW : (s.popDraw).pwinW = s.pwinW := rfl
@[simp] theorem popDraw_pwinH : (s.popDraw).pwinH = s.pwinH := rfl
@[simp] theorem popDraw_nextRow : (s.popDraw).nextRow = s.nextRow := rfl
@[simp] theorem popDraw_fb : (s.popDraw).fb = s.fb := rfl
@[simp] theorem popDraw_fbCreated : (s.popDraw).fbCreated = s.fbCreated := rfl
@[simp] theorem popDraw_dc : (s.popDraw).dc = s.dc := rfl
@[simp] theorem popDraw_rst : (s.popDraw).rst = s.rst := rfl
@[simp] theorem popDraw_attached : (s.popDraw).attached = s.attached := rfl
@[simp] theorem popDraw_phase : (s.popDraw).phase = s.phase := rfl
@[simp] theorem popDraw_hung : (s.popDraw).hung = s.hung := rfl
@[simp] theorem popDraw_hostIn : (s.popDraw).hostIn = s.hostIn := rfl
@[simp] theorem popDraw_responses : (s.popDraw).responses = s.responses := rfl
@[simp] theorem popDraw_trace : (s.popDraw).trace = s.trace := rfl
@[simp] theorem popDraw_env :
    (s.popDraw).env = ⟨s.env.busIn, s.env.busUsed, s.env.allocIn, s.env.allocUsed, s.env.drawIn.tail,
      s.env.drawUsed + 1⟩ := rfl
@[simp] theorem popDraw_resetIn : (s.popDraw).resetIn = s.resetIn := rfl
@[simp] theorem popDraw_launches : (s.popDraw).launches = s.launches := rfl

/-! ### dropCol -/

@[simp] theorem dropCol_cfg : (s.dropCol).cfg = s.cfg := rfl
@[simp] theorem dropCol_mode : (s.dropCol).mode = s.mode := rfl
@[simp] theorem dropCol_ccolV : (s.dropCol).ccolV = false := rfl
@[simp] theorem dropCol_ccolX1 : (s.dropCol).ccolX1 = s.ccolX1 := rfl
@[simp] theorem dropCol_ccolX2 : (s.dropCol).ccolX2 = s.ccolX2 := rfl
@[simp] theorem dropCol_crowV : (s.dropCol).crowV = s.crowV := rfl
@[simp] theorem dropCol_crowY1 : (s.dropCol).crowY1 = s.crowY1 := rfl
@[simp] theorem dropCol_crowY2 : (s.dropCol).crowY2 = s.crowY2 := rfl
@[simp] theorem dropCol_pwinV : (s.dropCol).pwinV = s.pwinV := rfl
@[simp] theorem dropCol_pwinX : (s.dropCol).pwinX = s.pwinX := rfl
@[simp] theorem dropCol_pwinY : (s.dropCol).pwinY = s.pwinY := rfl
@[simp] theorem dropCol_pwinW : (s.dropCol).pwinW = s.pwinW := rfl
@[simp] theorem dropCol_pwinH : (s.dropCol).pwinH = s.pwinH := rfl
@[simp] theorem dropCol_nextRow : (s.dropCol).nextRow = s.nextRow := rfl
@[simp] theorem dropCol_fb : (s.dropCol).fb = s.fb := rfl
@[simp] theorem dropCol_fbCreated : (s.dropCol).fbCreated = s.fbCreated := rfl
@[simp] theorem dropCol_dc : (s.dropCol).dc = s.dc := rfl
@[simp] theorem dropCol_rst : (s.dropCol).rst = s.rst := rfl
@[simp] theorem dropCol_attached : (s.dropCol).attached = s.attached := rfl
@[simp] theorem dropCol_phase : (s.dropCol).phase = s.phase := rfl
@[simp] theorem dropCol_hung : (s.dropCol).hung = s.hung := rfl
@[simp] theorem dropCol_hostIn : (s.dropCol).hostIn = s.hostIn := rfl
@[simp] theorem dropCol_responses : (s.dropCol).responses = s.responses := rfl
@[simp] theorem dropCol_trace : (s.dropCol).trace = s.trace := rfl
@[simp] theorem dropCol_env : (s.dropCol).env = s.env := rfl
@[simp] theorem dropCol_resetIn : (s.dropCol).resetIn = s.resetIn := rfl
@[simp] theorem dropCol_launches : (s.dropCol).launches = s.launches := rfl

/-! ### dropRow -/

@[simp] theorem dropRow_cfg : (s.dropRow).cfg = s.cfg := rfl
@[simp] theorem dropRow_mode : (s.dropRow).mode = s.mode := rfl
@[simp] theorem dropRow_ccolV : (s.dropRow).ccolV = s.ccolV := rfl
@[simp] theorem dropRow_ccolX1 : (s.dropRow).ccolX1 = s.ccolX1 := rfl
@[simp] theorem dropRow_ccolX2 : (s.dropRow).ccolX2 = s.ccolX2 := rfl
@[simp] theorem dropRow_crowV : (s.dropRow).crowV = false := rfl
@[simp] theorem dropRow_crowY1 : (s.dropRow).crowY1 = s.crowY1 := rfl
@[simp] theorem dropRow_crowY2 : (s.dropRow).crowY2 = s.crowY2 := rfl
@[simp] theorem dropRow_pwinV : (s.dropRow).pwinV = s.pwinV := rfl
@[simp] theorem dropRow_pwinX : (s.dropRow).pwinX = s.pwinX := rfl
@[simp] theorem dropRow_pwinY : (s.dropRow).pwinY = s.pwinY := rfl
@[simp] theorem dropRow_pwinW : (s.dropRow).pwinW = s.pwinW := rfl
@[simp] theorem dropRow_pwinH : (s.dropRow).pwinH = s.pwinH := rfl
@[simp] theorem dropRow_nextRow : (s.dropRow).nextRow = s.nextRow := rfl
@[simp] theorem dropRow_fb : (s.dropRow).fb = s.fb := rfl
@[simp] theorem dropRow_fbCreated : (s.dropRow).fbCreated = s.fbCreated := rfl
@[simp] theorem dropRow_dc : (s.dropRow).dc = s.dc := rfl
@[simp] theorem dropRow_rst : (s.dropRow).rst = s.rst := rfl
@[simp] theorem dropRow_attached : (s.dropRow).attached = s.attached := rfl
@[simp] theorem dropRow_phase : (s.dropRow).phase = s.phase := rfl
@[simp] theorem dropRow_hung : (s.dropRow).hung = s.hung := rfl
@[simp] theorem dropRow_hostIn : (s.dropRow).hostIn = s.hostIn := rfl
@[simp] theorem dropRow_responses : (s.dropRow).responses = s.responses := rfl
@[simp] theorem dropRow_trace : (s.dropRow).trace = s.trace := rfl
@[simp] theorem dropRow_env : (s.dropRow).env = s.env := rfl
@[simp] theorem dropRow_resetIn : (s.dropRow).resetIn = s.resetIn := rfl
@[simp] theorem dropRow_launches : (s.dropRow).launches = s.launches := rfl

/-! ### fillCol -/

@[simp] theorem fillCol_cfg (a b : Half) : (s.fillCol a b).cfg = s.cfg := rfl
@[simp] theorem fillCol_mode (a b : Half) : (s.fillCol a b).mode = s.mode := rfl
@[simp] theorem fillCol_ccolV (a b : Half) : (s.fillCol a b).ccolV = true := rfl
@[simp] theorem fillCol_ccolX1 (a b : Half) : (s.fillCol a b).ccolX1 = a := rfl
@[simp] theorem fillCol_ccolX2 (a b : Half) : (s.fillCol a b).ccolX2 = b := rfl
@[simp] theorem fillCol_crowV (a b : Half) : (s.fillCol a b).crowV = s.crowV := rfl
@[simp] theorem fillCol_crowY1 (a b : Half) : (s.fillCol a b).crowY1 = s.crowY1 := rfl
@[simp] theorem fillCol_crowY2 (a b : Half) : (s.fillCol a b).crowY2 = s.crowY2 := rfl
@[simp] theorem fillCol_pwinV (a b : Half) : (s.fillCol a b).pwinV = s.pwinV := rfl
@[simp] theorem fillCol_pwinX (a b : Half) : (s.fillCol a b).pwinX = s.pwinX := rfl
@[simp] theorem fillCol_pwinY (a b : Half) : (s.fillCol a b).pwinY = s.pwinY := rfl
@[simp] theorem fillCol_pwinW (a b : Half) : (s.fillCol a b).pwinW = s.pwinW := rfl
@[simp] theorem fillCol_pwinH (a b : Half) : (s.fillCol a b).pwinH = s.pwinH := rfl
@[simp] theorem fillCol_nextRow (a b : Half) : (s.fillCol a b).nextRow = s.nextRow := rfl
@[simp] theorem fillCol_fb (a b : Half) : (s.fillCol a b).fb = s.fb := rfl
@[simp] theorem fillCol_fbCreated (a b : Half) : (s.fillCol a b).fbCreated = s.fbCreated := rfl
@[simp] theorem fillCol_dc (a b : Half) : (s.fillCol a b).dc = s.dc := rfl
@[simp] theorem fillCol_rst (a b : Half) : (s.fillCol a b).rst = s.rst := rfl
@[simp] theorem fillCol_attached (a b : Half) : (s.fillCol a b).attached = s.attached := rfl
@[simp] theorem fillCol_phase (a b : Half) : (s.fillCol a b).phase = s.phase := rfl
@[simp] theorem fillCol_hung (a b : Half) : (s.fillCol a b).hung = s.hung := rfl
@[simp] theorem fillCol_hostIn (a b : Half) : (s.fillCol a b).hostIn = s.hostIn := rfl
@[simp] theorem fillCol_responses (a b : Half) : (s.fillCol a b).responses = s.responses := rfl
@[simp] theorem fillCol_trace (a b : Half) : (s.fillCol a b).trace = s.trace := rfl
@[simp] theorem fillCol_env (a b : Half) : (s.fillCol a b).env = s.env := rfl
@[simp] theorem fillCol_resetIn (a b : Half) : (s.fillCol a b).resetIn = s.resetIn := rfl
@[simp] theorem fillCol_launches (a b : Half) : (s.fillCol a b).launches = s.launches := rfl

/-! ### fillRow -/

@[simp] theorem fillRow_cfg (a b : Half) : (s.fillRow a b).cfg = s.cfg := rfl
@[simp] theorem fillRow_mode (a b : Half) : (s.fillRow a b).mode = s.mode := rfl
@[simp] theorem fillRow_ccolV (a b : Half) : (s.fillRow a b).ccolV = s.ccolV := rfl
@[simp] theorem fillRow_ccolX1 (a b : Half) : (s.fillRow a b).ccolX1 = s.ccolX1 := rfl
@[simp] theorem fillRow_ccolX2 (a b : Half) : (s.fillRow a b).ccolX2 = s.ccolX2 := rfl
@[simp] theorem fillRow_crowV (a b : Half) : (s.fillRow a b).crowV = true := rfl
@[simp] theorem fillRow_crowY1 (a b : Half) : (s.fillRow a b).crowY1 = a := rfl
@[simp] theorem fillRow_crowY2 (a b : Half) : (s.fillRow a b).crowY2 = b := rfl
@[simp] theorem fillRow_pwinV (a b : Half) : (s.fillRow a b).pwinV = s.pwinV := rfl
@[simp] theorem fillRow_pwinX (a b : Half) : (s.fillRow a b).pwinX = s.pwinX := rfl
@[simp] theorem fillRow_pwinY (a b : Half) : (s.fillRow a b).pwinY = s.pwinY := rfl
@[simp] theorem fillRow_pwinW (a b : Half) : (s.fillRow a b).pwinW = s.pwinW := rfl
@[simp] theorem fillRow_pwinH (a b : Half) : (s.fillRow a b).pwinH = s.pwinH := rfl
@[simp] theorem fillRow_nextRow (a b : Half) : (s.fillRow a b).nextRow = s.nextRow := rfl
@[simp] theorem fillRow_fb (a b : Half) : (s.fillRow a b).fb = s.fb := rfl
@[simp] theorem fillRow_fbCreated (a b : Half) : (s.fillRow a b).fbCreated = s.fbCreated := rfl
@[simp] theorem fillRow_dc (a b : Half) : (s.fillRow a b).dc = s.dc := rfl
@[simp] theorem fillRow_rst (a b : Half) : (s.fillRow a b).rst = s.rst := rfl
@[simp] theorem fillRow_attached (a b : Half) : (s.fillRow a b).attached = s.attached := rfl
@[simp] theorem fillRow_phase (a b : Half) : (s.fillRow a b).phase = s.phase := rfl
@[simp] theorem fillRow_hung (a b : Half) : (s.fillRow a b).hung = s.hung := rfl
@[simp] theorem fillRow_hostIn (a b : Half) : (s.fillRow a b).hostIn = s.hostIn := rfl
@[simp] theorem fillRow_responses (a b : Half) : (s.fillRow a b).responses = s.responses := rfl
@[simp] theorem fillRow_trace (a b : Half) : (s.fillRow a b).trace = s.trace := rfl
@[simp] theorem fillRow_env (a b : Half) : (s.fillRow a b).env = s.env := rfl
@[simp] theorem fillRow_resetIn (a b : Half) : (s.fillRow a b).resetIn = s.resetIn := rfl
@[simp] theorem fillRow_launches (a b : Half) : (s.fillRow a b).launches = s.launches := rfl

/-! ### openWindow -/

@[simp] theorem openWindow_cfg (x y w h : Word) : (s.openWindow x y w h).cfg = s.cfg := rfl
@[simp] theorem openWindow_mode (x y w h : Word) : (s.openWindow x y w h).mode = s.mode := rfl
@[simp] theorem openWindow_ccolV (x y w h : Word) : (s.openWindow x y w h).ccolV = s.ccolV := rfl
@[simp] theorem openWindow_ccolX1 (x y w h : Word) : (s.openWindow x y w h).ccolX1 = s.ccolX1 := rfl
@[simp] theorem openWindow_ccolX2 (x y w h : Word) : (s.openWindow x y w h).ccolX2 = s.ccolX2 := rfl
@[simp] theorem openWindow_crowV (x y w h : Word) : (s.openWindow x y w h).crowV = s.crowV := rfl
@[simp] theorem openWindow_crowY1 (x y w h : Word) : (s.openWindow x y w h).crowY1 = s.crowY1 := rfl
@[simp] theorem openWindow_crowY2 (x y w h : Word) : (s.openWindow x y w h).crowY2 = s.crowY2 := rfl
@[simp] theorem openWindow_pwinV (x y w h : Word) : (s.openWindow x y w h).pwinV = true := rfl
@[simp] theorem openWindow_pwinX (x y w h : Word) : (s.openWindow x y w h).pwinX = x := rfl
@[simp] theorem openWindow_pwinY (x y w h : Word) : (s.openWindow x y w h).pwinY = y := rfl
@[simp] theorem openWindow_pwinW (x y w h : Word) : (s.openWindow x y w h).pwinW = w := rfl
@[simp] theorem openWindow_pwinH (x y w h : Word) : (s.openWindow x y w h).pwinH = h := rfl
@[simp] theorem openWindow_nextRow (x y w h : Word) : (s.openWindow x y w h).nextRow = 0 := rfl
@[simp] theorem openWindow_fb (x y w h : Word) : (s.openWindow x y w h).fb = s.fb := rfl
@[simp] theorem openWindow_fbCreated (x y w h : Word) :
    (s.openWindow x y w h).fbCreated = s.fbCreated := rfl
@[simp] theorem openWindow_dc (x y w h : Word) : (s.openWindow x y w h).dc = s.dc := rfl
@[simp] theorem openWindow_rst (x y w h : Word) : (s.openWindow x y w h).rst = s.rst := rfl
@[simp] theorem openWindow_attached (x y w h : Word) :
    (s.openWindow x y w h).attached = s.attached := rfl
@[simp] theorem openWindow_phase (x y w h : Word) : (s.openWindow x y w h).phase = s.phase := rfl
@[simp] theorem openWindow_hung (x y w h : Word) : (s.openWindow x y w h).hung = s.hung := rfl
@[simp] theorem openWindow_hostIn (x y w h : Word) : (s.openWindow x y w h).hostIn = s.hostIn := rfl
@[simp] theorem openWindow_responses (x y w h : Word) :
    (s.openWindow x y w h).responses = s.responses := rfl
@[simp] theorem openWindow_trace (x y w h : Word) : (s.openWindow x y w h).trace = s.trace := rfl
@[simp] theorem openWindow_env (x y w h : Word) : (s.openWindow x y w h).env = s.env := rfl
@[simp] theorem openWindow_resetIn (x y w h : Word) : (s.openWindow x y w h).resetIn = s.resetIn := rfl
@[simp] theorem openWindow_launches (x y w h : Word) :
    (s.openWindow x y w h).launches = s.launches := rfl

/-! ### closeWindow -/

@[simp] theorem closeWindow_cfg : (s.closeWindow).cfg = s.cfg := rfl
@[simp] theorem closeWindow_mode : (s.closeWindow).mode = s.mode := rfl
@[simp] theorem closeWindow_ccolV : (s.closeWindow).ccolV = s.ccolV := rfl
@[simp] theorem closeWindow_ccolX1 : (s.closeWindow).ccolX1 = s.ccolX1 := rfl
@[simp] theorem closeWindow_ccolX2 : (s.closeWindow).ccolX2 = s.ccolX2 := rfl
@[simp] theorem closeWindow_crowV : (s.closeWindow).crowV = s.crowV := rfl
@[simp] theorem closeWindow_crowY1 : (s.closeWindow).crowY1 = s.crowY1 := rfl
@[simp] theorem closeWindow_crowY2 : (s.closeWindow).crowY2 = s.crowY2 := rfl
@[simp] theorem closeWindow_pwinV : (s.closeWindow).pwinV = false := rfl
@[simp] theorem closeWindow_pwinX : (s.closeWindow).pwinX = s.pwinX := rfl
@[simp] theorem closeWindow_pwinY : (s.closeWindow).pwinY = s.pwinY := rfl
@[simp] theorem closeWindow_pwinW : (s.closeWindow).pwinW = s.pwinW := rfl
@[simp] theorem closeWindow_pwinH : (s.closeWindow).pwinH = s.pwinH := rfl
@[simp] theorem closeWindow_nextRow : (s.closeWindow).nextRow = -1 := rfl
@[simp] theorem closeWindow_fb : (s.closeWindow).fb = s.fb := rfl
@[simp] theorem closeWindow_fbCreated : (s.closeWindow).fbCreated = s.fbCreated := rfl
@[simp] theorem closeWindow_dc : (s.closeWindow).dc = s.dc := rfl
@[simp] theorem closeWindow_rst : (s.closeWindow).rst = s.rst := rfl
@[simp] theorem closeWindow_attached : (s.closeWindow).attached = s.attached := rfl
@[simp] theorem closeWindow_phase : (s.closeWindow).phase = s.phase := rfl
@[simp] theorem closeWindow_hung : (s.closeWindow).hung = s.hung := rfl
@[simp] theorem closeWindow_hostIn : (s.closeWindow).hostIn = s.hostIn := rfl
@[simp] theorem closeWindow_responses : (s.closeWindow).responses = s.responses := rfl
@[simp] theorem closeWindow_trace : (s.closeWindow).trace = s.trace := rfl
@[simp] theorem closeWindow_env : (s.closeWindow).env = s.env := rfl
@[simp] theorem closeWindow_resetIn : (s.closeWindow).resetIn = s.resetIn := rfl
@[simp] theorem closeWindow_launches : (s.closeWindow).launches = s.launches := rfl

/-! ### advanceRow -/

@[simp] theorem advanceRow_cfg : (s.advanceRow).cfg = s.cfg := rfl
@[simp] theorem advanceRow_mode : (s.advanceRow).mode = s.mode := rfl
@[simp] theorem advanceRow_ccolV : (s.advanceRow).ccolV = s.ccolV := rfl
@[simp] theorem advanceRow_ccolX1 : (s.advanceRow).ccolX1 = s.ccolX1 := rfl
@[simp] theorem advanceRow_ccolX2 : (s.advanceRow).ccolX2 = s.ccolX2 := rfl
@[simp] theorem advanceRow_crowV : (s.advanceRow).crowV = s.crowV := rfl
@[simp] theorem advanceRow_crowY1 : (s.advanceRow).crowY1 = s.crowY1 := rfl
@[simp] theorem advanceRow_crowY2 : (s.advanceRow).crowY2 = s.crowY2 := rfl
@[simp] theorem advanceRow_pwinV : (s.advanceRow).pwinV = s.pwinV := rfl
@[simp] theorem advanceRow_pwinX : (s.advanceRow).pwinX = s.pwinX := rfl
@[simp] theorem advanceRow_pwinY : (s.advanceRow).pwinY = s.pwinY := rfl
@[simp] theorem advanceRow_pwinW : (s.advanceRow).pwinW = s.pwinW := rfl
@[simp] theorem advanceRow_pwinH : (s.advanceRow).pwinH = s.pwinH := rfl
@[simp] theorem advanceRow_nextRow : (s.advanceRow).nextRow = s.nextRow + 1 := rfl
@[simp] theorem advanceRow_fb : (s.advanceRow).fb = s.fb := rfl
@[simp] theorem advanceRow_fbCreated : (s.advanceRow).fbCreated = s.fbCreated := rfl
@[simp] theorem advanceRow_dc : (s.advanceRow).dc = s.dc := rfl
@[simp] theorem advanceRow_rst : (s.advanceRow).rst = s.rst := rfl
@[simp] theorem advanceRow_attached : (s.advanceRow).attached = s.attached := rfl
@[simp] theorem advanceRow_phase : (s.advanceRow).phase = s.phase := rfl
@[simp] theorem advanceRow_hung : (s.advanceRow).hung = s.hung := rfl
@[simp] theorem advanceRow_hostIn : (s.advanceRow).hostIn = s.hostIn := rfl
@[simp] theorem advanceRow_responses : (s.advanceRow).responses = s.responses := rfl
@[simp] theorem advanceRow_trace : (s.advanceRow).trace = s.trace := rfl
@[simp] theorem advanceRow_env : (s.advanceRow).env = s.env := rfl
@[simp] theorem advanceRow_resetIn : (s.advanceRow).resetIn = s.resetIn := rfl
@[simp] theorem advanceRow_launches : (s.advanceRow).launches = s.launches := rfl

/-! ### createFb -/

@[simp] theorem createFb_cfg : (s.createFb).cfg = s.cfg := rfl
@[simp] theorem createFb_mode : (s.createFb).mode = s.mode := rfl
@[simp] theorem createFb_ccolV : (s.createFb).ccolV = s.ccolV := rfl
@[simp] theorem createFb_ccolX1 : (s.createFb).ccolX1 = s.ccolX1 := rfl
@[simp] theorem createFb_ccolX2 : (s.createFb).ccolX2 = s.ccolX2 := rfl
@[simp] theorem createFb_crowV : (s.createFb).crowV = s.crowV := rfl
@[simp] theorem createFb_crowY1 : (s.createFb).crowY1 = s.crowY1 := rfl
@[simp] theorem createFb_crowY2 : (s.createFb).crowY2 = s.crowY2 := rfl
@[simp] theorem createFb_pwinV : (s.createFb).pwinV = s.pwinV := rfl
@[simp] theorem createFb_pwinX : (s.createFb).pwinX = s.pwinX := rfl
@[simp] theorem createFb_pwinY : (s.createFb).pwinY = s.pwinY := rfl
@[simp] theorem createFb_pwinW : (s.createFb).pwinW = s.pwinW := rfl
@[simp] theorem createFb_pwinH : (s.createFb).pwinH = s.pwinH := rfl
@[simp] theorem createFb_nextRow : (s.createFb).nextRow = s.nextRow := rfl
@[simp] theorem createFb_fb : (s.createFb).fb = s.fb := rfl
@[simp] theorem createFb_fbCreated : (s.createFb).fbCreated = true := rfl
@[simp] theorem createFb_dc : (s.createFb).dc = s.dc := rfl
@[simp] theorem createFb_rst : (s.createFb).rst = s.rst := rfl
@[simp] theorem createFb_attached : (s.createFb).attached = s.attached := rfl
@[simp] theorem createFb_phase : (s.createFb).phase = s.phase := rfl
@[simp] theorem createFb_hung : (s.createFb).hung = s.hung := rfl
@[simp] theorem createFb_hostIn : (s.createFb).hostIn = s.hostIn := rfl
@[simp] theorem createFb_responses : (s.createFb).responses = s.responses := rfl
@[simp] theorem createFb_trace : (s.createFb).trace = s.trace := rfl
@[simp] theorem createFb_env : (s.createFb).env = s.env := rfl
@[simp] theorem createFb_resetIn : (s.createFb).resetIn = s.resetIn := rfl
@[simp] theorem createFb_launches : (s.createFb).launches = s.launches := rfl

/-! ### setMode -/

@[simp] theorem setMode_cfg (m : Mode) : (s.setMode m).cfg = s.cfg := rfl
@[simp] theorem setMode_mode (m : Mode) : (s.setMode m).mode = m := rfl
@[simp] theorem setMode_ccolV (m : Mode) : (s.setMode m).ccolV = s.ccolV := rfl
@[simp] theorem setMode_ccolX1 (m : Mode) : (s.setMode m).ccolX1 = s.ccolX1 := rfl
@[simp] theorem setMode_ccolX2 (m : Mode) : (s.setMode m).ccolX2 = s.ccolX2 := rfl
@[simp] theorem setMode_crowV (m : Mode) : (s.setMode m).crowV = s.crowV := rfl
@[simp] theorem setMode_crowY1 (m : Mode) : (s.setMode m).crowY1 = s.crowY1 := rfl
@[simp] theorem setMode_crowY2 (m : Mode) : (s.setMode m).crowY2 = s.crowY2 := rfl
@[simp] theorem setMode_pwinV (m : Mode) : (s.setMode m).pwinV = s.pwinV := rfl
@[simp] theorem setMode_pwinX (m : Mode) : (s.setMode m).pwinX = s.pwinX := rfl
@[simp] theorem setMode_pwinY (m : Mode) : (s.setMode m).pwinY = s.pwinY := rfl
@[simp] theorem setMode_pwinW (m : Mode) : (s.setMode m).pwinW = s.pwinW := rfl
@[simp] theorem setMode_pwinH (m : Mode) : (s.setMode m).pwinH = s.pwinH := rfl
@[simp] theorem setMode_nextRow (m : Mode) : (s.setMode m).nextRow = s.nextRow := rfl
@[simp] theorem setMode_fb (m : Mode) : (s.setMode m).fb = s.fb := rfl
@[simp] theorem setMode_fbCreated (m : Mode) : (s.setMode m).fbCreated = s.fbCreated := rfl
@[simp] theorem setMode_dc (m : Mode) : (s.setMode m).dc = s.dc := rfl
@[simp] theorem setMode_rst (m : Mode) : (s.setMode m).rst = s.rst := rfl
@[simp] theorem setMode_attached (m : Mode) : (s.setMode m).attached = s.attached := rfl
@[simp] theorem setMode_phase (m : Mode) : (s.setMode m).phase = s.phase := rfl
@[simp] theorem setMode_hung (m : Mode) : (s.setMode m).hung = s.hung := rfl
@[simp] theorem setMode_hostIn (m : Mode) : (s.setMode m).hostIn = s.hostIn := rfl
@[simp] theorem setMode_responses (m : Mode) : (s.setMode m).responses = s.responses := rfl
@[simp] theorem setMode_trace (m : Mode) : (s.setMode m).trace = s.trace := rfl
@[simp] theorem setMode_env (m : Mode) : (s.setMode m).env = s.env := rfl
@[simp] theorem setMode_resetIn (m : Mode) : (s.setMode m).resetIn = s.resetIn := rfl
@[simp] theorem setMode_launches (m : Mode) : (s.setMode m).launches = s.launches := rfl

/-! ### copyRow -/

@[simp] theorem copyRow_cfg (o : Nat) (p : List Byte) : (copyRow o p s).cfg = s.cfg := rfl
@[simp] theorem copyRow_mode (o : Nat) (p : List Byte) : (copyRow o p s).mode = s.mode := rfl
@[simp] theorem copyRow_ccolV (o : Nat) (p : List Byte) : (copyRow o p s).ccolV = s.ccolV := rfl
@[simp] theorem copyRow_ccolX1 (o : Nat) (p : List Byte) : (copyRow o p s).ccolX1 = s.ccolX1 := rfl
@[simp] theorem copyRow_ccolX2 (o : Nat) (p : List Byte) : (copyRow o p s).ccolX2 = s.ccolX2 := rfl
@[simp] theorem copyRow_crowV (o : Nat) (p : List Byte) : (copyRow o p s).crowV = s.crowV := rfl
@[simp] theorem copyRow_crowY1 (o : Nat) (p : List Byte) : (copyRow o p s).crowY1 = s.crowY1 := rfl
@[simp] theorem copyRow_crowY2 (o : Nat) (p : List Byte) : (copyRow o p s).crowY2 = s.crowY2 := rfl
@[simp] theorem copyRow_pwinV (o : Nat) (p : List Byte) : (copyRow o p s).pwinV = s.pwinV := rfl
@[simp] theorem copyRow_pwinX (o : Nat) (p : List Byte) : (copyRow o p s).pwinX = s.pwinX := rfl
@[simp] theorem copyRow_pwinY (o : Nat) (p : List Byte) : (copyRow o p s).pwinY = s.pwinY := rfl
@[simp] theorem copyRow_pwinW (o : Nat) (p : List Byte) : (copyRow o p s).pwinW = s.pwinW := rfl
@[simp] theorem copyRow_pwinH (o : Nat) (p : List Byte) : (copyRow o p s).pwinH = s.pwinH := rfl
@[simp] theorem copyRow_nextRow (o : Nat) (p : List Byte) : (copyRow o p s).nextRow = s.nextRow := rfl
@[simp] theorem copyRow_fb (o : Nat) (p : List Byte) :
    (copyRow o p s).fb = Memory.putBytes s.fb o p := rfl
@[simp] theorem copyRow_fbCreated (o : Nat) (p : List Byte) :
    (copyRow o p s).fbCreated = s.fbCreated := rfl
@[simp] theorem copyRow_dc (o : Nat) (p : List Byte) : (copyRow o p s).dc = s.dc := rfl
@[simp] theorem copyRow_rst (o : Nat) (p : List Byte) : (copyRow o p s).rst = s.rst := rfl
@[simp] theorem copyRow_attached (o : Nat) (p : List Byte) :
    (copyRow o p s).attached = s.attached := rfl
@[simp] theorem copyRow_phase (o : Nat) (p : List Byte) : (copyRow o p s).phase = s.phase := rfl
@[simp] theorem copyRow_hung (o : Nat) (p : List Byte) : (copyRow o p s).hung = s.hung := rfl
@[simp] theorem copyRow_hostIn (o : Nat) (p : List Byte) : (copyRow o p s).hostIn = s.hostIn := rfl
@[simp] theorem copyRow_responses (o : Nat) (p : List Byte) :
    (copyRow o p s).responses = s.responses := rfl
@[simp] theorem copyRow_trace (o : Nat) (p : List Byte) : (copyRow o p s).trace = s.trace := rfl
@[simp] theorem copyRow_env (o : Nat) (p : List Byte) : (copyRow o p s).env = s.env := rfl
@[simp] theorem copyRow_resetIn (o : Nat) (p : List Byte) : (copyRow o p s).resetIn = s.resetIn := rfl
@[simp] theorem copyRow_launches (o : Nat) (p : List Byte) :
    (copyRow o p s).launches = s.launches := rfl

/-! ### attach -/

@[simp] theorem attach_cfg : (s.attach).cfg = s.cfg := rfl
@[simp] theorem attach_mode : (s.attach).mode = s.mode := rfl
@[simp] theorem attach_ccolV : (s.attach).ccolV = s.ccolV := rfl
@[simp] theorem attach_ccolX1 : (s.attach).ccolX1 = s.ccolX1 := rfl
@[simp] theorem attach_ccolX2 : (s.attach).ccolX2 = s.ccolX2 := rfl
@[simp] theorem attach_crowV : (s.attach).crowV = s.crowV := rfl
@[simp] theorem attach_crowY1 : (s.attach).crowY1 = s.crowY1 := rfl
@[simp] theorem attach_crowY2 : (s.attach).crowY2 = s.crowY2 := rfl
@[simp] theorem attach_pwinV : (s.attach).pwinV = s.pwinV := rfl
@[simp] theorem attach_pwinX : (s.attach).pwinX = s.pwinX := rfl
@[simp] theorem attach_pwinY : (s.attach).pwinY = s.pwinY := rfl
@[simp] theorem attach_pwinW : (s.attach).pwinW = s.pwinW := rfl
@[simp] theorem attach_pwinH : (s.attach).pwinH = s.pwinH := rfl
@[simp] theorem attach_nextRow : (s.attach).nextRow = s.nextRow := rfl
@[simp] theorem attach_fb : (s.attach).fb = s.fb := rfl
@[simp] theorem attach_fbCreated : (s.attach).fbCreated = s.fbCreated := rfl
@[simp] theorem attach_dc : (s.attach).dc = s.dc := rfl
@[simp] theorem attach_rst : (s.attach).rst = s.rst := rfl
@[simp] theorem attach_attached : (s.attach).attached = true := rfl
@[simp] theorem attach_phase : (s.attach).phase = .done := rfl
@[simp] theorem attach_hung : (s.attach).hung = s.hung := rfl
@[simp] theorem attach_hostIn : (s.attach).hostIn = s.hostIn := rfl
@[simp] theorem attach_responses : (s.attach).responses = s.responses := rfl
@[simp] theorem attach_trace : (s.attach).trace = s.trace := rfl
@[simp] theorem attach_env : (s.attach).env = s.env := rfl
@[simp] theorem attach_resetIn : (s.attach).resetIn = s.resetIn := rfl
@[simp] theorem attach_launches : (s.attach).launches = s.launches := rfl

/-! ### popReset -/

@[simp] theorem popReset_cfg : (s.popReset).cfg = s.cfg := rfl
@[simp] theorem popReset_mode : (s.popReset).mode = s.mode := rfl
@[simp] theorem popReset_ccolV : (s.popReset).ccolV = s.ccolV := rfl
@[simp] theorem popReset_ccolX1 : (s.popReset).ccolX1 = s.ccolX1 := rfl
@[simp] theorem popReset_ccolX2 : (s.popReset).ccolX2 = s.ccolX2 := rfl
@[simp] theorem popReset_crowV : (s.popReset).crowV = s.crowV := rfl
@[simp] theorem popReset_crowY1 : (s.popReset).crowY1 = s.crowY1 := rfl
@[simp] theorem popReset_crowY2 : (s.popReset).crowY2 = s.crowY2 := rfl
@[simp] theorem popReset_pwinV : (s.popReset).pwinV = s.pwinV := rfl
@[simp] theorem popReset_pwinX : (s.popReset).pwinX = s.pwinX := rfl
@[simp] theorem popReset_pwinY : (s.popReset).pwinY = s.pwinY := rfl
@[simp] theorem popReset_pwinW : (s.popReset).pwinW = s.pwinW := rfl
@[simp] theorem popReset_pwinH : (s.popReset).pwinH = s.pwinH := rfl
@[simp] theorem popReset_nextRow : (s.popReset).nextRow = s.nextRow := rfl
@[simp] theorem popReset_fb : (s.popReset).fb = s.fb := rfl
@[simp] theorem popReset_fbCreated : (s.popReset).fbCreated = s.fbCreated := rfl
@[simp] theorem popReset_dc : (s.popReset).dc = s.dc := rfl
@[simp] theorem popReset_rst : (s.popReset).rst = s.rst := rfl
@[simp] theorem popReset_attached : (s.popReset).attached = s.attached := rfl
@[simp] theorem popReset_phase : (s.popReset).phase = s.phase := rfl
@[simp] theorem popReset_hung : (s.popReset).hung = s.hung := rfl
@[simp] theorem popReset_hostIn : (s.popReset).hostIn = s.hostIn := rfl
@[simp] theorem popReset_responses : (s.popReset).responses = s.responses := rfl
@[simp] theorem popReset_trace : (s.popReset).trace = s.trace := rfl
@[simp] theorem popReset_env : (s.popReset).env = s.env := rfl
@[simp] theorem popReset_resetIn : (s.popReset).resetIn = s.resetIn.tail := rfl
@[simp] theorem popReset_launches : (s.popReset).launches = s.launches := rfl

/-! ### restart -/

@[simp] theorem restart_cfg : (s.restart).cfg = s.cfg := rfl
@[simp] theorem restart_mode : (s.restart).mode = .idle := rfl
@[simp] theorem restart_ccolV : (s.restart).ccolV = false := rfl
@[simp] theorem restart_ccolX1 : (s.restart).ccolX1 = 0 := rfl
@[simp] theorem restart_ccolX2 : (s.restart).ccolX2 = 0 := rfl
@[simp] theorem restart_crowV : (s.restart).crowV = false := rfl
@[simp] theorem restart_crowY1 : (s.restart).crowY1 = 0 := rfl
@[simp] theorem restart_crowY2 : (s.restart).crowY2 = 0 := rfl
@[simp] theorem restart_pwinV : (s.restart).pwinV = false := rfl
@[simp] theorem restart_pwinX : (s.restart).pwinX = 0 := rfl
@[simp] theorem restart_pwinY : (s.restart).pwinY = 0 := rfl
@[simp] theorem restart_pwinW : (s.restart).pwinW = 0 := rfl
@[simp] theorem restart_pwinH : (s.restart).pwinH = 0 := rfl
@[simp] theorem restart_nextRow : (s.restart).nextRow = -1 := rfl
@[simp] theorem restart_fb : (s.restart).fb = [] := rfl
@[simp] theorem restart_fbCreated : (s.restart).fbCreated = false := rfl
@[simp] theorem restart_dc : (s.restart).dc = true := rfl
@[simp] theorem restart_rst :
    (s.restart).rst = (match s.cfg.rstScript with | [] => true | r :: _ => r.level) := rfl
@[simp] theorem restart_attached : (s.restart).attached = false := rfl
@[simp] theorem restart_phase : (s.restart).phase = .resetLine s.cfg.rstScript := rfl
@[simp] theorem restart_hung : (s.restart).hung = false := rfl
@[simp] theorem restart_hostIn : (s.restart).hostIn = s.hostIn := rfl
@[simp] theorem restart_responses : (s.restart).responses = s.responses := rfl
@[simp] theorem restart_trace : (s.restart).trace = [] := rfl
@[simp] theorem restart_env : (s.restart).env = s.env := rfl
@[simp] theorem restart_resetIn : (s.restart).resetIn = s.resetIn := rfl
@[simp] theorem restart_launches : (s.restart).launches = s.launches + 1 := rfl

/-! ### sent -/

@[simp] theorem sent_cfg (evs : List Event) (n : Nat) : (s.sent evs n).cfg = s.cfg := rfl
@[simp] theorem sent_mode (evs : List Event) (n : Nat) : (s.sent evs n).mode = s.mode := rfl
@[simp] theorem sent_ccolV (evs : List Event) (n : Nat) : (s.sent evs n).ccolV = s.ccolV := rfl
@[simp] theorem sent_ccolX1 (evs : List Event) (n : Nat) : (s.sent evs n).ccolX1 = s.ccolX1 := rfl
@[simp] theorem sent_ccolX2 (evs : List Event) (n : Nat) : (s.sent evs n).ccolX2 = s.ccolX2 := rfl
@[simp] theorem sent_crowV (evs : List Event) (n : Nat) : (s.sent evs n).crowV = s.crowV := rfl
@[simp] theorem sent_crowY1 (evs : List Event) (n : Nat) : (s.sent evs n).crowY1 = s.crowY1 := rfl
@[simp] theorem sent_crowY2 (evs : List Event) (n : Nat) : (s.sent evs n).crowY2 = s.crowY2 := rfl
@[simp] theorem sent_pwinV (evs : List Event) (n : Nat) : (s.sent evs n).pwinV = s.pwinV := rfl
@[simp] theorem sent_pwinX (evs : List Event) (n : Nat) : (s.sent evs n).pwinX = s.pwinX := rfl
@[simp] theorem sent_pwinY (evs : List Event) (n : Nat) : (s.sent evs n).pwinY = s.pwinY := rfl
@[simp] theorem sent_pwinW (evs : List Event) (n : Nat) : (s.sent evs n).pwinW = s.pwinW := rfl
@[simp] theorem sent_pwinH (evs : List Event) (n : Nat) : (s.sent evs n).pwinH = s.pwinH := rfl
@[simp] theorem sent_nextRow (evs : List Event) (n : Nat) : (s.sent evs n).nextRow = s.nextRow := rfl
@[simp] theorem sent_fb (evs : List Event) (n : Nat) : (s.sent evs n).fb = s.fb := rfl
@[simp] theorem sent_fbCreated (evs : List Event) (n : Nat) :
    (s.sent evs n).fbCreated = s.fbCreated := rfl
@[simp] theorem sent_dc (evs : List Event) (n : Nat) : (s.sent evs n).dc = s.dc := rfl
@[simp] theorem sent_rst (evs : List Event) (n : Nat) : (s.sent evs n).rst = s.rst := rfl
@[simp] theorem sent_attached (evs : List Event) (n : Nat) : (s.sent evs n).attached = s.attached := rfl
@[simp] theorem sent_phase (evs : List Event) (n : Nat) : (s.sent evs n).phase = s.phase := rfl
@[simp] theorem sent_hung (evs : List Event) (n : Nat) : (s.sent evs n).hung = s.hung := rfl
@[simp] theorem sent_hostIn (evs : List Event) (n : Nat) : (s.sent evs n).hostIn = s.hostIn := rfl
@[simp] theorem sent_responses (evs : List Event) (n : Nat) :
    (s.sent evs n).responses = s.responses := rfl
@[simp] theorem sent_trace (evs : List Event) (n : Nat) : (s.sent evs n).trace = s.trace ++ evs := rfl
@[simp] theorem sent_env (evs : List Event) (n : Nat) :
    (s.sent evs n).env = ⟨s.env.busIn.drop n, s.env.busUsed + n, s.env.allocIn, s.env.allocUsed, s.env.drawIn,
      s.env.drawUsed⟩ := rfl
@[simp] theorem sent_resetIn (evs : List Event) (n : Nat) : (s.sent evs n).resetIn = s.resetIn := rfl
@[simp] theorem sent_launches (evs : List Event) (n : Nat) : (s.sent evs n).launches = s.launches := rfl

/-! ### Derived reads -/

@[simp] theorem emit_answer (e : Event) (k : Nat) : (s.emit e).answer k = s.answer k := rfl
@[simp] theorem emit_allocOk (e : Event) : (s.emit e).allocOk = s.allocOk := rfl
@[simp] theorem emit_nextDraw (e : Event) : (s.emit e).nextDraw = s.nextDraw := rfl
@[simp] theorem emit_fbByte (e : Event) (i : Nat) : (s.emit e).fbByte i = s.fbByte i := rfl
@[simp] theorem emit_fbRead (e : Event) (i k : Nat) : (s.emit e).fbRead i k = s.fbRead i k := rfl
@[simp] theorem emit_rowOffset (e : Event) : (s.emit e).rowOffset = s.rowOffset := rfl
@[simp] theorem emit_colHit (e : Event) (i j : Half) : (s.emit e).colHit i j = s.colHit i j := rfl
@[simp] theorem emit_rowHit (e : Event) (i j : Half) : (s.emit e).rowHit i j = s.rowHit i j := rfl
@[simp] theorem lineDC_answer (l : Level) (k : Nat) : (s.lineDC l).answer k = s.answer k := rfl
@[simp] theorem lineDC_allocOk (l : Level) : (s.lineDC l).allocOk = s.allocOk := rfl
@[simp] theorem lineDC_nextDraw (l : Level) : (s.lineDC l).nextDraw = s.nextDraw := rfl
@[simp] theorem lineDC_fbByte (l : Level) (i : Nat) : (s.lineDC l).fbByte i = s.fbByte i := rfl
@[simp] theorem lineDC_fbRead (l : Level) (i k : Nat) : (s.lineDC l).fbRead i k = s.fbRead i k := rfl
@[simp] theorem lineDC_rowOffset (l : Level) : (s.lineDC l).rowOffset = s.rowOffset := rfl
@[simp] theorem lineDC_colHit (l : Level) (i j : Half) : (s.lineDC l).colHit i j = s.colHit i j := rfl
@[simp] theorem lineDC_rowHit (l : Level) (i j : Half) : (s.lineDC l).rowHit i j = s.rowHit i j := rfl
@[simp] theorem lineRST_answer (l : Level) (k : Nat) : (s.lineRST l).answer k = s.answer k := rfl
@[simp] theorem lineRST_allocOk (l : Level) : (s.lineRST l).allocOk = s.allocOk := rfl
@[simp] theorem lineRST_nextDraw (l : Level) : (s.lineRST l).nextDraw = s.nextDraw := rfl
@[simp] theorem lineRST_fbByte (l : Level) (i : Nat) : (s.lineRST l).fbByte i = s.fbByte i := rfl
@[simp] theorem lineRST_fbRead (l : Level) (i k : Nat) : (s.lineRST l).fbRead i k = s.fbRead i k := rfl
@[simp] theorem lineRST_rowOffset (l : Level) : (s.lineRST l).rowOffset = s.rowOffset := rfl
@[simp] theorem lineRST_colHit (l : Level) (i j : Half) : (s.lineRST l).colHit i j = s.colHit i j := rfl
@[simp] theorem lineRST_rowHit (l : Level) (i j : Half) : (s.lineRST l).rowHit i j = s.rowHit i j := rfl
@[simp] theorem respond_answer (st : Status) (v : Word) (d : List Byte) (k : Nat) : (s.respond st v d).answer k = s.answer k := rfl
@[simp] theorem respond_allocOk (st : Status) (v : Word) (d : List Byte) : (s.respond st v d).allocOk = s.allocOk := rfl
@[simp] theorem respond_nextDraw (st : Status) (v : Word) (d : List Byte) : (s.respond st v d).nextDraw = s.nextDraw := rfl
@[simp] theorem respond_fbByte (st : Status) (v : Word) (d : List Byte) (i : Nat) : (s.respond st v d).fbByte i = s.fbByte i := rfl
@[simp] theorem respond_fbRead (st : Status) (v : Word) (d : List Byte) (i k : Nat) : (s.respond st v d).fbRead i k = s.fbRead i k := rfl
@[simp] theorem respond_rowOffset (st : Status) (v : Word) (d : List Byte) : (s.respond st v d).rowOffset = s.rowOffset := rfl
@[simp] theorem respond_colHit (st : Status) (v : Word) (d : List Byte) (i j : Half) : (s.respond st v d).colHit i j = s.colHit i j := rfl
@[simp] theorem respond_rowHit (st : Status) (v : Word) (d : List Byte) (i j : Half) : (s.respond st v d).rowHit i j = s.rowHit i j := rfl
@[simp] theorem popAnswer_allocOk : (s.popAnswer).allocOk = s.allocOk := rfl
@[simp] theorem popAnswer_nextDraw : (s.popAnswer).nextDraw = s.nextDraw := rfl
@[simp] theorem popAnswer_fbByte (i : Nat) : (s.popAnswer).fbByte i = s.fbByte i := rfl
@[simp] theorem popAnswer_fbRead (i k : Nat) : (s.popAnswer).fbRead i k = s.fbRead i k := rfl
@[simp] theorem popAnswer_rowOffset : (s.popAnswer).rowOffset = s.rowOffset := rfl
@[simp] theorem popAnswer_colHit (i j : Half) : (s.popAnswer).colHit i j = s.colHit i j := rfl
@[simp] theorem popAnswer_rowHit (i j : Half) : (s.popAnswer).rowHit i j = s.rowHit i j := rfl
@[simp] theorem popAlloc_answer (k : Nat) : (s.popAlloc).answer k = s.answer k := rfl
@[simp] theorem popAlloc_nextDraw : (s.popAlloc).nextDraw = s.nextDraw := rfl
@[simp] theorem popAlloc_fbByte (i : Nat) : (s.popAlloc).fbByte i = s.fbByte i := rfl
@[simp] theorem popAlloc_fbRead (i k : Nat) : (s.popAlloc).fbRead i k = s.fbRead i k := rfl
@[simp] theorem popAlloc_rowOffset : (s.popAlloc).rowOffset = s.rowOffset := rfl
@[simp] theorem popAlloc_colHit (i j : Half) : (s.popAlloc).colHit i j = s.colHit i j := rfl
@[simp] theorem popAlloc_rowHit (i j : Half) : (s.popAlloc).rowHit i j = s.rowHit i j := rfl
@[simp] theorem popDraw_answer (k : Nat) : (s.popDraw).answer k = s.answer k := rfl
@[simp] theorem popDraw_allocOk : (s.popDraw).allocOk = s.allocOk := rfl
@[simp] theorem popDraw_fbByte (i : Nat) : (s.popDraw).fbByte i = s.fbByte i := rfl
@[simp] theorem popDraw_fbRead (i k : Nat) : (s.popDraw).fbRead i k = s.fbRead i k := rfl
@[simp] theorem popDraw_rowOffset : (s.popDraw).rowOffset = s.rowOffset := rfl
@[simp] theorem popDraw_colHit (i j : Half) : (s.popDraw).colHit i j = s.colHit i j := rfl
@[simp] theorem popDraw_rowHit (i j : Half) : (s.popDraw).rowHit i j = s.rowHit i j := rfl
@[simp] theorem dropCol_answer (k : Nat) : (s.dropCol).answer k = s.answer k := rfl
@[simp] theorem dropCol_allocOk : (s.dropCol).allocOk = s.allocOk := rfl
@[simp] theorem dropCol_nextDraw : (s.dropCol).nextDraw = s.nextDraw := rfl
@[simp] theorem dropCol_fbByte (i : Nat) : (s.dropCol).fbByte i = s.fbByte i := rfl
@[simp] theorem dropCol_fbRead (i k : Nat) : (s.dropCol).fbRead i k = s.fbRead i k := rfl
@[simp] theorem dropCol_rowOffset : (s.dropCol).rowOffset = s.rowOffset := rfl
@[simp] theorem dropCol_rowHit (i j : Half) : (s.dropCol).rowHit i j = s.rowHit i j := rfl
@[simp] theorem dropRow_answer (k : Nat) : (s.dropRow).answer k = s.answer k := rfl
@[simp] theorem dropRow_allocOk : (s.dropRow).allocOk = s.allocOk := rfl
@[simp] theorem dropRow_nextDraw : (s.dropRow).nextDraw = s.nextDraw := rfl
@[simp] theorem dropRow_fbByte (i : Nat) : (s.dropRow).fbByte i = s.fbByte i := rfl
@[simp] theorem dropRow_fbRead (i k : Nat) : (s.dropRow).fbRead i k = s.fbRead i k := rfl
@[simp] theorem dropRow_rowOffset : (s.dropRow).rowOffset = s.rowOffset := rfl
@[simp] theorem dropRow_colHit (i j : Half) : (s.dropRow).colHit i j = s.colHit i j := rfl
@[simp] theorem fillCol_answer (a b : Half) (k : Nat) : (s.fillCol a b).answer k = s.answer k := rfl
@[simp] theorem fillCol_allocOk (a b : Half) : (s.fillCol a b).allocOk = s.allocOk := rfl
@[simp] theorem fillCol_nextDraw (a b : Half) : (s.fillCol a b).nextDraw = s.nextDraw := rfl
@[simp] theorem fillCol_fbByte (a b : Half) (i : Nat) : (s.fillCol a b).fbByte i = s.fbByte i := rfl
@[simp] theorem fillCol_fbRead (a b : Half) (i k : Nat) : (s.fillCol a b).fbRead i k = s.fbRead i k := rfl
@[simp] theorem fillCol_rowOffset (a b : Half) : (s.fillCol a b).rowOffset = s.rowOffset := rfl
@[simp] theorem fillCol_rowHit (a b : Half) (i j : Half) : (s.fillCol a b).rowHit i j = s.rowHit i j := rfl
@[simp] theorem fillRow_answer (a b : Half) (k : Nat) : (s.fillRow a b).answer k = s.answer k := rfl
@[simp] theorem fillRow_allocOk (a b : Half) : (s.fillRow a b).allocOk = s.allocOk := rfl
@[simp] theorem fillRow_nextDraw (a b : Half) : (s.fillRow a b).nextDraw = s.nextDraw := rfl
@[simp] theorem fillRow_fbByte (a b : Half) (i : Nat) : (s.fillRow a b).fbByte i = s.fbByte i := rfl
@[simp] theorem fillRow_fbRead (a b : Half) (i k : Nat) : (s.fillRow a b).fbRead i k = s.fbRead i k := rfl
@[simp] theorem fillRow_rowOffset (a b : Half) : (s.fillRow a b).rowOffset = s.rowOffset := rfl
@[simp] theorem fillRow_colHit (a b : Half) (i j : Half) : (s.fillRow a b).colHit i j = s.colHit i j := rfl
@[simp] theorem openWindow_answer (x y w h : Word) (k : Nat) : (s.openWindow x y w h).answer k = s.answer k := rfl
@[simp] theorem openWindow_allocOk (x y w h : Word) : (s.openWindow x y w h).allocOk = s.allocOk := rfl
@[simp] theorem openWindow_nextDraw (x y w h : Word) : (s.openWindow x y w h).nextDraw = s.nextDraw := rfl
@[simp] theorem openWindow_fbByte (x y w h : Word) (i : Nat) : (s.openWindow x y w h).fbByte i = s.fbByte i := rfl
@[simp] theorem openWindow_fbRead (x y w h : Word) (i k : Nat) : (s.openWindow x y w h).fbRead i k = s.fbRead i k := rfl
@[simp] theorem openWindow_colHit (x y w h : Word) (i j : Half) : (s.openWindow x y w h).colHit i j = s.colHit i j := rfl
@[simp] theorem openWindow_rowHit (x y w h : Word) (i j : Half) : (s.openWindow x y w h).rowHit i j = s.rowHit i j := rfl
@[simp] theorem closeWindow_answer (k : Nat) : (s.closeWindow).answer k = s.answer k := rfl
@[simp] theorem closeWindow_allocOk : (s.closeWindow).allocOk = s.allocOk := rfl
@[simp] theorem closeWindow_nextDraw : (s.closeWindow).nextDraw = s.nextDraw := rfl
@[simp] theorem closeWindow_fbByte (i : Nat) : (s.closeWindow).fbByte i = s.fbByte i := rfl
@[simp] theorem closeWindow_fbRead (i k : Nat) : (s.closeWindow).fbRead i k = s.fbRead i k := rfl
@[simp] theorem closeWindow_colHit (i j : Half) : (s.closeWindow).colHit i j = s.colHit i j := rfl
@[simp] theorem closeWindow_rowHit (i j : Half) : (s.closeWindow).rowHit i j = s.rowHit i j := rfl
@[simp] theorem advanceRow_answer (k : Nat) : (s.advanceRow).answer k = s.answer k := rfl
@[simp] theorem advanceRow_allocOk : (s.advanceRow).allocOk = s.allocOk := rfl
@[simp] theorem advanceRow_nextDraw : (s.advanceRow).nextDraw = s.nextDraw := rfl
@[simp] theorem advanceRow_fbByte (i : Nat) : (s.advanceRow).fbByte i = s.fbByte i := rfl
@[simp] theorem advanceRow_fbRead (i k : Nat) : (s.advanceRow).fbRead i k = s.fbRead i k := rfl
@[simp] theorem advanceRow_colHit (i j : Half) : (s.advanceRow).colHit i j = s.colHit i j := rfl
@[simp] theorem advanceRow_rowHit (i j : Half) : (s.advanceRow).rowHit i j = s.rowHit i j := rfl
@[simp] theorem createFb_answer (k : Nat) : (s.createFb).answer k = s.answer k := rfl
@[simp] theorem createFb_allocOk : (s.createFb).allocOk = s.allocOk := rfl
@[simp] theorem createFb_nextDraw : (s.createFb).nextDraw = s.nextDraw := rfl
@[simp] theorem createFb_fbByte (i : Nat) : (s.createFb).fbByte i = s.fbByte i := rfl
@[simp] theorem createFb_fbRead (i k : Nat) : (s.createFb).fbRead i k = s.fbRead i k := rfl
@[simp] theorem createFb_rowOffset : (s.createFb).rowOffset = s.rowOffset := rfl
@[simp] theorem createFb_colHit (i j : Half) : (s.createFb).colHit i j = s.colHit i j := rfl
@[simp] theorem createFb_rowHit (i j : Half) : (s.createFb).rowHit i j = s.rowHit i j := rfl
@[simp] theorem setMode_answer (m : Mode) (k : Nat) : (s.setMode m).answer k = s.answer k := rfl
@[simp] theorem setMode_allocOk (m : Mode) : (s.setMode m).allocOk = s.allocOk := rfl
@[simp] theorem setMode_nextDraw (m : Mode) : (s.setMode m).nextDraw = s.nextDraw := rfl
@[simp] theorem setMode_fbByte (m : Mode) (i : Nat) : (s.setMode m).fbByte i = s.fbByte i := rfl
@[simp] theorem setMode_fbRead (m : Mode) (i k : Nat) : (s.setMode m).fbRead i k = s.fbRead i k := rfl
@[simp] theorem setMode_rowOffset (m : Mode) : (s.setMode m).rowOffset = s.rowOffset := rfl
@[simp] theorem setMode_colHit (m : Mode) (i j : Half) : (s.setMode m).colHit i j = s.colHit i j := rfl
@[simp] theorem setMode_rowHit (m : Mode) (i j : Half) : (s.setMode m).rowHit i j = s.rowHit i j := rfl
@[simp] theorem copyRow_answer (o : Nat) (p : List Byte) (k : Nat) : (copyRow o p s).answer k = s.answer k := rfl
@[simp] theorem copyRow_allocOk (o : Nat) (p : List Byte) : (copyRow o p s).allocOk = s.allocOk := rfl
@[simp] theorem copyRow_nextDraw (o : Nat) (p : List Byte) : (copyRow o p s).nextDraw = s.nextDraw := rfl
@[simp] theorem copyRow_rowOffset (o : Nat) (p : List Byte) : (copyRow o p s).rowOffset = s.rowOffset := rfl
@[simp] theorem copyRow_colHit (o : Nat) (p : List Byte) (i j : Half) : (copyRow o p s).colHit i j = s.colHit i j := rfl
@[simp] theorem copyRow_rowHit (o : Nat) (p : List Byte) (i j : Half) : (copyRow o p s).rowHit i j = s.rowHit i j := rfl
@[simp] theorem attach_answer (k : Nat) : (s.attach).answer k = s.answer k := rfl
@[simp] theorem attach_allocOk : (s.attach).allocOk = s.allocOk := rfl
@[simp] theorem attach_nextDraw : (s.attach).nextDraw = s.nextDraw := rfl
@[simp] theorem attach_fbByte (i : Nat) : (s.attach).fbByte i = s.fbByte i := rfl
@[simp] theorem attach_fbRead (i k : Nat) : (s.attach).fbRead i k = s.fbRead i k := rfl
@[simp] theorem attach_rowOffset : (s.attach).rowOffset = s.rowOffset := rfl
@[simp] theorem attach_colHit (i j : Half) : (s.attach).colHit i j = s.colHit i j := rfl
@[simp] theorem attach_rowHit (i j : Half) : (s.attach).rowHit i j = s.rowHit i j := rfl
@[simp] theorem popReset_answer (k : Nat) : (s.popReset).answer k = s.answer k := rfl
@[simp] theorem popReset_allocOk : (s.popReset).allocOk = s.allocOk := rfl
@[simp] theorem popReset_nextDraw : (s.popReset).nextDraw = s.nextDraw := rfl
@[simp] theorem popReset_fbByte (i : Nat) : (s.popReset).fbByte i = s.fbByte i := rfl
@[simp] theorem popReset_fbRead (i k : Nat) : (s.popReset).fbRead i k = s.fbRead i k := rfl
@[simp] theorem popReset_rowOffset : (s.popReset).rowOffset = s.rowOffset := rfl
@[simp] theorem popReset_colHit (i j : Half) : (s.popReset).colHit i j = s.colHit i j := rfl
@[simp] theorem popReset_rowHit (i j : Half) : (s.popReset).rowHit i j = s.rowHit i j := rfl
@[simp] theorem sent_allocOk (evs : List Event) (n : Nat) : (s.sent evs n).allocOk = s.allocOk := rfl
@[simp] theorem sent_nextDraw (evs : List Event) (n : Nat) : (s.sent evs n).nextDraw = s.nextDraw := rfl
@[simp] theorem sent_fbByte (evs : List Event) (n : Nat) (i : Nat) : (s.sent evs n).fbByte i = s.fbByte i := rfl
@[simp] theorem sent_fbRead (evs : List Event) (n : Nat) (i k : Nat) : (s.sent evs n).fbRead i k = s.fbRead i k := rfl
@[simp] theorem sent_rowOffset (evs : List Event) (n : Nat) : (s.sent evs n).rowOffset = s.rowOffset := rfl
@[simp] theorem sent_colHit (evs : List Event) (n : Nat) (i j : Half) : (s.sent evs n).colHit i j = s.colHit i j := rfl
@[simp] theorem sent_rowHit (evs : List Event) (n : Nat) (i j : Half) : (s.sent evs n).rowHit i j = s.rowHit i j := rfl

/-- The answers after one message are the answers from the next one on. -/
@[simp] theorem popAnswer_answer (k : Nat) : s.popAnswer.answer k = s.answer (k + 1) := by
  simp [State.answer, Nat.add_assoc, Nat.add_comm 1 k]

/-- The answers after `n` messages. -/
@[simp] theorem sent_answer (evs : List Event) (n k : Nat) :
    (s.sent evs n).answer k = s.answer (n + k) := by
  simp [State.answer, Nat.add_assoc]

theorem answersOk_head {n : Nat} (h : s.answersOk (n + 1)) : ∃ rx, s.answer 0 = .ok rx := by
  have h0 := h 0 (Nat.succ_pos n)
  cases hs : s.answer 0 with
  | ok rx => exact ⟨rx, rfl⟩
  | fail => rw [hs] at h0; cases h0
  | never => rw [hs] at h0; cases h0

theorem answersOk_le {m n : Nat} (h : s.answersOk n) (hle : m ≤ n) : s.answersOk m :=
  fun k hk => h k (Nat.lt_of_lt_of_le hk hle)

theorem answersOk_sent {evs : List Event} {m n : Nat} (h : s.answersOk (m + n)) :
    (s.sent evs m).answersOk n := fun k hk => by
  simpa using h (m + k) (by omega)

theorem failsAt_sent {evs : List Event} {m k : Nat} (h : s.failsAt k) (hle : m ≤ k) :
    (s.sent evs m).failsAt (k - m) := by
  refine ⟨answersOk_sent (n := k - m) s (by simpa [Nat.add_sub_cancel' hle] using h.1), ?_⟩
  simpa [Nat.add_sub_cancel' hle] using h.2

/-- Two stretches of bus activity are one. -/
@[simp] theorem sent_sent (a b : List Event) (m n : Nat) :
    (s.sent a m).sent b n = s.sent (a ++ b) (m + n) := by
  simp [State.sent, List.append_assoc, Nat.add_assoc]

@[simp] theorem sent_zero : s.sent [] 0 = s := by simp [State.sent]

end Sys2Proof.Machine
end

