-- ==== Sys2Proof/Laws/Bus.lean ====
section
/-! SUPPORT. Results and the Transaction Layer: what each procedure does on each answer of the environment,
said once, and that it leaves everything but the bus alone. -/

namespace Sys2Proof.Machine

open Sys2Proof

/-! ## Results -/

section Results
variable {α β : Type} (s : State)

@[simp] theorem andThen_ok (a : α) (f : α → State → Run β) :
    (⟨.ok a, s⟩ : Run α).andThen f = f a s := rfl
@[simp] theorem andThen_err (e : Err) (f : α → State → Run β) :
    (⟨.err e, s⟩ : Run α).andThen f = ⟨.err e, s⟩ := rfl
@[simp] theorem andThen_hung (f : α → State → Run β) :
    (⟨.hung, s⟩ : Run α).andThen f = ⟨.hung, s⟩ := rfl

@[simp] theorem raise_res (e : Err) : (raise (α := α) e s).res = .err e := rfl
@[simp] theorem raise_st (e : Err) : (raise (α := α) e s).st = s := rfl

@[simp] theorem deliver_ok (v : α → Word) (d : α → List Byte) (a : α) :
    deliver v d ⟨.ok a, s⟩ = s.respond .ok (v a) (d a) := rfl
@[simp] theorem deliver_err (v : α → Word) (d : α → List Byte) (e : Err) :
    deliver v d ⟨.err e, s⟩ = s.respond (.error e) 0 [] := rfl
@[simp] theorem deliver_hung (v : α → Word) (d : α → List Byte) :
    deliver v d ⟨.hung, s⟩ = s := rfl

/-- A relation that every procedure keeps is kept by `call P?` followed by more (R13). -/
theorem andThen_keeps {R : State → State → Prop} (trans : ∀ {a b c}, R a b → R b c → R a c)
    {r : Run α} {f : α → State → Run β} {s : State} (hr : R s r.st)
    (hf : ∀ a t, r = ⟨.ok a, t⟩ → R t (f a t).st) : R s (r.andThen f).st := by
  obtain ⟨res, t⟩ := r
  cases res with
  | ok a => exact trans hr (hf a t rfl)
  | err e => exact hr
  | hung => exact hr

/-- What `deliver` can do: one response, or none when a message never completed. -/
theorem deliver_cases (v : α → Word) (d : α → List Byte) (r : Run α) :
    (∃ a, r.res = .ok a ∧ deliver v d r = r.st.respond .ok (v a) (d a)) ∨
    (∃ e, r.res = .err e ∧ deliver v d r = r.st.respond (.error e) 0 []) ∨
    (r.res = .hung ∧ deliver v d r = r.st) := by
  obtain ⟨res, t⟩ := r
  cases res with
  | ok a => exact .inl ⟨a, rfl, rfl⟩
  | err e => exact .inr (.inl ⟨e, rfl, rfl⟩)
  | hung => exact .inr (.inr ⟨rfl, rfl⟩)

end Results

/-! ## Frames -/

theorem OnlyBus.rfl' (s : State) : OnlyBus s s := rfl

theorem OnlyBus.trans {a b c : State} (h1 : OnlyBus a b) (h2 : OnlyBus b c) : OnlyBus a c := by
  unfold OnlyBus at *
  rw [h2, h1]

theorem OnlyWindow.rfl' (s : State) : OnlyWindow s s := rfl

theorem OnlyWindow.trans {a b c : State} (h1 : OnlyWindow a b) (h2 : OnlyWindow b c) :
    OnlyWindow a c := by
  unfold OnlyWindow at *
  rw [h2, h1]

theorem OnlyBus.onlyWindow {a b : State} (h : OnlyBus a b) : OnlyWindow a b := by
  unfold OnlyBus at h
  unfold OnlyWindow
  rw [h]

/-- Every field the bus does not touch, at once. -/
theorem OnlyBus.fields {s t : State} (h : OnlyBus s t) :
    t.cfg = s.cfg ∧ t.mode = s.mode ∧ SameCache s t ∧ SameStream s t ∧ t.fb = s.fb ∧
    t.fbCreated = s.fbCreated ∧ t.rst = s.rst ∧ t.attached = s.attached ∧ t.phase = s.phase ∧
    t.hostIn = s.hostIn ∧ t.responses = s.responses ∧ t.resetIn = s.resetIn ∧
    t.launches = s.launches := by
  unfold OnlyBus at h
  rw [h]
  simp [SameCache, SameStream]

/-- Every field that neither the bus nor the window cache touches, at once. -/
theorem OnlyWindow.fields {s t : State} (h : OnlyWindow s t) :
    t.cfg = s.cfg ∧ t.mode = s.mode ∧ SameStream s t ∧ t.fb = s.fb ∧
    t.fbCreated = s.fbCreated ∧ t.rst = s.rst ∧ t.attached = s.attached ∧ t.phase = s.phase ∧
    t.hostIn = s.hostIn ∧ t.responses = s.responses ∧ t.resetIn = s.resetIn ∧
    t.launches = s.launches := by
  unfold OnlyWindow at h
  rw [h]
  simp [SameStream]

/-! ## `Bus` -/

/-- Everything `Bus(segs)` can do (R14, R94). -/
theorem bus_cases (segs : List Seg) (s : State) :
    (∃ rx, s.answer 0 = .ok rx ∧ bus segs s =
      ⟨.ok (rxBytes (answered s.env.busUsed rx 0 segs)),
        s.popAnswer.emit (.msg (answered s.env.busUsed rx 0 segs) true)⟩) ∨
    (s.answer 0 = .fail ∧ bus segs s = ⟨.err .io, s.popAnswer.emit (.msg (unanswered segs) false)⟩) ∨
    (s.answer 0 = .never ∧ bus segs s = ⟨.hung, { s.popAnswer with hung := true }⟩) := by
  unfold bus
  cases h : s.answer 0 with
  | ok rx => exact .inl ⟨rx, rfl, rfl⟩
  | fail => exact .inr (.inl ⟨rfl, rfl⟩)
  | never => exact .inr (.inr ⟨rfl, rfl⟩)

theorem bus_ok {segs : List Seg} {s : State} {rx : List Byte} (h : s.answer 0 = .ok rx) :
    bus segs s = ⟨.ok (rxBytes (answered s.env.busUsed rx 0 segs)),
      s.sent [.msg (answered s.env.busUsed rx 0 segs) true] 1⟩ := by
  unfold bus
  rw [h]
  simp [State.emit, State.popAnswer, State.sent]

theorem bus_fail {segs : List Seg} {s : State} (h : s.answer 0 = .fail) :
    bus segs s = ⟨.err .io, s.sent [.msg (unanswered segs) false] 1⟩ := by
  unfold bus
  rw [h]
  simp [State.emit, State.popAnswer, State.sent]

theorem bus_never {segs : List Seg} {s : State} (h : s.answer 0 = .never) :
    bus segs s = ⟨.hung, { s.popAnswer with hung := true }⟩ := by
  unfold bus
  rw [h]

theorem bus_onlyBus (segs : List Seg) (s : State) : OnlyBus s (bus segs s).st := by
  rcases bus_cases segs s with ⟨rx, _, h⟩ | ⟨_, h⟩ | ⟨_, h⟩ <;> rw [h] <;> rfl

/-- A failure of the bus is `ErrIO` (R201). -/
theorem bus_err {segs : List Seg} {s : State} {e : Err} (h : (bus segs s).res = .err e) : e = .io := by
  rcases bus_cases segs s with ⟨rx, _, hb⟩ | ⟨_, hb⟩ | ⟨_, hb⟩ <;> rw [hb] at h <;> cases h
  rfl

/-- The number of bytes received is the number asked for. -/
theorem received_length (m : Nat) (rx : List Byte) (o n : Nat) : (received m rx o n).length = n := by
  simp [received]

/-! ## `send_command` -/

theorem sendCommand_ok {code : Byte} {s : State} {rx : List Byte} (h : s.answer 0 = .ok rx) :
    sendCommand code s =
      ⟨.ok (), { s.sent (commandEvents code true) 1 with dc := true }⟩ := by
  have h' : (s.lineDC false).answer 0 = .ok rx := by simpa using h
  simp only [sendCommand, bus_ok h']
  simp [State.lineDC, State.sent, commandEvents, answered]

theorem sendCommand_fail {code : Byte} {s : State} (h : s.answer 0 = .fail) :
    sendCommand code s =
      ⟨.err .io, { s.sent (commandEvents code false) 1 with dc := true }⟩ := by
  have h' : (s.lineDC false).answer 0 = .fail := by simpa using h
  simp only [sendCommand, bus_fail h']
  simp [State.lineDC, State.sent, commandEvents, unanswered]

theorem sendCommand_never {code : Byte} {s : State} (h : s.answer 0 = .never) :
    sendCommand code s = ⟨.hung, { (s.lineDC false).popAnswer with hung := true }⟩ := by
  have h' : (s.lineDC false).answer 0 = .never := by simpa using h
  simp only [sendCommand, bus_never h']

/-- Everything `send_command` can do (R90). -/
theorem sendCommand_cases (code : Byte) (s : State) :
    (∃ rx, s.answer 0 = .ok rx ∧ sendCommand code s =
      ⟨.ok (), { s.sent (commandEvents code true) 1 with dc := true }⟩) ∨
    (s.answer 0 = .fail ∧ sendCommand code s =
      ⟨.err .io, { s.sent (commandEvents code false) 1 with dc := true }⟩) ∨
    (s.answer 0 = .never ∧ sendCommand code s =
      ⟨.hung, { (s.lineDC false).popAnswer with hung := true }⟩) := by
  cases h : s.answer 0 with
  | ok rx => exact .inl ⟨rx, rfl, sendCommand_ok h⟩
  | fail => exact .inr (.inl ⟨rfl, sendCommand_fail h⟩)
  | never => exact .inr (.inr ⟨rfl, sendCommand_never h⟩)

/-- The state a command that succeeded leaves. -/
theorem sendCommand_eq_ok {code : Byte} {s t : State} {a : Unit} (h : sendCommand code s = ⟨.ok a, t⟩) :
    t = { s.sent (commandEvents code true) 1 with dc := true } := by
  rcases sendCommand_cases code s with ⟨rx, _, hb⟩ | ⟨_, hb⟩ | ⟨_, hb⟩ <;> rw [hb] at h <;> cases h
  rfl

/-- From `DC` high a command that succeeds is its three events and nothing else. -/
theorem sendCommand_sent {code : Byte} {s : State} (hd : s.dc = true) (h : s.answersOk 1) :
    sendCommand code s = ⟨.ok (), s.sent (commandEvents code true) 1⟩ := by
  obtain ⟨rx, h0⟩ := answersOk_head s h
  rw [sendCommand_ok h0]
  simp [State.sent, hd]

/-- From `DC` high a command that fails is its three events and nothing else. -/
theorem sendCommand_sent_fail {code : Byte} {s : State} (hd : s.dc = true) (h : s.answer 0 = .fail) :
    sendCommand code s = ⟨.err .io, s.sent (commandEvents code false) 1⟩ := by
  rw [sendCommand_fail h]
  simp [State.sent, hd]

theorem sendCommand_onlyBus (code : Byte) (s : State) : OnlyBus s (sendCommand code s).st := by
  rcases sendCommand_cases code s with ⟨rx, _, h⟩ | ⟨_, h⟩ | ⟨_, h⟩ <;> rw [h] <;> rfl

theorem sendCommand_err {code : Byte} {s : State} {e : Err} (h : (sendCommand code s).res = .err e) :
    e = .io := by
  rcases sendCommand_cases code s with ⟨rx, _, hb⟩ | ⟨_, hb⟩ | ⟨_, hb⟩ <;> rw [hb] at h <;> cases h
  rfl

/-! ## `send_data`, `read_data`, `send_batch` -/

theorem sendData_ok {bytes : List Byte} {s : State} {rx : List Byte} (h : s.answer 0 = .ok rx) :
    sendData bytes s = ⟨.ok (), s.sent [dataEvent bytes true] 1⟩ := by
  simp [sendData, bus_ok h, answered, dataEvent]

theorem sendData_fail {bytes : List Byte} {s : State} (h : s.answer 0 = .fail) :
    sendData bytes s = ⟨.err .io, s.sent [dataEvent bytes false] 1⟩ := by
  simp [sendData, bus_fail h, unanswered, dataEvent]

theorem sendData_never {bytes : List Byte} {s : State} (h : s.answer 0 = .never) :
    sendData bytes s = ⟨.hung, { s.popAnswer with hung := true }⟩ := by
  simp [sendData, bus_never h]

/-- Everything `send_data` can do (R91). -/
theorem sendData_cases (bytes : List Byte) (s : State) :
    (∃ rx, s.answer 0 = .ok rx ∧ sendData bytes s = ⟨.ok (), s.sent [dataEvent bytes true] 1⟩) ∨
    (s.answer 0 = .fail ∧ sendData bytes s = ⟨.err .io, s.sent [dataEvent bytes false] 1⟩) ∨
    (s.answer 0 = .never ∧ sendData bytes s = ⟨.hung, { s.popAnswer with hung := true }⟩) := by
  cases h : s.answer 0 with
  | ok rx => exact .inl ⟨rx, rfl, sendData_ok h⟩
  | fail => exact .inr (.inl ⟨rfl, sendData_fail h⟩)
  | never => exact .inr (.inr ⟨rfl, sendData_never h⟩)

/-- The state a data message that succeeded leaves. -/
theorem sendData_eq_ok {bytes : List Byte} {s t : State} {a : Unit} (h : sendData bytes s = ⟨.ok a, t⟩) :
    t = s.sent [dataEvent bytes true] 1 := by
  rcases sendData_cases bytes s with ⟨rx, _, hb⟩ | ⟨_, hb⟩ | ⟨_, hb⟩ <;> rw [hb] at h <;> cases h
  rfl

theorem sendData_sent {bytes : List Byte} {s : State} (h : s.answersOk 1) :
    sendData bytes s = ⟨.ok (), s.sent [dataEvent bytes true] 1⟩ := by
  obtain ⟨rx, h0⟩ := answersOk_head s h
  exact sendData_ok h0

theorem sendData_onlyBus (bytes : List Byte) (s : State) : OnlyBus s (sendData bytes s).st := by
  rcases sendData_cases bytes s with ⟨rx, _, h⟩ | ⟨_, h⟩ | ⟨_, h⟩ <;> rw [h] <;> rfl

theorem sendData_err {bytes : List Byte} {s : State} {e : Err} (h : (sendData bytes s).res = .err e) :
    e = .io := by
  rcases sendData_cases bytes s with ⟨rx, _, hb⟩ | ⟨_, hb⟩ | ⟨_, hb⟩ <;> rw [hb] at h <;> cases h
  rfl

theorem readData_ok {n : Nat} {s : State} {rx : List Byte} (h : s.answer 0 = .ok rx) :
    readData n s = ⟨.ok (received s.env.busUsed rx 0 n),
      s.sent [.msg [.rx n (received s.env.busUsed rx 0 n)] true] 1⟩ := by
  simp [readData, bus_ok h, answered, rxBytes]

theorem readData_fail {n : Nat} {s : State} (h : s.answer 0 = .fail) :
    readData n s = ⟨.err .io, s.sent [.msg [.rx n []] false] 1⟩ := by
  simp [readData, bus_fail h, unanswered]

theorem readData_onlyBus (n : Nat) (s : State) : OnlyBus s (readData n s).st := bus_onlyBus _ s

theorem sendBatch_onlyBus (segs : List Seg) (s : State) : OnlyBus s (sendBatch segs s).st :=
  bus_onlyBus _ s

/-! ## Frames of a command -/

theorem dataPhase_onlyBus (segs : List Seg) (s : State) : OnlyBus s (dataPhase segs s).st := by
  induction segs generalizing s with
  | nil => exact OnlyBus.rfl' s
  | cons g rest ih =>
    exact andThen_keeps (R := OnlyBus) OnlyBus.trans (bus_onlyBus [g] s) fun _ t _ => ih t

theorem sendFrame_onlyBus (f : CmdFrame) (s : State) : OnlyBus s (sendFrame f s).st :=
  andThen_keeps (R := OnlyBus) OnlyBus.trans (sendCommand_onlyBus f.code s) fun _ t _ =>
    dataPhase_onlyBus f.data t

theorem sendRows_onlyBus (buf : List Byte) (n : Nat) (s : State) : OnlyBus s (sendRows buf n s).st := by
  induction n generalizing s with
  | zero => exact OnlyBus.rfl' s
  | succ n ih =>
    exact andThen_keeps (R := OnlyBus) OnlyBus.trans (sendData_onlyBus buf s) fun _ t _ => ih t

/-- `h` rows that all succeed are `h` data messages (`42_rect_fill.md` R124). -/
theorem sendRows_sent {buf : List Byte} {n : Nat} {s : State} (h : s.answersOk n) :
    sendRows buf n s = ⟨.ok (), s.sent (List.replicate n (dataEvent buf true)) n⟩ := by
  induction n generalizing s with
  | zero => simp [sendRows]
  | succ n ih =>
    have h1 : s.answersOk 1 := answersOk_le s h (by omega)
    have h2 : (s.sent [dataEvent buf true] 1).answersOk n :=
      answersOk_sent (n := n) s (by simpa [Nat.add_comm] using h)
    simp [sendRows, sendData_sent h1, ih h2, List.replicate_succ, Nat.add_comm]

end Sys2Proof.Machine
end

