-- ==== Sys2Proof/Laws/Encoding.lean ====
section
/-! SUPPORT. The byte orders: each assembly undoes its split, both ways. -/

namespace Sys2Proof

/-- Splitting a 32-bit value and assembling it again gives it back (R66). -/
theorem le32_le32Bytes (v : Word) :
    le32 (v.extractLsb' 0 8) (v.extractLsb' 8 8) (v.extractLsb' 16 8) (v.extractLsb' 24 8) = v := by
  unfold le32
  ext i hi
  simp only [BitVec.getElem_append, BitVec.getElem_extractLsb']
  split
  · simp [BitVec.getLsbD_eq_getElem hi]
  · split
    · rw [show 8 + (i - 8) = i by omega, BitVec.getLsbD_eq_getElem hi]
    · split
      · rw [show 16 + (i - 8 - 8) = i by omega, BitVec.getLsbD_eq_getElem hi]
      · rw [show 24 + (i - 8 - 8 - 8) = i by omega, BitVec.getLsbD_eq_getElem hi]

/-- Assembling four bytes and splitting again gives them back. -/
theorem le32Bytes_le32 (b0 b1 b2 b3 : Byte) : le32Bytes (le32 b0 b1 b2 b3) = [b0, b1, b2, b3] := by
  unfold le32Bytes le32
  simp only [List.cons.injEq, and_true]
  refine ⟨?_, ?_, ?_, ?_⟩ <;>
    (ext i hi
     simp only [BitVec.getElem_extractLsb', BitVec.getLsbD_append])
  · simp [show i < 8 by omega]
  · simp [show ¬ (8 + i < 8) by omega, show i < 8 by omega]
  · simp [show ¬ (16 + i < 8) by omega, show ¬ (16 + i - 8 < 8) by omega,
      show 16 + i - 8 - 8 = i by omega, show i < 8 by omega]
  · simp [show ¬ (24 + i < 8) by omega, show ¬ (24 + i - 8 < 8) by omega,
      show ¬ (24 + i - 8 - 8 < 8) by omega, show 24 + i - 8 - 8 - 8 = i by omega,
      BitVec.getLsbD_eq_getElem hi]

/-- `le32` as a number (R11). -/
theorem le32_toNat (b0 b1 b2 b3 : Byte) :
    (le32 b0 b1 b2 b3).toNat =
      b0.toNat + 2 ^ 8 * b1.toNat + 2 ^ 16 * b2.toNat + 2 ^ 24 * b3.toNat := by
  unfold le32
  simp only [BitVec.toNat_append]
  rw [← Nat.shiftLeft_add_eq_or_of_lt b0.isLt, ← Nat.shiftLeft_add_eq_or_of_lt b1.isLt,
    ← Nat.shiftLeft_add_eq_or_of_lt b2.isLt]
  simp only [Nat.shiftLeft_eq]
  omega

/-- The four bytes of a length field read back as the length. -/
theorem wordAt_le32Bytes (v : Word) (rest : List Byte) : wordAt (le32Bytes v ++ rest) 0 = v := by
  simpa [wordAt, le32Bytes, List.getD] using le32_le32Bytes v

theorem ofBe16_be16 (v : Half) : ofBe16 (v.extractLsb' 8 8) (v.extractLsb' 0 8) = v := by
  unfold ofBe16
  ext i hi
  simp only [BitVec.getElem_append, BitVec.getElem_extractLsb']
  split
  · simp [BitVec.getLsbD_eq_getElem hi]
  · rw [show 8 + (i - 8) = i by omega, BitVec.getLsbD_eq_getElem hi]

theorem be16_ofBe16 (a b : Byte) : be16 (ofBe16 a b) = [a, b] := by
  unfold be16 ofBe16
  simp only [List.cons.injEq, and_true]
  refine ⟨?_, ?_⟩ <;>
    (ext i hi
     simp only [BitVec.getElem_extractLsb', BitVec.getLsbD_append])
  · simp [show ¬ (8 + i < 8) by omega, show 8 + i - 8 = i by omega, BitVec.getLsbD_eq_getElem hi]
  · simp [show i < 8 by omega]

/-- `be16` puts the high byte first (R11). -/
theorem be16_toNat (v : Half) :
    ∃ hi lo : Byte, be16 v = [hi, lo] ∧ hi.toNat = v.toNat / 256 ∧ lo.toNat = v.toNat % 256 := by
  refine ⟨v.extractLsb' 8 8, v.extractLsb' 0 8, rfl, ?_, ?_⟩
  · have := v.isLt
    simp only [BitVec.extractLsb'_toNat, Nat.shiftRight_eq_div_pow]
    omega
  · simp [BitVec.extractLsb'_toNat]

/-- A Rect descriptor is 16 bytes and its four fields read back (R66). -/
theorem rectBytes_length (x y w h : Word) : (rectBytes x y w h).length = 16 := by
  simp [rectBytes, le32Bytes]

theorem rectBytes_fields (x y w h : Word) :
    wordAt (rectBytes x y w h) 0 = x ∧ wordAt (rectBytes x y w h) 4 = y ∧
    wordAt (rectBytes x y w h) 8 = w ∧ wordAt (rectBytes x y w h) 12 = h := by
  refine ⟨?_, ?_, ?_, ?_⟩
  · simpa [rectBytes, wordAt, le32Bytes, List.getD] using le32_le32Bytes x
  · simpa [rectBytes, wordAt, le32Bytes, List.getD] using le32_le32Bytes y
  · simpa [rectBytes, wordAt, le32Bytes, List.getD] using le32_le32Bytes w
  · simpa [rectBytes, wordAt, le32Bytes, List.getD] using le32_le32Bytes h

/-- Sixteen bytes are the Rect descriptor of the four fields they hold. -/
theorem rectBytes_wordAt (p : List Byte) (hp : p.length = 16) :
    rectBytes (wordAt p 0) (wordAt p 4) (wordAt p 8) (wordAt p 12) = p := by
  match p, hp with
  | [a0, a1, a2, a3, b0, b1, b2, b3, c0, c1, c2, c3, d0, d1, d2, d3], _ =>
    simp [rectBytes, wordAt, le32Bytes_le32]

/-- Messages that each send something read back from their segments (R102). -/
theorem sentMessages_map (ms : List (List Byte)) (h : ms.all (fun m => decide (m ≠ [])) = true) :
    sentMessages (ms.map Seg.tx) = some ms := by
  induction ms with
  | nil => rfl
  | cons m ms ih =>
    rw [List.all_cons, Bool.and_eq_true, decide_eq_true_eq] at h
    cases m with
    | nil => exact absurd rfl h.1
    | cons b bs => simp [sentMessages, ih h.2]

end Sys2Proof
end

