-- ==== Sys2Proof/Laws/Window.lean ====
section
/-! SUPPORT. The Address Window Cache and Rect Fill: what each does when every message ends `ok`, and that
they leave everything but the bus and the cache alone. -/

namespace Sys2Proof.Machine

open Sys2Proof

/-! ## Hits -/

theorem colHit_iff (s : State) (x1 x2 : Half) :
    s.colHit x1 x2 = true ↔ s.ccolV = true ∧ s.ccolX1 = x1 ∧ s.ccolX2 = x2 := by
  simp [State.colHit, and_assoc]

theorem rowHit_iff (s : State) (y1 y2 : Half) :
    s.rowHit y1 y2 = true ↔ s.crowV = true ∧ s.crowY1 = y1 ∧ s.crowY2 = y2 := by
  simp [State.rowHit, and_assoc]

/-- Filling the cache with the pair it holds changes nothing. -/
theorem fillCol_of_hit {s : State} {x1 x2 : Half} (h : s.colHit x1 x2 = true) : s.fillCol x1 x2 = s := by
  obtain ⟨hv, h1, h2⟩ := (colHit_iff s x1 x2).mp h
  rw [State.fillCol, ← hv, ← h1, ← h2]

theorem fillRow_of_hit {s : State} {y1 y2 : Half} (h : s.rowHit y1 y2 = true) : s.fillRow y1 y2 = s := by
  obtain ⟨hv, h1, h2⟩ := (rowHit_iff s y1 y2).mp h
  rw [State.fillRow, ← hv, ← h1, ← h2]

/-- A pair that has just been filled in hits. -/
@[simp] theorem fillCol_hit (s : State) (x1 x2 : Half) : (s.fillCol x1 x2).colHit x1 x2 = true := by
  simp [State.colHit]

@[simp] theorem fillRow_hit (s : State) (y1 y2 : Half) : (s.fillRow y1 y2).rowHit y1 y2 = true := by
  simp [State.rowHit]

/-! ## Everything ends `ok` -/

theorem messages_append (a b : List Event) : messages (a ++ b) = messages a + messages b := by
  induction a with
  | nil => simp [messages]
  | cons e a ih => cases e <;> simp [messages, ih, Nat.add_right_comm]

theorem messages_columnEvents (s : State) (x1 x2 : Half) :
    messages (s.columnEvents x1 x2) = if s.colHit x1 x2 then 0 else 2 := by
  unfold State.columnEvents
  split <;> simp [messages, commandEvents, dataEvent]

theorem messages_rowEvents (s : State) (y1 y2 : Half) :
    messages (s.rowEvents y1 y2) = if s.rowHit y1 y2 then 0 else 2 := by
  unfold State.rowEvents
  split <;> simp [messages, commandEvents, dataEvent]

@[simp] theorem rowEvents_sent (s : State) (evs : List Event) (n : Nat) (y1 y2 : Half) :
    (s.sent evs n).rowEvents y1 y2 = s.rowEvents y1 y2 := rfl
@[simp] theorem rowEvents_fillCol (s : State) (x1 x2 y1 y2 : Half) :
    (s.fillCol x1 x2).rowEvents y1 y2 = s.rowEvents y1 y2 := rfl

theorem columnStep_sent {s : State} {x1 x2 : Half} (hd : s.dc = true)
    (h : s.answersOk (messages (s.columnEvents x1 x2))) :
    columnStep x1 x2 s =
      ⟨.ok (), (s.sent (s.columnEvents x1 x2) (messages (s.columnEvents x1 x2))).fillCol x1 x2⟩ := by
  by_cases hit : s.colHit x1 x2 = true
  · simp [columnStep, State.columnEvents, hit, messages, fillCol_of_hit hit]
  · rw [messages_columnEvents, if_neg hit] at h
    have h1 : s.dropCol.answersOk 1 := answersOk_le s h (by omega)
    have h2 : (s.dropCol.sent (commandEvents s.cfg.cmdCaset true) 1).answersOk 1 :=
      answersOk_sent (m := 1) (n := 1) s.dropCol h
    rw [columnStep, if_neg hit, sendCommand_sent (s := s.dropCol) hd h1, andThen_ok, sendData_sent h2, andThen_ok]
    simp [State.columnEvents, hit, messages, commandEvents, dataEvent, State.fillCol, State.dropCol,
      State.sent]

theorem rowStep_sent {s : State} {y1 y2 : Half} (hd : s.dc = true)
    (h : s.answersOk (messages (s.rowEvents y1 y2))) :
    rowStep y1 y2 s =
      ⟨.ok (), (s.sent (s.rowEvents y1 y2) (messages (s.rowEvents y1 y2))).fillRow y1 y2⟩ := by
  by_cases hit : s.rowHit y1 y2 = true
  · simp [rowStep, State.rowEvents, hit, messages, fillRow_of_hit hit]
  · rw [messages_rowEvents, if_neg hit] at h
    have h1 : s.dropRow.answersOk 1 := answersOk_le s h (by omega)
    have h2 : (s.dropRow.sent (commandEvents s.cfg.cmdPaset true) 1).answersOk 1 :=
      answersOk_sent (m := 1) (n := 1) s.dropRow h
    rw [rowStep, if_neg hit, sendCommand_sent (s := s.dropRow) hd h1, andThen_ok, sendData_sent h2, andThen_ok]
    simp [State.rowEvents, hit, messages, commandEvents, dataEvent, State.fillRow, State.dropRow,
      State.sent]

/-- `set_window` when every message ends `ok` (R110 to R114): the commands of the axes that miss, and both
axes cached. -/
theorem setWindow_sent {s : State} {x y w h : Int} {x1 x2 y1 y2 : Half} (hd : s.dc = true)
    (hx1 : trunc16 x = x1) (hx2 : trunc16 (lastOf x w) = x2)
    (hy1 : trunc16 y = y1) (hy2 : trunc16 (lastOf y h) = y2)
    (ha : s.answersOk (messages (s.windowEvents x1 x2 y1 y2))) :
    setWindow x y w h s =
      ⟨.ok (), ((s.sent (s.windowEvents x1 x2 y1 y2)
        (messages (s.windowEvents x1 x2 y1 y2))).fillCol x1 x2).fillRow y1 y2⟩ := by
  subst hx1 hx2 hy1 hy2
  rw [State.windowEvents, messages_append] at *
  rw [setWindow, columnStep_sent hd (answersOk_le s ha (by omega)), andThen_ok,
    rowStep_sent (by simpa using hd)]
  · rw [rowEvents_fillCol, rowEvents_sent]
    simp [State.fillCol, State.fillRow, State.sent, Nat.add_assoc]
  · intro k hk
    rw [rowEvents_fillCol, rowEvents_sent] at hk
    simpa using ha (messages (s.columnEvents (trunc16 x) (trunc16 (lastOf x w))) + k) (by omega)

theorem full_x1 : trunc16 (0 : Int) = (0 : Half) := by decide
theorem full_x2 : trunc16 (lastOf 0 (Config.panelW : Int)) = (239 : Half) := by decide
theorem full_y2 : trunc16 (lastOf 0 (Config.panelH : Int)) = (319 : Half) := by decide

/-- The full-panel window (R7, R140, R180). -/
theorem setFullWindow_sent {s : State} (hd : s.dc = true)
    (ha : s.answersOk (messages (s.windowEvents 0 239 0 319))) :
    setFullWindow s =
      ⟨.ok (), ((s.sent (s.windowEvents 0 239 0 319)
        (messages (s.windowEvents 0 239 0 319))).fillCol 0 239).fillRow 0 319⟩ :=
  setWindow_sent hd full_x1 full_x2 full_x1 full_y2 ha

/-! ## Frames -/

theorem dropCol_onlyWindow (s : State) : OnlyWindow s s.dropCol := rfl
theorem dropRow_onlyWindow (s : State) : OnlyWindow s s.dropRow := rfl
theorem fillCol_onlyWindow (a b : Half) (s : State) : OnlyWindow s (s.fillCol a b) := rfl
theorem fillRow_onlyWindow (a b : Half) (s : State) : OnlyWindow s (s.fillRow a b) := rfl

theorem columnStep_onlyWindow (x1 x2 : Half) (s : State) : OnlyWindow s (columnStep x1 x2 s).st := by
  unfold columnStep
  split
  · exact OnlyWindow.rfl' s
  · refine (dropCol_onlyWindow s).trans ?_
    refine andThen_keeps (R := OnlyWindow) OnlyWindow.trans (sendCommand_onlyBus _ _).onlyWindow ?_
    intro _ t _
    refine andThen_keeps (R := OnlyWindow) OnlyWindow.trans (sendData_onlyBus _ _).onlyWindow ?_
    intro _ u _
    exact fillCol_onlyWindow x1 x2 u

theorem rowStep_onlyWindow (y1 y2 : Half) (s : State) : OnlyWindow s (rowStep y1 y2 s).st := by
  unfold rowStep
  split
  · exact OnlyWindow.rfl' s
  · refine (dropRow_onlyWindow s).trans ?_
    refine andThen_keeps (R := OnlyWindow) OnlyWindow.trans (sendCommand_onlyBus _ _).onlyWindow ?_
    intro _ t _
    refine andThen_keeps (R := OnlyWindow) OnlyWindow.trans (sendData_onlyBus _ _).onlyWindow ?_
    intro _ u _
    exact fillRow_onlyWindow y1 y2 u

theorem setWindow_onlyWindow (x y w h : Int) (s : State) : OnlyWindow s (setWindow x y w h s).st :=
  andThen_keeps (R := OnlyWindow) OnlyWindow.trans (columnStep_onlyWindow _ _ s) fun _ t _ =>
    rowStep_onlyWindow _ _ t

theorem setFullWindow_onlyWindow (s : State) : OnlyWindow s (setFullWindow s).st :=
  setWindow_onlyWindow _ _ _ _ s

theorem popAlloc_onlyWindow (s : State) : OnlyWindow s s.popAlloc := rfl

theorem fillRect_onlyWindow (x y w h : Nat) (c : Color) (s : State) :
    OnlyWindow s (fillRect x y w h c s).st := by
  unfold fillRect
  split
  · exact popAlloc_onlyWindow s
  · refine (popAlloc_onlyWindow s).trans ?_
    refine andThen_keeps (R := OnlyWindow) OnlyWindow.trans (setWindow_onlyWindow _ _ _ _ _) ?_
    intro _ t _
    refine andThen_keeps (R := OnlyWindow) OnlyWindow.trans (sendCommand_onlyBus _ _).onlyWindow ?_
    intro _ u _
    refine andThen_keeps (R := OnlyWindow) OnlyWindow.trans (sendRows_onlyBus _ _ _).onlyWindow ?_
    intro _ v _
    exact (sendCommand_onlyBus _ _).onlyWindow

theorem readPanel_onlyWindow (n : Nat) (s : State) : OnlyWindow s (readPanel n s).st := by
  refine andThen_keeps (R := OnlyWindow) OnlyWindow.trans (setFullWindow_onlyWindow s) ?_
  intro _ t _
  refine andThen_keeps (R := OnlyWindow) OnlyWindow.trans (sendCommand_onlyBus _ _).onlyWindow ?_
  intro _ u _
  exact (readData_onlyBus _ _).onlyWindow

/-! ## The draw -/

/-- A clamped draw is inside its bounds (R127). -/
theorem clampDraw_bounds (ylim : Nat) (d : RectDraw) (h : 0 < ylim) :
    1 ≤ (clampDraw ylim d).w ∧ 1 ≤ (clampDraw ylim d).h ∧
    (clampDraw ylim d).x + (clampDraw ylim d).w ≤ Config.panelW ∧
    (clampDraw ylim d).y + (clampDraw ylim d).h ≤ ylim := by
  have hx : d.x % 240 < 240 := Nat.mod_lt _ (by omega)
  have hy : d.y % ylim < ylim := Nat.mod_lt _ h
  have hw : (d.w - 1) % (240 - d.x % 240) < 240 - d.x % 240 := Nat.mod_lt _ (by omega)
  have hh : (d.h - 1) % (ylim - d.y % ylim) < ylim - d.y % ylim := Nat.mod_lt _ (by omega)
  simp only [clampDraw, Config.panelW]
  omega

/-- A draw inside the bounds is left as it is. -/
theorem clampDraw_of_legal (ylim : Nat) (d : RectDraw) (hw : 1 ≤ d.w) (hh : 1 ≤ d.h)
    (hx : d.x + d.w ≤ Config.panelW) (hy : d.y + d.h ≤ ylim) : clampDraw ylim d = d := by
  simp only [Config.panelW] at hx
  obtain ⟨x, y, w, h, sel, rgb⟩ := d
  simp only at hw hh hx hy
  simp only [clampDraw, Config.panelW]
  have e1 : x % 240 = x := Nat.mod_eq_of_lt (by omega)
  have e2 : y % ylim = y := Nat.mod_eq_of_lt (by omega)
  rw [e1, e2, Nat.mod_eq_of_lt (by omega), Nat.mod_eq_of_lt (by omega)]
  congr <;> omega

end Sys2Proof.Machine
end

