-- ==== Sys2Proof/Laws/Commands.lean ====
section
/-! SUPPORT. A command frame and the init sequence: what sending one does on each answer of the environment,
what it leaves alone, and that a frame's own row of the opcode table sends the frame. -/

namespace Sys2Proof.Machine

open Sys2Proof

@[simp] theorem messages_commandEvents (code : Byte) (ok : Bool) : messages (commandEvents code ok) = 1 :=
  rfl

@[simp] theorem messages_initMessages (i : InitStep) :
    messages (initMessages i) = (if i.data = [] then [] else [i.data]).length + 1 := by
  unfold initMessages
  split <;> rfl

@[simp] theorem messages_delayEvents (d : Nat) : messages (delayEvents d) = 0 := by
  unfold delayEvents
  split <;> rfl

/-! ## Bytes received -/

/-- A receive that is answered with as many bytes as it asked for brings those bytes. -/
theorem received_self (m : Nat) (rx : List Byte) : received m rx 0 rx.length = rx := by
  apply List.ext_getElem
  · simp [received]
  · intro i h1 h2
    simp [received, h2]

theorem answered_length (m : Nat) (rx : List Byte) (o : Nat) (segs : List Seg) :
    (answered m rx o segs).length = segs.length := by
  induction segs generalizing o with
  | nil => rfl
  | cons g rest ih => cases g <;> simp [answered, ih]

/-! ## A frame -/

/-- Data messages that all end `ok` are one message each (`30_encoding.md` R70). -/
theorem dataPhase_tx {ms : List (List Byte)} {s : State} (h : s.answersOk ms.length) :
    dataPhase (ms.map Seg.tx) s = ⟨.ok (), s.sent (ms.map (dataEvent · true)) ms.length⟩ := by
  induction ms generalizing s with
  | nil => simp [dataPhase]
  | cons b ms ih =>
    obtain ⟨rx, h0⟩ := answersOk_head s (n := ms.length) h
    simp only [List.map_cons, dataPhase, bus_ok h0, andThen_ok]
    rw [ih (answersOk_sent s (by simpa [Nat.add_comm] using h))]
    simp [answered, dataEvent, Nat.add_comm]

/-- A frame whose data is all sent and whose messages all end `ok`. -/
theorem runFrame_tx {code : Byte} {ms : List (List Byte)} {s : State} (h : s.answersOk (ms.length + 1)) :
    runFrame ⟨code, ms.map Seg.tx⟩ s =
      { s.sent (commandEvents code true ++ ms.map (dataEvent · true)) (ms.length + 1) with
        dc := true } := by
  obtain ⟨rx, h0⟩ := answersOk_head s h
  have h2 : ({ s.sent (commandEvents code true) 1 with dc := true } : State).answersOk ms.length :=
    answersOk_sent (evs := commandEvents code true) (m := 1) s (by simpa [Nat.add_comm] using h)
  simp only [runFrame, sendFrame, sendCommand_ok h0, andThen_ok, dataPhase_tx h2, endCommand]
  simp [State.sent, Nat.add_comm, Nat.add_assoc]

/-- What a frame leaves alone, and what it can do to the init sequence (`45_read_and_init.md` R185). -/
theorem runFrame_onlyBus (f : CmdFrame) (s : State) :
    OnlyBus s { runFrame f s with phase := s.phase } ∧
    ((runFrame f s).phase = s.phase ∨
      (∃ rest, s.phase = .init rest) ∧ (runFrame f s).phase = .done) := by
  have h := sendFrame_onlyBus f s
  have hp : (sendFrame f s).st.phase = s.phase := h.fields.2.2.2.2.2.2.2.2.1
  unfold runFrame endCommand
  split
  · exact ⟨by unfold OnlyBus at *; rw [h], .inl hp⟩
  · unfold State.abandonInit
    rw [hp]
    split <;> rename_i e <;> refine ⟨by unfold OnlyBus at *; rw [h], ?_⟩ <;> simp [hp, e]
  · exact ⟨by unfold OnlyBus at *; rw [h], .inl hp⟩

/-! ## Rows and frames -/

theorem sentMessages_some {segs : List Seg} {ms : List (List Byte)} (h : sentMessages segs = some ms) :
    segs = ms.map Seg.tx := by
  induction segs generalizing ms with
  | nil => simp only [sentMessages, Option.some.injEq] at h; subst h; rfl
  | cons g rest ih =>
    cases g with
    | rx n => simp [sentMessages] at h
    | tx b =>
      cases b with
      | nil => simp [sentMessages] at h
      | cons x xs =>
        simp only [sentMessages, Option.map_eq_some_iff] at h
        obtain ⟨a, ha, rfl⟩ := h
        simp [ih ha]

theorem decodeBare_ok {i j : Instr} {f : CmdFrame} {more : List Byte}
    (h : decodeBare j f = .ok i more) : i = j ∧ f.data = [] := by
  unfold decodeBare at h
  split at h <;> simp_all

theorem decodeRange_ok {mk : Half → Half → Instr} {i : Instr} {f : CmdFrame} {more : List Byte}
    (h : decodeRange mk f = .ok i more) : ∃ a b, i = mk a b ∧ f.data = [.tx (winPayload a b)] := by
  unfold decodeRange at h
  split at h
  · rename_i a b d e hd
    simp only [Decoded.ok.injEq] at h
    exact ⟨_, _, h.1.symm, by simp [hd, winPayload, be16_ofBe16]⟩
  · cases h

/-- A frame that is a row's: the row's meaning sends the frame (R96 to R104). -/
theorem exec_decodeBus {s : State} {f : CmdFrame} {i : Instr} {more : List Byte}
    (h : decodeBus s.cfg f = .ok i more) : exec i s = .next (runFrame f s) := by
  obtain ⟨code, data⟩ := f
  unfold decodeBus at h
  split at h
  · obtain ⟨rfl, rfl⟩ := decodeBare_ok h; simp_all [exec, execNop]
  split at h
  · obtain ⟨rfl, rfl⟩ := decodeBare_ok h; simp_all [exec, execSwreset]
  split at h
  · obtain ⟨rfl, rfl⟩ := decodeBare_ok h; simp_all [exec, execSlpout]
  split at h
  · obtain ⟨rfl, rfl⟩ := decodeBare_ok h; simp_all [exec, execDispon]
  split at h
  · obtain ⟨a, b, rfl, rfl⟩ := decodeRange_ok h; simp_all [exec, execCaset]
  split at h
  · obtain ⟨a, b, rfl, rfl⟩ := decodeRange_ok h; simp_all [exec, execPaset]
  split at h
  · unfold decodeRamwr at h
    split at h
    · rename_i ms hms
      simp only [Decoded.ok.injEq] at h
      obtain ⟨rfl, _⟩ := h
      simp only at hms
      rw [sentMessages_some hms]
      simp_all [exec, execRamwr]
    · cases h
  split at h
  · unfold decodeRamrd at h
    split at h
    · split at h
      · simp only [Decoded.ok.injEq] at h
        obtain ⟨rfl, _⟩ := h
        simp_all [exec, execRamrd, Nat.mod_eq_of_lt]
      · cases h
    · cases h
  split at h
  · unfold decodePixfmt at h
    split at h <;> simp only [Decoded.ok.injEq, reduceCtorEq] at h <;> obtain ⟨rfl, _⟩ := h <;>
      simp_all [exec, execPixfmt, dataMessages]
  · cases h

/-- One command of the init script sends its frame, then its post-delay (R184, R105). -/
theorem initStep_eq (p : Pending) (rest : List Pending) (s : State) :
    initStep p rest s = .next (afterInitCommand p.delay rest (runFrame p.frame s)) := by
  unfold initStep
  split
  · rename_i h; rw [exec_decodeBus h]; rfl
  · rfl

/-- An entry of `INIT_SCRIPT` as a frame of data messages. -/
theorem ofStep_eq (i : InitStep) :
    Pending.ofStep i =
      ⟨⟨i.code, (if i.data = [] then [] else [i.data]).map Seg.tx⟩, i.delay⟩ := by
  obtain ⟨c, d, l⟩ := i
  cases d <;> simp [Pending.ofStep]

end Sys2Proof.Machine
end

