-- ==== Sys2Proof/Laws/Failure.lean ====
section
/-! SUPPORT. The first failing message ends a procedure (`40_transaction_layer.md` R95): what each procedure
has emitted by then, said once for every message and put together along `call P?`. -/

namespace Sys2Proof.Machine

open Sys2Proof

/-! ## Cutting a list of events -/

theorem cutAt_append_left {k : Nat} {a b : List Event} (h : k < messages a) (hb : closing b = []) :
    cutAt k (a ++ b) = cutAt k a := by
  induction a generalizing k with
  | nil => exact absurd h (Nat.not_lt_zero k)
  | cons e a ih =>
    cases e with
    | msg segs ok =>
      cases k with
      | zero =>
        cases a with
        | nil => simp only [List.cons_append, List.nil_append, cutAt, hb]; rfl
        | cons e' a' =>
          cases e' with
          | dc l => cases l <;> rfl
          | rst l => rfl
          | delay d => rfl
          | msg segs' ok' => rfl
      | succ k =>
        simp only [messages] at h
        simp [cutAt, ih (by omega : k < messages a)]
    | dc l => simp only [messages] at h; simp [cutAt, ih h]
    | rst l => simp only [messages] at h; simp [cutAt, ih h]
    | delay d => simp only [messages] at h; simp [cutAt, ih h]

theorem cutAt_append_right {k : Nat} {a b : List Event} (h : messages a ≤ k) :
    cutAt k (a ++ b) = a ++ cutAt (k - messages a) b := by
  induction a generalizing k with
  | nil => simp [messages]
  | cons e a ih =>
    cases e with
    | msg segs ok =>
      simp only [messages] at h
      obtain ⟨k, rfl⟩ : ∃ j, k = j + 1 := ⟨k - 1, by omega⟩
      simp [cutAt, messages, ih (by omega : messages a ≤ k)]
    | dc l => simp only [messages] at h; simp [cutAt, messages, ih h]
    | rst l => simp only [messages] at h; simp [cutAt, messages, ih h]
    | delay d => simp only [messages] at h; simp [cutAt, messages, ih h]

/-! ## Procedures that fail where a message fails -/

/-- The procedure's run `r` from `s` emits `evs` when it succeeds; if message number `k` of them fails, `r`
ends with `ErrIO` right after it. -/
def FailsAlong {α : Type} (s : State) (r : Run α) (evs : List Event) : Prop :=
  ∀ k, k < messages evs → s.failsAt k →
    ∃ u, r = ⟨.err .io, u⟩ ∧ u.trace = s.trace ++ cutAt k evs ∧ OnlyWindow s u ∧ u.dc = true ∧
      u.hung = s.hung

/-- The run from `s` succeeds with `a` in `t`, having emitted `evs`, when every message ends `ok`. -/
def GoesAlong {α : Type} (s : State) (r : Run α) (evs : List Event) (a : α) (t : State) : Prop :=
  s.answersOk (messages evs) →
    r = ⟨.ok a, t⟩ ∧ t.trace = s.trace ++ evs ∧ OnlyWindow s t ∧ t.dc = true ∧
    t.hung = s.hung ∧ ∀ k, t.answer k = s.answer (messages evs + k)

/-- `call P?` followed by more fails along the events of both. -/
theorem FailsAlong.andThen {α β : Type} {s t : State} {r : Run α} {f : α → State → Run β} {a : α}
    {e1 e2 : List Event} (hc : closing e2 = []) (h1 : FailsAlong s r e1) (hg : GoesAlong s r e1 a t)
    (h2 : FailsAlong t (f a t) e2) : FailsAlong s (r.andThen f) (e1 ++ e2) := by
  intro k hk hf
  by_cases hlt : k < messages e1
  · obtain ⟨u, hr, ht, hw, hd, hh⟩ := h1 k hlt hf
    refine ⟨u, by rw [hr, andThen_err], ?_, hw, hd, hh⟩
    rw [ht, cutAt_append_left hlt hc]
  · have hle : messages e1 ≤ k := by omega
    obtain ⟨hr, htr, hw, hd, hh, hans⟩ := hg (answersOk_le s hf.1 hle)
    rw [messages_append] at hk
    have hf' : t.failsAt (k - messages e1) := by
      refine ⟨fun j hj => ?_, ?_⟩
      · rw [hans]; exact hf.1 _ (by omega)
      · rw [hans, show messages e1 + (k - messages e1) = k by omega]; exact hf.2
    obtain ⟨u, hr', ht', hw', hd', hh'⟩ := h2 (k - messages e1) (by omega) hf'
    refine ⟨u, by rw [hr, andThen_ok, hr'], ?_, hw.trans hw', hd', hh'.trans hh⟩
    rw [ht', htr, cutAt_append_right hle, List.append_assoc]

/-- A run that emits nothing cannot fail along nothing. -/
theorem FailsAlong.nil {α : Type} (s : State) (r : Run α) : FailsAlong s r [] :=
  fun k hk => absurd hk (Nat.not_lt_zero k)

/-! ## The Transaction Layer -/

theorem sendCommand_fails {s : State} (code : Byte) :
    FailsAlong s (sendCommand code s) (commandEvents code true) := by
  intro k hk hf
  have h0 : k = 0 := by simp only [commandEvents, messages] at hk; omega
  subst h0
  rw [sendCommand_fail hf.2]
  exact ⟨_, rfl, rfl, rfl, rfl, rfl⟩

theorem sendCommand_goes {s : State} (code : Byte) :
    GoesAlong s (sendCommand code s) (commandEvents code true) ()
      { s.sent (commandEvents code true) 1 with dc := true } := by
  intro h
  obtain ⟨rx, h0⟩ := answersOk_head s (n := 0) h
  exact ⟨sendCommand_ok h0, rfl, rfl, rfl, rfl, fun k => sent_answer s (commandEvents code true) 1 k⟩

theorem sendData_fails {s : State} (hd : s.dc = true) (bytes : List Byte) :
    FailsAlong s (sendData bytes s) [dataEvent bytes true] := by
  intro k hk hf
  have h0 : k = 0 := by simp only [dataEvent, messages] at hk; omega
  subst h0
  rw [sendData_fail hf.2]
  exact ⟨_, rfl, rfl, rfl, hd, rfl⟩

theorem sendData_goes {s : State} (hd : s.dc = true) (bytes : List Byte) :
    GoesAlong s (sendData bytes s) [dataEvent bytes true] () (s.sent [dataEvent bytes true] 1) := by
  intro h
  exact ⟨sendData_sent h, rfl, rfl, hd, rfl, fun k => sent_answer s [dataEvent bytes true] 1 k⟩

theorem readData_fails {s : State} (hd : s.dc = true) (n : Nat) (b : List Byte) :
    FailsAlong s (readData n s) [.msg [.rx n b] true] := by
  intro k hk hf
  have h0 : k = 0 := by simp only [messages] at hk; omega
  subst h0
  rw [readData_fail hf.2]
  exact ⟨_, rfl, rfl, rfl, hd, rfl⟩

theorem messages_replicate (n : Nat) (b : List Byte) :
    messages (List.replicate n (dataEvent b true)) = n := by
  induction n with
  | zero => rfl
  | succ n ih => rw [List.replicate_succ, dataEvent, messages, ← dataEvent, ih]

theorem sendRows_goes {s : State} (hd : s.dc = true) (buf : List Byte) (n : Nat) :
    GoesAlong s (sendRows buf n s) (List.replicate n (dataEvent buf true)) ()
      (s.sent (List.replicate n (dataEvent buf true)) n) := by
  intro h
  rw [messages_replicate] at h
  refine ⟨sendRows_sent h, rfl, rfl, hd, rfl, fun k => ?_⟩
  rw [messages_replicate]
  exact sent_answer s (List.replicate n (dataEvent buf true)) n k

theorem closing_replicate (n : Nat) (b : List Byte) (rest : List Event) (h : closing rest = []) :
    closing (List.replicate n (dataEvent b true) ++ rest) = [] := by
  cases n with
  | zero => simpa using h
  | succ n => simp [List.replicate_succ, dataEvent, closing]

theorem sendRows_fails {s : State} (hd : s.dc = true) (buf : List Byte) (n : Nat) :
    FailsAlong s (sendRows buf n s) (List.replicate n (dataEvent buf true)) := by
  induction n generalizing s with
  | zero => exact FailsAlong.nil _ _
  | succ n ih =>
    rw [List.replicate_succ]
    exact FailsAlong.andThen (e1 := [dataEvent buf true])
      (by simpa using closing_replicate n buf [] rfl) (sendData_fails hd buf) (sendData_goes hd buf)
      (ih hd)

/-! ## The window -/

theorem columnStep_goes {s : State} (hd : s.dc = true) (x1 x2 : Half) :
    GoesAlong s (columnStep x1 x2 s) (s.columnEvents x1 x2) ()
      ((s.sent (s.columnEvents x1 x2) (messages (s.columnEvents x1 x2))).fillCol x1 x2) := by
  intro h
  exact ⟨columnStep_sent hd h, rfl, rfl, hd, rfl,
    fun k => sent_answer s (s.columnEvents x1 x2) (messages (s.columnEvents x1 x2)) k⟩

theorem columnStep_fails {s : State} (x1 x2 : Half) :
    FailsAlong s (columnStep x1 x2 s) (s.columnEvents x1 x2) := by
  by_cases hit : s.colHit x1 x2 = true
  · simp only [State.columnEvents, hit, if_true]; exact FailsAlong.nil _ _
  · rw [columnStep, if_neg hit, State.columnEvents, if_neg hit]
    have h : FailsAlong s.dropCol ((sendCommand s.cfg.cmdCaset s.dropCol).andThen fun _ s =>
        (sendData (winPayload x1 x2) s).andThen fun _ s => ⟨.ok (), s.fillCol x1 x2⟩)
        (commandEvents s.cfg.cmdCaset true ++ ([dataEvent (winPayload x1 x2) true] ++ [])) :=
      FailsAlong.andThen rfl (sendCommand_fails _) (sendCommand_goes _)
        (FailsAlong.andThen rfl (sendData_fails rfl _) (sendData_goes rfl _) (FailsAlong.nil _ _))
    intro k hk hf
    obtain ⟨u, hr, ht, hw, hu, hh⟩ := h k hk hf
    exact ⟨u, hr, ht, (dropCol_onlyWindow s).trans hw, hu, hh⟩

theorem rowStep_goes {s : State} (hd : s.dc = true) (y1 y2 : Half) :
    GoesAlong s (rowStep y1 y2 s) (s.rowEvents y1 y2) ()
      ((s.sent (s.rowEvents y1 y2) (messages (s.rowEvents y1 y2))).fillRow y1 y2) := by
  intro h
  exact ⟨rowStep_sent hd h, rfl, rfl, hd, rfl,
    fun k => sent_answer s (s.rowEvents y1 y2) (messages (s.rowEvents y1 y2)) k⟩

theorem rowStep_fails {s : State} (y1 y2 : Half) :
    FailsAlong s (rowStep y1 y2 s) (s.rowEvents y1 y2) := by
  by_cases hit : s.rowHit y1 y2 = true
  · simp only [State.rowEvents, hit, if_true]; exact FailsAlong.nil _ _
  · rw [rowStep, if_neg hit, State.rowEvents, if_neg hit]
    have h : FailsAlong s.dropRow ((sendCommand s.cfg.cmdPaset s.dropRow).andThen fun _ s =>
        (sendData (winPayload y1 y2) s).andThen fun _ s => ⟨.ok (), s.fillRow y1 y2⟩)
        (commandEvents s.cfg.cmdPaset true ++ ([dataEvent (winPayload y1 y2) true] ++ [])) :=
      FailsAlong.andThen rfl (sendCommand_fails _) (sendCommand_goes _)
        (FailsAlong.andThen rfl (sendData_fails rfl _) (sendData_goes rfl _) (FailsAlong.nil _ _))
    intro k hk hf
    obtain ⟨u, hr, ht, hw, hu, hh⟩ := h k hk hf
    exact ⟨u, hr, ht, (dropRow_onlyWindow s).trans hw, hu, hh⟩

theorem closing_rowEvents (s : State) (y1 y2 : Half) (rest : List Event) (h : closing rest = []) :
    closing (s.rowEvents y1 y2 ++ rest) = [] := by
  unfold State.rowEvents
  split
  · simpa using h
  · rfl

theorem setWindow_goes {s : State} {x y w h : Int} {x1 x2 y1 y2 : Half} (hd : s.dc = true)
    (hx1 : trunc16 x = x1) (hx2 : trunc16 (lastOf x w) = x2)
    (hy1 : trunc16 y = y1) (hy2 : trunc16 (lastOf y h) = y2) :
    GoesAlong s (setWindow x y w h s) (s.windowEvents x1 x2 y1 y2) ()
      (((s.sent (s.windowEvents x1 x2 y1 y2)
        (messages (s.windowEvents x1 x2 y1 y2))).fillCol x1 x2).fillRow y1 y2) := by
  intro ha
  exact ⟨setWindow_sent hd hx1 hx2 hy1 hy2 ha, rfl, rfl, hd, rfl,
    fun k => sent_answer s (s.windowEvents x1 x2 y1 y2) (messages (s.windowEvents x1 x2 y1 y2)) k⟩

theorem setWindow_fails {s : State} {x y w h : Int} {x1 x2 y1 y2 : Half} (hd : s.dc = true)
    (hx1 : trunc16 x = x1) (hx2 : trunc16 (lastOf x w) = x2)
    (hy1 : trunc16 y = y1) (hy2 : trunc16 (lastOf y h) = y2) :
    FailsAlong s (setWindow x y w h s) (s.windowEvents x1 x2 y1 y2) := by
  subst hx1 hx2 hy1 hy2
  exact FailsAlong.andThen (by simpa using closing_rowEvents s _ _ [] rfl) (columnStep_fails _ _)
    (columnStep_goes hd _ _) (rowStep_fails (s := State.fillCol _ _ (s.sent _ _)) _ _)

theorem setFullWindow_goes {s : State} (hd : s.dc = true) :
    GoesAlong s (setFullWindow s) (s.windowEvents 0 239 0 319) ()
      (((s.sent (s.windowEvents 0 239 0 319)
        (messages (s.windowEvents 0 239 0 319))).fillCol 0 239).fillRow 0 319) :=
  setWindow_goes hd full_x1 full_x2 full_x1 full_y2

theorem setFullWindow_fails {s : State} (hd : s.dc = true) :
    FailsAlong s (setFullWindow s) (s.windowEvents 0 239 0 319) :=
  setWindow_fails hd full_x1 full_x2 full_x1 full_y2

/-! ## The window cache after a failure (`41_address_window.md` R115) -/

/-- A range-set command that fails has used only the bus. -/
theorem rangeSet_err {s u : State} {code : Byte} {bytes : List Byte} {g : State → State} {e : Err}
    (h : ((sendCommand code s).andThen fun _ s => (sendData bytes s).andThen fun _ s =>
      (⟨.ok (), g s⟩ : Run Unit)) = ⟨.err e, u⟩) : OnlyBus s u := by
  have hc := sendCommand_onlyBus code s
  generalize sendCommand code s = r at h hc
  obtain ⟨res, a⟩ := r
  cases res with
  | ok v =>
    have hd := sendData_onlyBus bytes a
    rw [andThen_ok] at h
    generalize sendData bytes a = r at h hd
    obtain ⟨res, b⟩ := r
    cases res <;> cases h
    exact hc.trans hd
  | err e' => cases h; exact hc
  | hung => cases h

/-- A failed column step drops its axis and leaves the row axis alone. -/
theorem columnStep_err {s u : State} {x1 x2 : Half} {e : Err} (h : columnStep x1 x2 s = ⟨.err e, u⟩) :
    u.ccolV = false ∧ u.crowV = s.crowV ∧ u.crowY1 = s.crowY1 ∧ u.crowY2 = s.crowY2 := by
  unfold columnStep at h
  split at h
  · cases h
  · have hk := (rangeSet_err h).fields.2.2.1
    exact ⟨hk.1, hk.2.2.2⟩

/-- A failed row step drops its axis and leaves the column axis alone. -/
theorem rowStep_err {s u : State} {y1 y2 : Half} {e : Err} (h : rowStep y1 y2 s = ⟨.err e, u⟩) :
    u.crowV = false ∧ u.ccolV = s.ccolV ∧ u.ccolX1 = s.ccolX1 ∧ u.ccolX2 = s.ccolX2 := by
  unfold rowStep at h
  split at h
  · cases h
  · have hk := (rangeSet_err h).fields.2.2.1
    exact ⟨hk.2.2.2.1, hk.1, hk.2.1, hk.2.2.1⟩

/-- The cache a failed `set_window` leaves, and the one a failure after the window leaves, when what
follows the window uses only the bus. -/
theorem setWindow_cacheAfterFailure {α : Type} {s u : State} {x y w h : Int} {x1 x2 y1 y2 : Half} {k : Nat}
    {f : Unit → State → Run α} {e : Err} (hd : s.dc = true)
    (hx1 : trunc16 x = x1) (hx2 : trunc16 (lastOf x w) = x2)
    (hy1 : trunc16 y = y1) (hy2 : trunc16 (lastOf y h) = y2)
    (hf : ∀ t, OnlyBus t (f () t).st) (hk : s.failsAt k)
    (hu : (setWindow x y w h s).andThen f = ⟨.err e, u⟩) :
    SameCache (setWindow x y w h s).st u ∧ CacheAfterFailure s u x1 x2 y1 y2 k := by
  have hle : messages (s.columnEvents x1 x2) ≤ messages (s.windowEvents x1 x2 y1 y2) := by
    rw [State.windowEvents, messages_append]; omega
  by_cases hw : k < messages (s.windowEvents x1 x2 y1 y2)
  · obtain ⟨v, hv, -⟩ := setWindow_fails hd hx1 hx2 hy1 hy2 k hw hk
    rw [hv, andThen_err] at hu
    obtain ⟨-, rfl⟩ : e = .io ∧ u = v := by cases hu; exact ⟨rfl, rfl⟩
    refine ⟨by rw [hv]; exact ⟨rfl, rfl, rfl, rfl, rfl, rfl⟩, ?_⟩
    subst hx1 hx2 hy1 hy2
    by_cases hc : k < messages (s.columnEvents (trunc16 x) (trunc16 (lastOf x w)))
    · obtain ⟨a, ha, -⟩ := columnStep_fails (s := s) _ _ k hc hk
      rw [setWindow, ha, andThen_err] at hv
      obtain rfl : a = u := by cases hv; rfl
      exact ⟨fun _ => columnStep_err ha, fun h => by omega, fun h => by omega, fun h => by omega⟩
    · obtain ⟨ha, -⟩ := columnStep_goes hd _ _ (answersOk_le s hk.1 (not_lt.mp hc))
      rw [setWindow, ha, andThen_ok] at hv
      have hr := rowStep_err hv
      exact ⟨fun h => absurd h hc, fun _ => hr.2, fun _ _ => hr.1, fun h => by omega⟩
  · have hs := setWindow_sent hd hx1 hx2 hy1 hy2 (answersOk_le s hk.1 (not_lt.mp hw))
    have hb := (hf (setWindow x y w h s).st).fields.2.2.1
    rw [hs, andThen_ok] at hu
    rw [hs] at hb
    simp only at hb
    rw [hu] at hb
    exact ⟨by rw [hs]; exact hb, fun h => by omega, fun _ => ⟨hb.1, hb.2.1, hb.2.2.1⟩,
      fun _ h => absurd h hw, fun _ => hb.2.2.2⟩

end Sys2Proof.Machine
end

