-- ==== Sys2Proof/Laws/Memory.lean ====
section
/-! SUPPORT. The frame buffer's memory: a read after a write, that every write keeps the canonical form and
the address bound, and what a copied row reads as. -/

namespace Sys2Proof.Machine

open Sys2Proof

namespace Memory

@[simp] theorem find_nil (a : Nat) : Memory.find [] a = none := rfl

theorem find_put_same (m : Memory) (a : Nat) (v : Byte) : Memory.find (Memory.put m a v) a = some v := by
  induction m with
  | nil => simp [Memory.put, Memory.find]
  | cons c m ih =>
    obtain ⟨b, u⟩ := c
    rcases Nat.lt_trichotomy a b with h | h | h
    · simp [Memory.put, Memory.find, h]
    · subst h; simp [Memory.put, Memory.find]
    · have h1 : ¬ a < b := by omega
      have h2 : a ≠ b := by omega
      simp [Memory.put, Memory.find, h1, h2, ih]

theorem find_put_other (m : Memory) {a x : Nat} (v : Byte) (hx : x ≠ a) :
    Memory.find (Memory.put m a v) x = Memory.find m x := by
  induction m with
  | nil => simp [Memory.put, Memory.find, hx]
  | cons c m ih =>
    obtain ⟨b, u⟩ := c
    rcases Nat.lt_trichotomy a b with h | h | h
    · simp [Memory.put, Memory.find, h, hx]
    · subst h; simp [Memory.put, Memory.find, hx]
    · have h1 : ¬ a < b := by omega
      have h2 : a ≠ b := by omega
      by_cases hb : x = b <;> simp [Memory.put, Memory.find, h1, h2, hb, ih]

/-- The addresses listed after a write are the one written and those listed before. -/
theorem mem_put {m : Memory} {a : Nat} {v : Byte} {c : Host.Cell} (h : c ∈ Memory.put m a v) :
    c = (a, v) ∨ c ∈ m := by
  induction m with
  | nil => simpa [Memory.put] using h
  | cons d m ih =>
    obtain ⟨b, u⟩ := d
    by_cases h1 : a < b
    · simpa [Memory.put, h1] using h
    · by_cases h2 : a = b
      · subst h2
        simp only [Memory.put, Nat.lt_irrefl, if_false, if_true] at h
        rcases List.mem_cons.mp h with h | h
        · exact .inl h
        · exact .inr (List.mem_cons_of_mem _ h)
      · simp only [Memory.put, h1, h2, if_false] at h
        rcases List.mem_cons.mp h with h | h
        · exact .inr (by simp [h])
        · rcases ih h with h | h
          · exact .inl h
          · exact .inr (List.mem_cons_of_mem _ h)

/-- A write keeps the canonical form. -/
theorem put_wf {m : Memory} (a : Nat) (v : Byte) (h : Memory.wf m) : Memory.wf (Memory.put m a v) := by
  induction m with
  | nil => simp [Memory.put, Memory.wf]
  | cons c m ih =>
    obtain ⟨b, u⟩ := c
    obtain ⟨hb, hm⟩ := List.pairwise_cons.mp h
    by_cases h1 : a < b
    · simp only [Memory.put, h1, if_true]
      refine List.pairwise_cons.mpr ⟨fun d hd => ?_, h⟩
      rcases List.mem_cons.mp hd with hd | hd
      · simpa [hd] using h1
      · exact Nat.lt_trans h1 (hb d hd)
    · by_cases h2 : a = b
      · subst h2
        simp only [Memory.put, Nat.lt_irrefl, if_false, if_true]
        exact List.pairwise_cons.mpr ⟨hb, hm⟩
      · simp only [Memory.put, h1, h2, if_false]
        refine List.pairwise_cons.mpr ⟨fun d hd => ?_, ih hm⟩
        rcases mem_put hd with hd | hd
        · simpa [hd] using (by omega : b < a)
        · exact hb d hd

theorem putBytes_wf {m : Memory} (a : Nat) (p : List Byte) (h : Memory.wf m) :
    Memory.wf (Memory.putBytes m a p) := by
  induction p generalizing m a with
  | nil => exact h
  | cons v vs ih => exact ih (a + 1) (put_wf a v h)

/-- A row inside the frame buffer leaves every listed address inside it. -/
theorem putBytes_bound {m : Memory} {n : Nat} (a : Nat) (p : List Byte)
    (h : ∀ c ∈ m, c.1 < n) (hp : a + p.length ≤ n) : ∀ c ∈ Memory.putBytes m a p, c.1 < n := by
  induction p generalizing m a with
  | nil => exact h
  | cons v vs ih =>
    have hl : a + 1 + vs.length ≤ n := by simp only [List.length_cons] at hp; omega
    refine ih (a + 1) (fun c hc => ?_) hl
    rcases mem_put hc with hc | hc
    · rw [hc]; show a < n; simp only [List.length_cons] at hp; omega
    · exact h c hc

/-- What an address reads as after `p` has been written at `a`. -/
theorem find_putBytes (m : Memory) (a : Nat) (p : List Byte) (x : Nat) :
    Memory.find (Memory.putBytes m a p) x =
      if a ≤ x ∧ x < a + p.length then p[x - a]? else Memory.find m x := by
  induction p generalizing m a with
  | nil => simp only [Memory.putBytes, List.length_nil]; rw [if_neg (by omega)]
  | cons v vs ih =>
    rw [Memory.putBytes, ih]
    simp only [List.length_cons]
    by_cases h0 : x = a
    · subst h0
      rw [if_neg (by omega), find_put_same, if_pos (by omega)]
      simp
    · rw [find_put_other _ _ h0]
      by_cases h1 : a ≤ x ∧ x < a + (vs.length + 1)
      · rw [if_pos (by omega), if_pos h1, show x - a = (x - (a + 1)) + 1 by omega]
        simp
      · rw [if_neg (by omega), if_neg h1]

end Memory

/-- A copied row: inside it `FB` reads as the payload, outside as before (R164). -/
theorem copyRow_fbByte (s : State) (o : Nat) (p : List Byte) (x : Nat) :
    (copyRow o p s).fbByte x =
      if o ≤ x ∧ x < o + p.length then p.getD (x - o) 0 else s.fbByte x := by
  unfold State.fbByte copyRow
  rw [Memory.find_putBytes]
  by_cases h : o ≤ x ∧ x < o + p.length
  · rw [if_pos h, if_pos h]
    have hx : x - o < p.length := by omega
    simp [List.getD, hx]
  · rw [if_neg h, if_neg h]

/-- `MemRead` byte by byte. -/
theorem fbRead_length (s : State) (a n : Nat) : (s.fbRead a n).length = n := by
  simp [State.fbRead]

theorem fbRead_getD (s : State) (a n i : Nat) (hi : i < n) : (s.fbRead a n).getD i 0 = s.fbByte (a + i) := by
  simp [State.fbRead, List.getD, hi]

/-- Reset memory is in canonical form. -/
theorem reset_fb_wf : Memory.wf State.reset.fb := List.Pairwise.nil

end Sys2Proof.Machine
end

