-- ==== Sys2Proof/Laws/View.lean ====
section
/-! SUPPORT. What the trace shows the controller was told: how the view grows with the trace, that it never
holds a payload for the axis it is waiting for, and that each procedure keeps the cache in step with it
(`10_state.md` R24). -/

namespace Sys2Proof.Machine

open Sys2Proof

/-! ## Growing -/

theorem busView_append (c : Config) (a b : List Event) :
    busView c (a ++ b) = b.foldl (BusView.see c) (busView c a) := by
  simp [busView, List.foldl_append]

@[simp] theorem busView_nil (c : Config) : busView c [] = BusView.start := rfl

/-- The view after a command byte (R90). -/
theorem see_commandEvents (c : Config) (v : BusView) (code : Byte) (ok : Bool) :
    (commandEvents code ok).foldl (BusView.see c) v =
      { dcLow := false
        axis := if ok = true ∧ code = c.cmdCaset then some .col
          else if ok = true ∧ code = c.cmdPaset then some .row else none
        col := if code = c.cmdCaset then none else v.col
        row := if code = c.cmdPaset then none else v.row
        last := some (code, ok) } := rfl

/-- The view after a data message (R91, R92). -/
theorem see_msg (c : Config) (v : BusView) (segs : List TraceSeg) (ok : Bool) (h : v.dcLow = false) :
    BusView.see c v (.msg segs ok) = v.data segs ok := by
  simp [BusView.see, h]

/-- While a payload is awaited for an axis, the view holds none for it, and the last command was that
axis's range-set command. -/
structure BusView.Waits (c : Config) (v : BusView) : Prop where
  col : v.axis = some .col → v.col = none ∧ v.last = some (c.cmdCaset, true)
  row : v.axis = some .row → v.row = none ∧ v.last = some (c.cmdPaset, true)

theorem waits_command {c : Config} {v : BusView} (segs : List TraceSeg) (ok : Bool) (h : v.Waits c) :
    (v.command c segs ok).Waits c := by
  unfold BusView.command
  split
  · rename_i b
    constructor
    · intro ha
      simp only at ha ⊢
      by_cases h1 : ok = true ∧ b = c.cmdCaset
      · simp [h1]
      · rw [if_neg h1] at ha
        split at ha <;> cases ha
    · intro ha
      simp only at ha ⊢
      by_cases h1 : ok = true ∧ b = c.cmdCaset
      · rw [if_pos h1] at ha; cases ha
      · rw [if_neg h1] at ha
        split at ha
        · rename_i h2; simp [h2]
        · cases ha
  · exact h

theorem data_axis (v : BusView) (segs : List TraceSeg) (ok : Bool) : (v.data segs ok).axis = none := by
  unfold BusView.data
  split <;> rfl

theorem waits_of_axis_none {c : Config} {v : BusView} (h : v.axis = none) : v.Waits c :=
  ⟨fun e => (by rw [h] at e; cases e), fun e => (by rw [h] at e; cases e)⟩

theorem waits_see {c : Config} {v : BusView} (e : Event) (h : v.Waits c) : (v.see c e).Waits c := by
  cases e with
  | dc l => exact ⟨h.col, h.row⟩
  | rst l => exact h
  | delay d => exact h
  | msg segs ok =>
    simp only [BusView.see]
    by_cases hd : v.dcLow = true
    · rw [if_pos hd]; exact waits_command segs ok h
    · rw [if_neg hd]; exact waits_of_axis_none (data_axis v segs ok)

theorem waits_busView (c : Config) (tr : List Event) : (busView c tr).Waits c := by
  suffices h : ∀ v : BusView, v.Waits c → (tr.foldl (BusView.see c) v).Waits c from
    h _ (waits_of_axis_none rfl)
  induction tr with
  | nil => exact fun v h => h
  | cons e tr ih => exact fun v h => ih _ (waits_see e h)

/-- A data message while nothing is awaited changes nothing. -/
theorem data_of_axis_none {v : BusView} (segs : List TraceSeg) (ok : Bool) (h : v.axis = none) :
    v.data segs ok = v := by
  obtain ⟨d, a, c, r, l⟩ := v
  simp only at h
  subst h
  simp [BusView.data]

/-- A data message never changes a payload the view holds, nor the last command. -/
theorem data_keeps {c : Config} {v : BusView} (segs : List TraceSeg) (ok : Bool) (h : v.Waits c) :
    (∀ p, v.col = some p → (v.data segs ok).col = some p) ∧
    (∀ p, v.row = some p → (v.data segs ok).row = some p) ∧ (v.data segs ok).last = v.last ∧
    (v.data segs ok).dcLow = v.dcLow ∧ (v.data segs ok).axis = none := by
  unfold BusView.data
  split
  · rename_i ha
    refine ⟨fun p hp => ?_, fun p hp => hp, rfl, rfl, rfl⟩
    rw [(h.col ha).1] at hp; cases hp
  · rename_i ha
    refine ⟨fun p hp => hp, fun p hp => ?_, rfl, rfl, rfl⟩
    rw [(h.row ha).1] at hp; cases hp
  · exact ⟨fun p hp => hp, fun p hp => hp, rfl, rfl, rfl⟩

/-! ## The commands are distinct (R71) -/

theorem wf_commands {c : Config} (h : c.wf = true) : c.commands.Nodup := by
  simp only [Config.wf, Bool.and_eq_true, decide_eq_true_eq] at h
  exact h.1.1.1

theorem caset_ne_paset {c : Config} (h : c.wf = true) : c.cmdCaset ≠ c.cmdPaset := by
  have := wf_commands h
  intro e
  simp [Config.commands, e] at this

/-- The commands that are no range-set command. -/
theorem plain_commands {c : Config} (h : c.wf = true) :
    (c.cmdNop ≠ c.cmdCaset ∧ c.cmdNop ≠ c.cmdPaset) ∧
    (c.cmdRamwr ≠ c.cmdCaset ∧ c.cmdRamwr ≠ c.cmdPaset) ∧
    (c.cmdRamrd ≠ c.cmdCaset ∧ c.cmdRamrd ≠ c.cmdPaset) ∧ c.cmdRamrd ≠ c.cmdRamwr := by
  have := wf_commands h
  simp only [Config.commands, List.nodup_cons, List.mem_cons, not_or] at this
  obtain ⟨⟨_, _, _, a, b, _⟩, _, _, _, ⟨_, c1, c2, _⟩, ⟨d1, d2, _⟩, ⟨e, _⟩, _⟩ := this
  exact ⟨⟨a, b⟩, ⟨fun h => c1 h.symm, fun h => d1 h.symm⟩,
    ⟨fun h => c2 h.symm, fun h => d2 h.symm⟩, fun h => e h.symm⟩

/-! ## Procedures keep the cache in step -/

/-- Ready for a procedure: the commands are distinct, the cache holds what the trace shows, `DC` is high
and the trace shows it. -/
structure InStep (s : State) : Prop where
  cfg   : s.cfg.wf = true
  cache : CacheInv s
  dc    : s.dc = true
  view  : s.view.dcLow = false

/-- What a procedure leaves: ready again, unless a message never completed. -/
def LeavesInStep {α : Type} (r : Run α) : Prop :=
  match r.res with
  | .ok _ => InStep r.st
  | .err _ => InStep r.st
  | .hung => r.st.cfg.wf = true ∧ CacheInv r.st ∧ r.st.hung = true ∧ r.st.view.dcLow = !r.st.dc

theorem LeavesInStep.andThen {α β : Type} {r : Run α} {f : α → State → Run β} (h : LeavesInStep r)
    (hf : ∀ a t, r = ⟨.ok a, t⟩ → InStep t → LeavesInStep (f a t)) : LeavesInStep (r.andThen f) := by
  obtain ⟨res, t⟩ := r
  cases res with
  | ok a => exact hf a t rfl h
  | err e => exact h
  | hung => exact h

/-- A cache axis that has been dropped is in step. -/
theorem InStep.dropCol {s : State} (h : InStep s) : InStep s.dropCol :=
  ⟨h.cfg, ⟨fun e => (by cases e), h.cache.2⟩, h.dc, h.view⟩

theorem InStep.dropRow {s : State} (h : InStep s) : InStep s.dropRow :=
  ⟨h.cfg, ⟨h.cache.1, fun e => (by cases e)⟩, h.dc, h.view⟩

/-- The view of the state a command leaves. -/
theorem view_sent_command (s : State) (code : Byte) (ok : Bool) (n : Nat) (l : Level) :
    ({ s.sent (commandEvents code ok) n with dc := l } : State).view =
      { dcLow := false
        axis := if ok = true ∧ code = s.cfg.cmdCaset then some .col
          else if ok = true ∧ code = s.cfg.cmdPaset then some .row else none
        col := if code = s.cfg.cmdCaset then none else s.view.col
        row := if code = s.cfg.cmdPaset then none else s.view.row
        last := some (code, ok) } := by
  show busView s.cfg (s.trace ++ commandEvents code ok) = _
  rw [busView_append, see_commandEvents]
  rfl

theorem view_sent_msg (s : State) (segs : List TraceSeg) (ok : Bool) (n : Nat)
    (h : s.view.dcLow = false) :
    (s.sent [.msg segs ok] n).view = s.view.data segs ok := by
  show busView s.cfg (s.trace ++ [.msg segs ok]) = _
  rw [busView_append]
  exact see_msg _ _ _ _ h

/-- `send_command` keeps the cache in step when no valid axis is the one it sets. -/
theorem sendCommand_inStep {s : State} {code : Byte} (h : InStep s)
    (hc : code = s.cfg.cmdCaset → s.ccolV = false) (hr : code = s.cfg.cmdPaset → s.crowV = false) :
    LeavesInStep (sendCommand code s) := by
  have key : ∀ ok, InStep { s.sent (commandEvents code ok) 1 with dc := true } := by
    intro ok
    refine ⟨h.cfg, ⟨fun e => ?_, fun e => ?_⟩, rfl, by rw [view_sent_command]⟩
    · have e' : s.ccolV = true := e
      rw [view_sent_command]
      show (if code = s.cfg.cmdCaset then none else s.view.col) = _
      rw [if_neg (fun hh => by rw [hc hh] at e'; cases e')]
      exact h.cache.1 e'
    · have e' : s.crowV = true := e
      rw [view_sent_command]
      show (if code = s.cfg.cmdPaset then none else s.view.row) = _
      rw [if_neg (fun hh => by rw [hr hh] at e'; cases e')]
      exact h.cache.2 e'
  rcases sendCommand_cases code s with ⟨rx, _, hb⟩ | ⟨_, hb⟩ | ⟨_, hb⟩ <;> rw [hb]
  · exact key true
  · exact key false
  · refine ⟨h.cfg, ⟨fun e => ?_, fun e => ?_⟩, rfl, ?_⟩
    · show (busView s.cfg (s.trace ++ [.dc false])).col = _
      rw [busView_append]
      exact h.cache.1 e
    · show (busView s.cfg (s.trace ++ [.dc false])).row = _
      rw [busView_append]
      exact h.cache.2 e
    · show (busView s.cfg (s.trace ++ [.dc false])).dcLow = true
      rw [busView_append]
      rfl

/-- A data message keeps the cache in step. -/
theorem bus_inStep {s : State} {segs : List Seg} (h : InStep s) : LeavesInStep (bus segs s) := by
  have key : ∀ ts ok, InStep (s.sent [.msg ts ok] 1) := by
    intro ts ok
    have hk := data_keeps ts ok (waits_busView s.cfg s.trace)
    refine ⟨h.cfg, ⟨fun e => ?_, fun e => ?_⟩, h.dc, ?_⟩
    · rw [view_sent_msg _ _ _ _ h.view]; exact hk.1 _ (h.cache.1 e)
    · rw [view_sent_msg _ _ _ _ h.view]; exact hk.2.1 _ (h.cache.2 e)
    · rw [view_sent_msg _ _ _ _ h.view]; exact hk.2.2.2.1.trans h.view
  cases ha : s.answer 0 with
  | ok rx => rw [bus_ok ha]; exact key _ _
  | fail => rw [bus_fail ha]; exact key _ _
  | never =>
    rw [bus_never ha]
    exact ⟨h.cfg, h.cache, rfl, by rw [show s.popAnswer.dc = true from h.dc]; exact h.view⟩

theorem sendData_inStep {s : State} {bytes : List Byte} (h : InStep s) :
    LeavesInStep (sendData bytes s) :=
  (bus_inStep h).andThen fun _ _ _ ht => ht

theorem columnStep_inStep {s : State} {x1 x2 : Half} (h : InStep s) :
    LeavesInStep (columnStep x1 x2 s) := by
  unfold columnStep
  split
  · exact h
  · refine (sendCommand_inStep h.dropCol (fun _ => rfl)
      (fun e => absurd e (caset_ne_paset h.cfg))).andThen fun _ t ht hi => ?_
    have ht' := sendCommand_eq_ok ht
    have hv : t.view.axis = some .col := by
      rw [ht']
      refine (congrArg BusView.axis (view_sent_command s.dropCol s.cfg.cmdCaset true 1 true)).trans ?_
      simp
    refine (sendData_inStep hi).andThen fun _ u hu hiu => ?_
    refine ⟨hiu.cfg, ⟨fun _ => ?_, hiu.cache.2⟩, hiu.dc, hiu.view⟩
    show u.view.col = _
    rw [sendData_eq_ok hu, dataEvent, view_sent_msg _ _ _ _ hi.view]
    simp [BusView.data, hv]

theorem rowStep_inStep {s : State} {y1 y2 : Half} (h : InStep s) :
    LeavesInStep (rowStep y1 y2 s) := by
  unfold rowStep
  split
  · exact h
  · refine (sendCommand_inStep h.dropRow
      (fun e => absurd e.symm (caset_ne_paset h.cfg)) (fun _ => rfl)).andThen fun _ t ht hi => ?_
    have ht' := sendCommand_eq_ok ht
    have hv : t.view.axis = some .row := by
      rw [ht']
      refine (congrArg BusView.axis (view_sent_command s.dropRow s.cfg.cmdPaset true 1 true)).trans ?_
      simp [(caset_ne_paset h.cfg).symm]
    refine (sendData_inStep hi).andThen fun _ u hu hiu => ?_
    refine ⟨hiu.cfg, ⟨hiu.cache.1, fun _ => ?_⟩, hiu.dc, hiu.view⟩
    show u.view.row = _
    rw [sendData_eq_ok hu, dataEvent, view_sent_msg _ _ _ _ hi.view]
    simp [BusView.data, hv]

theorem setWindow_inStep {s : State} {x y w h : Int} (hi : InStep s) :
    LeavesInStep (setWindow x y w h s) :=
  (columnStep_inStep hi).andThen fun _ _ _ ht => rowStep_inStep ht

theorem sendRows_inStep {s : State} {buf : List Byte} {n : Nat} (h : InStep s) :
    LeavesInStep (sendRows buf n s) := by
  induction n generalizing s with
  | zero => exact h
  | succ n ih => exact (sendData_inStep h).andThen fun _ _ _ ht => ih ht

theorem fillRect_inStep {s : State} {x y w h : Nat} {c : Color} (hi : InStep s) :
    LeavesInStep (fillRect x y w h c s) := by
  unfold fillRect
  have hp : InStep s.popAlloc := ⟨hi.cfg, hi.cache, hi.dc, hi.view⟩
  split
  · exact hp
  · refine (setWindow_inStep hp).andThen fun _ t _ ht => ?_
    have h1 := (plain_commands ht.cfg).2.1
    refine (sendCommand_inStep ht (fun e => absurd e h1.1)
      (fun e => absurd e h1.2)).andThen fun _ u _ hu => ?_
    refine (sendRows_inStep hu).andThen fun _ v _ hv => ?_
    have h2 := (plain_commands hv.cfg).1
    exact sendCommand_inStep hv (fun e => absurd e h2.1) (fun e => absurd e h2.2)

theorem dataPhase_inStep {segs : List Seg} {s : State} (h : InStep s) : LeavesInStep (dataPhase segs s) := by
  induction segs generalizing s with
  | nil => exact h
  | cons g rest ih => exact (bus_inStep h).andThen fun _ _ _ ht => ih ht

/-- Any frame keeps the cache in step while no axis is valid, as during the init script. -/
theorem sendFrame_inStep {f : CmdFrame} {s : State} (h : InStep s) (hc : s.ccolV = false)
    (hr : s.crowV = false) : LeavesInStep (sendFrame f s) :=
  (sendCommand_inStep h (fun _ => hc) (fun _ => hr)).andThen fun _ _ _ ht => dataPhase_inStep ht

theorem readPanel_inStep {s : State} {n : Nat} (hi : InStep s) : LeavesInStep (readPanel n s) := by
  refine (setWindow_inStep hi).andThen fun _ t _ ht => ?_
  have h1 := (plain_commands ht.cfg).2.2.1
  exact (sendCommand_inStep ht (fun e => absurd e h1.1)
    (fun e => absurd e h1.2)).andThen fun _ u _ hu => bus_inStep hu

end Sys2Proof.Machine
end

