-- ==== Sys2Proof/Laws/Requests.lean ====
section
/-! SUPPORT. The host requests: which procedure each row runs, and everything that procedure can do, said
once. -/

namespace Sys2Proof.Machine

open Sys2Proof

/-! ## The control call -/

theorem setModeCall_reject {a : Byte} (h : 3 ≤ a.toNat) (s : State) : setModeCall a s = rejectMode s := by
  have h0 : a ≠ Config.modeIdle := by intro e; subst e; simp [Config.modeIdle] at h
  have h1 : a ≠ Config.modeRect := by intro e; subst e; simp [Config.modeRect] at h
  have h2 : a ≠ Config.modeStream := by intro e; subst e; simp [Config.modeStream] at h
  rw [setModeCall, if_neg h0, if_neg h1, if_neg h2]

/-- The buffer is there or can be had (`43_mode_controller.md` R140). -/
theorem acquireFb_ok {s : State} (h : s.fbCreated = true ∨ s.allocOk = true) :
    acquireFb s = ⟨.ok (), if s.fbCreated then s else s.popAlloc.createFb⟩ := by
  unfold acquireFb
  by_cases hf : s.fbCreated = true
  · simp [hf]
  · rcases h with h | h
    · exact absurd h hf
    · simp [h, hf]

theorem acquireFb_raise {s : State} (hf : s.fbCreated = false) (h : s.allocOk = false) :
    acquireFb s = raise .noMem s.popAlloc := by
  simp [acquireFb, hf, h]

/-- The state in which arming starts to use the bus. -/
def State.streamBase (s : State) : State :=
  (if s.fbCreated then s else s.popAlloc.createFb).setMode .stream

@[simp] theorem streamBase_answer (s : State) (k : Nat) : s.streamBase.answer k = s.answer k := by
  unfold State.streamBase
  split <;> rfl

@[simp] theorem streamBase_windowEvents (s : State) (a b c d : Half) :
    s.streamBase.windowEvents a b c d = s.windowEvents a b c d := by
  unfold State.streamBase
  split <;> rfl

/-- What `set_mode(2)` has written before it uses the bus: the mode and the buffer (R140). -/
theorem streamBase_eq (s : State) :
    s.streamBase = { s with mode := .stream, fbCreated := true, env := s.streamBase.env } := by
  unfold State.streamBase State.setMode State.createFb State.popAlloc
  by_cases h : s.fbCreated = true
  · rw [if_pos h, ← h]
  · rw [if_neg h]

/-- Everything `set_mode(2)` can do (R140): no buffer and nothing touched, or the full-panel window and
`RAMWR` from the state with the mode and the buffer recorded. -/
theorem enterStream_cases (s : State) :
    (s.fbCreated = false ∧ s.allocOk = false ∧ enterStream s = ⟨.err .noMem, s.popAlloc⟩) ∨
    ((s.fbCreated = true ∨ s.allocOk = true) ∧
      enterStream s = (setFullWindow s.streamBase).andThen fun _ s => sendCommand s.cfg.cmdRamwr s) := by
  by_cases h : s.fbCreated = true ∨ s.allocOk = true
  · exact .inr ⟨h, by rw [enterStream, acquireFb_ok h, andThen_ok]; rfl⟩
  · simp only [not_or, Bool.not_eq_true] at h
    exact .inl ⟨h.1, h.2, by rw [enterStream, acquireFb_raise h.1 h.2]; rfl⟩

/-- What `set_mode(2)` leaves alone after the buffer is had, whatever the bus answers (R142). -/
theorem enterStream_onlyWindow (s : State) :
    OnlyWindow s.streamBase ((setFullWindow s.streamBase).andThen fun _ s =>
      sendCommand s.cfg.cmdRamwr s).st :=
  andThen_keeps (R := OnlyWindow) OnlyWindow.trans (setFullWindow_onlyWindow _) fun _ _ _ =>
    (sendCommand_onlyBus _ _).onlyWindow

/-- Arming keeps the cache in step with the trace (R24). -/
theorem enterStream_inStep {s : State} (h : InStep s) : LeavesInStep (enterStream s) := by
  rcases enterStream_cases s with ⟨_, _, e⟩ | ⟨_, e⟩ <;> rw [e]
  · exact ⟨h.cfg, h.cache, h.dc, h.view⟩
  · have hb : InStep s.streamBase := by
      rw [streamBase_eq]; exact ⟨h.cfg, h.cache, h.dc, h.view⟩
    refine (setWindow_inStep hb).andThen fun _ t _ ht => ?_
    have h1 := (plain_commands ht.cfg).2.1
    exact sendCommand_inStep ht (fun e => absurd e h1.1) (fun e => absurd e h1.2)

theorem setModeCall_inStep {s : State} (a : Byte) (h : InStep s) : LeavesInStep (setModeCall a s) := by
  unfold setModeCall
  split
  · exact ⟨h.cfg, h.cache, h.dc, h.view⟩
  split
  · exact ⟨h.cfg, h.cache, h.dc, h.view⟩
  split
  · exact enterStream_inStep h
  · exact ⟨h.cfg, h.cache, h.dc, h.view⟩

/-! ## The stream -/

/-- Everything a flush can do (`44_frame_stream.md` R166, R167). -/
theorem streamFlush_cases (s : State) :
    (∃ rx, s.answer 0 = .ok rx ∧ streamFlush s =
      ⟨.ok (), (s.sent [dataEvent (s.fbRead 0 Config.fbSize) true] 1).closeWindow⟩) ∨
    (s.answer 0 = .fail ∧ streamFlush s =
      ⟨.err .io, (s.sent [dataEvent (s.fbRead 0 Config.fbSize) false] 1).closeWindow⟩) ∨
    (s.answer 0 = .never ∧ streamFlush s = ⟨.hung, { s.popAnswer with hung := true }⟩) := by
  cases h : s.answer 0 with
  | ok rx => exact .inl ⟨rx, rfl, by simp only [streamFlush, sendData_ok h]⟩
  | fail => exact .inr (.inl ⟨rfl, by simp only [streamFlush, sendData_fail h]⟩)
  | never => exact .inr (.inr ⟨rfl, by simp only [streamFlush, sendData_never h]⟩)

/-- A flush keeps the cache in step with the trace (R24). -/
theorem streamFlush_inStep {s : State} (h : InStep s) : LeavesInStep (streamFlush s) := by
  have hd := sendData_inStep (bytes := s.fbRead 0 Config.fbSize) h
  unfold streamFlush
  revert hd
  rcases sendData (s.fbRead 0 Config.fbSize) s with ⟨res, t⟩
  intro hd
  cases res with
  | ok a => exact ⟨hd.cfg, hd.cache, hd.dc, hd.view⟩
  | err e => exact ⟨hd.cfg, hd.cache, hd.dc, hd.view⟩
  | hung => exact hd

/-- Everything a row can do (R164, R168, R169). -/
theorem streamRow_cases (p : List Byte) (s : State) :
    (s.cfg.strictRowLen = true ∧ (p.length : Int) ≠ Config.bpp * s.pwinW.toInt ∧
      streamRow p s = .fault (.rowLength p.length)) ∨
    ((s.rowOffset < 0 ∨ (Config.fbSize : Int) < s.rowOffset + p.length) ∧
      streamRow p s = .fault (.fbOverrun s.rowOffset p.length)) ∨
    (0 ≤ s.rowOffset ∧ s.rowOffset + p.length ≤ Config.fbSize ∧
      streamRow p s = .next (deliverVal (BitVec.ofNat 32 p.length)
        (afterCopy (copyRow s.rowOffset.toNat p s)))) := by
  unfold streamRow
  by_cases h1 : s.cfg.strictRowLen = true ∧ (p.length : Int) ≠ Config.bpp * s.pwinW.toInt
  · exact .inl ⟨h1.1, h1.2, by rw [if_pos h1]⟩
  · by_cases h2 : s.rowOffset < 0 ∨ (Config.fbSize : Int) < s.rowOffset + p.length
    · exact .inr (.inl ⟨h2, by rw [if_neg h1, if_pos h2]⟩)
    · have h3 := not_or.mp h2
      exact .inr (.inr ⟨by omega, by omega, by rw [if_neg h1, if_neg h2]⟩)

/-- A row that may be copied is copied (R164, R168, R169). -/
theorem streamRow_next {p : List Byte} {s : State}
    (hs : s.cfg.strictRowLen = false ∨ (p.length : Int) = Config.bpp * s.pwinW.toInt)
    (h0 : 0 ≤ s.rowOffset) (h1 : s.rowOffset + p.length ≤ Config.fbSize) :
    streamRow p s = .next (deliverVal (BitVec.ofNat 32 p.length)
      (afterCopy (copyRow s.rowOffset.toNat p s))) := by
  rw [streamRow, if_neg, if_neg]
  · omega
  · rintro ⟨h2, h3⟩
    rcases hs with hs | hs
    · rw [hs] at h2; cases h2
    · exact h3 hs

/-- The cursor moves by one row (R165). -/
theorem advanceRow_toInt {r h : Word} (h0 : 0 ≤ r.toInt) (h1 : r.toInt < h.toInt) :
    (r + 1).toInt = r.toInt + 1 := by
  have := BitVec.toInt_lt (x := h)
  rw [BitVec.toInt_add, show (1 : Word).toInt = 1 from by decide]
  apply Int.bmod_eq_of_le <;> omega

theorem nextRow_neg_one {r : Word} : r = -1 ↔ r.toInt = -1 := by
  rw [← BitVec.toInt_inj, show (-1 : Word).toInt = -1 from by decide]

/-! ## Which procedure a WRITE runs -/

/-- The four procedures of a WRITE, each in its mode (R143, R160). -/
inductive WriteRuns (s : State) (p : List Byte) : Host.Outcome State Fault Refusal → Prop where
  | idle (h : s.mode = .idle) : WriteRuns s p (writeIdle p s)
  | rect (h : s.mode = .rect) : WriteRuns s p (writeRect p s)
  | header (h : s.mode = .stream) (hr : s.nextRow = -1) (hl : p.length = Config.rectDescSize) :
      WriteRuns s p (streamHeader (wordAt p 0) (wordAt p 4) (wordAt p 8) (wordAt p 12) s)
  | badHeader (h : s.mode = .stream) (hr : s.nextRow = -1) (hl : p.length ≠ Config.rectDescSize) :
      WriteRuns s p (streamBadHeader s)
  | row (h : s.mode = .stream) (hr : s.nextRow ≠ -1) : WriteRuns s p (streamRow p s)

theorem writeDispatch_runs (s : State) (p : List Byte) : WriteRuns s p (writeDispatch p s) := by
  unfold writeDispatch streamWrite
  cases hm : s.mode with
  | idle => exact .idle hm
  | rect => exact .rect hm
  | stream =>
    by_cases hr : s.nextRow = -1
    · by_cases hl : p.length = Config.rectDescSize
      · simp only [hr, hl, if_true]; exact .header hm hr hl
      · simp only [hr, hl, if_true, if_false]; exact .badHeader hm hr hl
    · simp only [hr, if_false]; exact .row hm hr

/-- The payload of a WRITE, however its row is named (`30_encoding.md` R65). -/
def payload : Instr → List Byte
  | .write p => p
  | .writeIdle p => p
  | .writeRect p => p
  | .writeHdr x y w h => rectBytes x y w h
  | .writeBadhdr p => p
  | .writeRow p => p
  | _ => []

/-- A WRITE, under any of its six names, is the WRITE its state selects (R65, R143). -/
theorem exec_write {i : Instr} (s : State) (h : isWrite i = true) :
    exec i s = writeDispatch (payload i) s := by
  cases i <;> simp only [isWrite, reduceCtorEq] at h <;> simp only [exec, payload]
  · rfl
  · unfold execWriteIdle; split
    · rename_i hm; simp only [writeDispatch, hm]
    · rfl
  · unfold execWriteRect; split
    · rename_i hm; simp only [writeDispatch, hm]
    · rfl
  · rename_i x y w h'
    unfold execWriteHdr; split
    · rename_i hm
      obtain ⟨f0, f1, f2, f3⟩ := rectBytes_fields x y w h'
      simp only [writeDispatch, hm.1, streamWrite, hm.2, if_true, rectBytes_length, Config.rectDescSize,
        f0, f1, f2, f3]
    · rfl
  · unfold execWriteBadhdr; split
    · rename_i hm; simp only [writeDispatch, hm.1, streamWrite, hm.2.1, if_true, hm.2.2, if_false]
    · rfl
  · unfold execWriteRow; split
    · rename_i hm
      have hr : s.nextRow ≠ -1 := by
        intro e; have := nextRow_neg_one.mp e; omega
      simp only [writeDispatch, hm.1, streamWrite, hr, if_false]
    · rfl

/-- The host port's decoder reads host rows only (`30_encoding.md` R60). -/
theorem decode_isHost {c : Config} {bytes rest : List Byte} {i : Instr}
    (h : decode c bytes = .ok i rest) : i.isHost = true := by
  unfold decode at h
  split at h
  · cases h
  split at h
  · unfold decodeWrite at h
    split at h
    · simp only at h
      split at h
      · cases h
      · split at h <;> cases h
        rfl
    · cases h
  split at h
  · unfold decodeRead at h
    split at h
    · simp only at h
      split at h <;> cases h
      rfl
    · cases h
  split at h
  · unfold decodeCtrl at h
    split at h
    · cases h
      unfold ctrlCall
      repeat' split
      all_goals rfl
    · cases h
  · cases h

/-- What `deliver` keeps: a response changes nothing but the responses. -/
theorem deliver_keeps {α : Type} {P : State → Prop} (v : α → Word) (d : α → List Byte) {r : Run α}
    (hresp : ∀ t st val data, P t → P (t.respond st val data)) (h : P r.st) : P (deliver v d r) := by
  rcases deliver_cases v d r with ⟨a, _, e⟩ | ⟨e', _, e⟩ | ⟨_, e⟩ <;> rw [e]
  · exact hresp _ _ _ _ h
  · exact hresp _ _ _ _ h
  · exact h

end Sys2Proof.Machine
end

