-- ==== Sys2Proof/Laws/Hung.lean ====
section
/-! SUPPORT. A message that never completes (`40_transaction_layer.md` R94): a procedure marks the block as
waiting exactly when it does not return, and no procedure answers a request by itself. -/

namespace Sys2Proof.Machine

open Sys2Proof

/-- The run `r` from `s` has answered nothing, and it has not returned or has left the mark alone. -/
def Waits {α : Type} (s : State) (r : Run α) : Prop :=
  r.st.responses = s.responses ∧ (r.res = .hung ∨ r.st.hung = s.hung)

theorem Waits.rfl' {α : Type} (s : State) (res : Res α) : Waits s ⟨res, s⟩ := ⟨rfl, .inr rfl⟩

/-- `call P?` followed by more. -/
theorem Waits.andThen {α β : Type} {s : State} {r : Run α} {f : α → State → Run β} (h : Waits s r)
    (hf : ∀ a t, Waits t (f a t)) : Waits s (r.andThen f) := by
  obtain ⟨res, t⟩ := r
  obtain ⟨h1, h2⟩ := h
  cases res with
  | ok a =>
    obtain ⟨g1, g2⟩ := hf a t
    have h3 : t.hung = s.hung := h2.resolve_left (fun e => by cases e)
    exact ⟨g1.trans h1, g2.imp_right (·.trans h3)⟩
  | err e => exact ⟨h1, .inr (h2.resolve_left (fun e => by cases e))⟩
  | hung => exact ⟨h1, .inl rfl⟩

/-- A request that is answered leaves the mark alone; one that is not has no response (R94). -/
theorem Waits.deliver {α : Type} {s : State} {r : Run α} (h : Waits s r) (v : α → Word)
    (d : α → List Byte) (hs : s.hung = false) (hd : (deliver v d r).hung = true) :
    (deliver v d r).responses = s.responses := by
  obtain ⟨res, t⟩ := r
  cases res with
  | ok a =>
    have e : t.hung = true := hd
    rw [show t.hung = s.hung from h.2.resolve_left (fun e => by cases e), hs] at e
    cases e
  | err e' =>
    have e : t.hung = true := hd
    rw [show t.hung = s.hung from h.2.resolve_left (fun e => by cases e), hs] at e
    cases e
  | hung => exact h.1

theorem bus_waits (segs : List Seg) (s : State) : Waits s (bus segs s) := by
  rcases bus_cases segs s with ⟨rx, _, h⟩ | ⟨_, h⟩ | ⟨_, h⟩ <;> rw [h]
  · exact ⟨rfl, .inr rfl⟩
  · exact ⟨rfl, .inr rfl⟩
  · exact ⟨rfl, .inl rfl⟩

theorem sendCommand_waits (code : Byte) (s : State) : Waits s (sendCommand code s) := by
  rcases sendCommand_cases code s with ⟨rx, _, h⟩ | ⟨_, h⟩ | ⟨_, h⟩ <;> rw [h]
  · exact ⟨rfl, .inr rfl⟩
  · exact ⟨rfl, .inr rfl⟩
  · exact ⟨rfl, .inl rfl⟩

theorem sendData_waits (bytes : List Byte) (s : State) : Waits s (sendData bytes s) :=
  (bus_waits [.tx bytes] s).andThen fun _ t => Waits.rfl' t _

theorem columnStep_waits (x1 x2 : Half) (s : State) : Waits s (columnStep x1 x2 s) := by
  unfold columnStep
  split
  · exact Waits.rfl' s _
  · exact (sendCommand_waits s.cfg.cmdCaset s.dropCol).andThen fun _ t =>
      (sendData_waits _ t).andThen fun _ _ => ⟨rfl, .inr rfl⟩

theorem rowStep_waits (y1 y2 : Half) (s : State) : Waits s (rowStep y1 y2 s) := by
  unfold rowStep
  split
  · exact Waits.rfl' s _
  · exact (sendCommand_waits s.cfg.cmdPaset s.dropRow).andThen fun _ t =>
      (sendData_waits _ t).andThen fun _ _ => ⟨rfl, .inr rfl⟩

theorem setWindow_waits (x y w h : Int) (s : State) : Waits s (setWindow x y w h s) :=
  (columnStep_waits _ _ s).andThen fun _ t => rowStep_waits _ _ t

theorem sendRows_waits (buf : List Byte) (n : Nat) (s : State) : Waits s (sendRows buf n s) := by
  induction n generalizing s with
  | zero => exact Waits.rfl' s _
  | succ n ih => exact (sendData_waits buf s).andThen fun _ t => ih t

theorem fillRect_waits (x y w h : Nat) (c : Color) (s : State) : Waits s (fillRect x y w h c s) := by
  unfold fillRect
  split
  · exact ⟨rfl, .inr rfl⟩
  · exact (setWindow_waits _ _ _ _ s.popAlloc).andThen fun _ t =>
      (sendCommand_waits _ t).andThen fun _ u =>
        (sendRows_waits _ _ u).andThen fun _ v => sendCommand_waits _ v

theorem readPanel_waits (n : Nat) (s : State) : Waits s (readPanel n s) :=
  (setWindow_waits _ _ _ _ s).andThen fun _ t => (sendCommand_waits _ t).andThen fun _ u => bus_waits _ u

theorem dataPhase_waits (segs : List Seg) (s : State) : Waits s (dataPhase segs s) := by
  induction segs generalizing s with
  | nil => exact Waits.rfl' s _
  | cons g rest ih => exact (bus_waits [g] s).andThen fun _ t => ih t

theorem sendFrame_waits (f : CmdFrame) (s : State) : Waits s (sendFrame f s) :=
  (sendCommand_waits f.code s).andThen fun _ t => dataPhase_waits f.data t

theorem acquireFb_waits (s : State) : Waits s (acquireFb s) := by
  unfold acquireFb
  split
  · exact Waits.rfl' s _
  split
  · exact ⟨rfl, .inr rfl⟩
  · exact ⟨rfl, .inr rfl⟩

theorem setModeCall_waits (a : Byte) (s : State) : Waits s (setModeCall a s) := by
  unfold setModeCall
  split
  · exact ⟨rfl, .inr rfl⟩
  split
  · exact ⟨rfl, .inr rfl⟩
  split
  · exact (acquireFb_waits s).andThen fun _ t =>
      Waits.andThen (s := t) (setWindow_waits _ _ _ _ (t.setMode .stream)) fun _ u => sendCommand_waits _ u
  · exact ⟨rfl, .inr rfl⟩

theorem streamFlush_waits (s : State) : Waits s (streamFlush s) := by
  rcases streamFlush_cases s with ⟨rx, _, h⟩ | ⟨_, h⟩ | ⟨_, h⟩ <;> rw [h]
  · exact ⟨rfl, .inr rfl⟩
  · exact ⟨rfl, .inr rfl⟩
  · exact ⟨rfl, .inl rfl⟩

theorem afterCopy_waits (s : State) : Waits s (afterCopy s) := by
  unfold afterCopy
  split
  · exact streamFlush_waits s
  · exact ⟨rfl, .inr rfl⟩

end Sys2Proof.Machine
end

