-- ==== Sys2Proof/Laws/PerInstr.lean ====
section
/-! SUPPORT. Statements for all instructions, made per instruction: the port an instruction travels on, and
that the request its bytes select is well-formed when it is. -/

/-! ## The port (`30_encoding.md` R78) -/

namespace Sys2Proof.Laws.EncodesOnItsPort

open Sys2Proof

/-- A host row is encoded as bytes, a bus row as a frame. -/
def Statement (i : Instr) : Prop :=
  ∀ c : Config, (i.isHost = true → ∃ bytes, encode c i = .host bytes) ∧
    (i.isHost = false → ∃ f, encode c i = .bus f)

theorem write (p : List Byte) : Statement (.write p) :=
  fun _ => ⟨fun _ => ⟨_, rfl⟩, (nomatch ·)⟩
theorem read (n : Word) : Statement (.read n) :=
  fun _ => ⟨fun _ => ⟨_, rfl⟩, (nomatch ·)⟩
theorem setmodeIdle : Statement .setmodeIdle :=
  fun _ => ⟨fun _ => ⟨_, rfl⟩, (nomatch ·)⟩
theorem setmodeRect : Statement .setmodeRect :=
  fun _ => ⟨fun _ => ⟨_, rfl⟩, (nomatch ·)⟩
theorem setmodeStream : Statement .setmodeStream :=
  fun _ => ⟨fun _ => ⟨_, rfl⟩, (nomatch ·)⟩
theorem setmodeInvalid (a : Byte) : Statement (.setmodeInvalid a) :=
  fun _ => ⟨fun _ => ⟨_, rfl⟩, (nomatch ·)⟩
theorem ctrlUnknown (r a : Byte) : Statement (.ctrlUnknown r a) :=
  fun _ => ⟨fun _ => ⟨_, rfl⟩, (nomatch ·)⟩
theorem writeIdle (p : List Byte) : Statement (.writeIdle p) :=
  fun _ => ⟨fun _ => ⟨_, rfl⟩, (nomatch ·)⟩
theorem writeRect (p : List Byte) : Statement (.writeRect p) :=
  fun _ => ⟨fun _ => ⟨_, rfl⟩, (nomatch ·)⟩
theorem writeHdr (x y w h : Word) : Statement (.writeHdr x y w h) :=
  fun _ => ⟨fun _ => ⟨_, rfl⟩, (nomatch ·)⟩
theorem writeBadhdr (p : List Byte) : Statement (.writeBadhdr p) :=
  fun _ => ⟨fun _ => ⟨_, rfl⟩, (nomatch ·)⟩
theorem writeRow (p : List Byte) : Statement (.writeRow p) :=
  fun _ => ⟨fun _ => ⟨_, rfl⟩, (nomatch ·)⟩
theorem nop : Statement .nop :=
  fun _ => ⟨(nomatch ·), fun _ => ⟨_, rfl⟩⟩
theorem swreset : Statement .swreset :=
  fun _ => ⟨(nomatch ·), fun _ => ⟨_, rfl⟩⟩
theorem slpout : Statement .slpout :=
  fun _ => ⟨(nomatch ·), fun _ => ⟨_, rfl⟩⟩
theorem dispon : Statement .dispon :=
  fun _ => ⟨(nomatch ·), fun _ => ⟨_, rfl⟩⟩
theorem caset (x1 x2 : Half) : Statement (.caset x1 x2) :=
  fun _ => ⟨(nomatch ·), fun _ => ⟨_, rfl⟩⟩
theorem paset (y1 y2 : Half) : Statement (.paset y1 y2) :=
  fun _ => ⟨(nomatch ·), fun _ => ⟨_, rfl⟩⟩
theorem ramwr (ms : List (List Byte)) : Statement (.ramwr ms) :=
  fun _ => ⟨(nomatch ·), fun _ => ⟨_, rfl⟩⟩
theorem ramrd (n : Word) : Statement (.ramrd n) :=
  fun _ => ⟨(nomatch ·), fun _ => ⟨_, rfl⟩⟩
theorem pixfmt (d : List Byte) : Statement (.pixfmt d) :=
  fun _ => ⟨(nomatch ·), fun _ => ⟨_, rfl⟩⟩

end Sys2Proof.Laws.EncodesOnItsPort

/-! ## The request (R65) -/

namespace Sys2Proof.Laws.RequestIsWellFormed

open Sys2Proof

/-- The request whose bytes a well-formed instruction has is well-formed too. -/
def Statement (i : Instr) : Prop := ∀ c : Config, i.wf c = true → i.asRequest.wf c = true

theorem write (p : List Byte) : Statement (.write p) := fun _ h => h
theorem read (n : Word) : Statement (.read n) := fun _ h => h
theorem setmodeIdle : Statement .setmodeIdle := fun _ h => h
theorem setmodeRect : Statement .setmodeRect := fun _ h => h
theorem setmodeStream : Statement .setmodeStream := fun _ h => h
theorem setmodeInvalid (a : Byte) : Statement (.setmodeInvalid a) := fun _ h => h
theorem ctrlUnknown (r a : Byte) : Statement (.ctrlUnknown r a) := fun _ h => h
theorem writeIdle (p : List Byte) : Statement (.writeIdle p) := fun _ h => h
theorem writeRect (p : List Byte) : Statement (.writeRect p) := fun _ h => h
theorem writeHdr (x y w h : Word) : Statement (.writeHdr x y w h) := fun c h => by
  simpa only [Instr.asRequest, Instr.wf, rectBytes_length, Config.rectDescSize] using h
theorem writeBadhdr (p : List Byte) : Statement (.writeBadhdr p) := fun _ h => (Bool.and_eq_true_iff.mp h).1
theorem writeRow (p : List Byte) : Statement (.writeRow p) := fun _ h => h
theorem nop : Statement .nop := fun _ h => h
theorem swreset : Statement .swreset := fun _ h => h
theorem slpout : Statement .slpout := fun _ h => h
theorem dispon : Statement .dispon := fun _ h => h
theorem caset (x1 x2 : Half) : Statement (.caset x1 x2) := fun _ h => h
theorem paset (y1 y2 : Half) : Statement (.paset y1 y2) := fun _ h => h
theorem ramwr (ms : List (List Byte)) : Statement (.ramwr ms) := fun _ h => h
theorem ramrd (n : Word) : Statement (.ramrd n) := fun _ h => h
theorem pixfmt (d : List Byte) : Statement (.pixfmt d) := fun _ h => h

end Sys2Proof.Laws.RequestIsWellFormed
end

