-- ==== Sys2Proof/Laws/Reset.lean ====
section
/-! SUPPORT. The reset input: what a step does under it, everything a step that answers a next state can have
done, and that a reset meets the invariant. -/

namespace Sys2Proof.Machine

open Sys2Proof

theorem step_of_idle {s : State} (h : s.resetNow = .idle) : step s = advance s.popReset := by
  rw [step, h, stepUnder]

theorem step_of_before {s : State} (h : s.resetNow = .before) : step s = .next s.popReset.restart := by
  rw [step, h, stepUnder]

theorem step_of_within {s : State} (h : s.resetNow = .within) :
    step s = .next (abandonRequest s.popReset).restart := by
  rw [step, h, stepUnder]

theorem ready_iff (s : State) :
    s.ready = true ↔ s.hung = false ∧ s.phase = .done ∧ s.attached = true := by
  simp [State.ready, and_assoc]

/-- Everything `abandonRequest` can do: nothing, or take the request at the head of the port. -/
theorem abandonRequest_cases (s : State) :
    abandonRequest s = s ∨
    ∃ i rest, s.ready = true ∧ decode s.cfg s.hostIn = .ok i rest ∧
      abandonRequest s = { s with hostIn := rest } := by
  unfold abandonRequest takeRequest
  split
  · rename_i hr
    cases hd : decode s.cfg s.hostIn with
    | ok i rest => exact .inr ⟨i, rest, hr, rfl, rfl⟩
    | reject why => exact .inl rfl
  · exact .inl rfl

theorem abandonRequest_of_ready {s : State} {i : Instr} {rest : List Byte} (hr : s.ready = true)
    (hd : decode s.cfg s.hostIn = .ok i rest) : abandonRequest s = { s with hostIn := rest } := by
  simp [abandonRequest, takeRequest, hr, hd]

theorem abandonRequest_of_not_ready {s : State} (hr : s.ready = false) : abandonRequest s = s := by
  simp [abandonRequest, hr]

/-- Everything a step that answers a next state can have done: what the block does when no reset is asserted,
or a reset, of the state as it was or with one request's bytes taken (`70_reset_and_hazards.md` R230). -/
theorem step_cases {s t : State} (h : step s = .next t) :
    (s.resetNow = .idle ∧ advance s.popReset = .next t) ∨
    (s.resetNow ≠ .idle ∧ ∃ bytes, t = { s.popReset with hostIn := bytes }.restart ∧
      (bytes = s.hostIn ∨ s.ready = true ∧ ∃ i, decode s.cfg s.hostIn = .ok i bytes)) := by
  cases hr : s.resetNow with
  | idle => exact .inl ⟨rfl, by rw [← step_of_idle hr]; exact h⟩
  | before =>
    rw [step_of_before hr] at h
    cases h
    exact .inr ⟨by decide, s.hostIn, rfl, .inl rfl⟩
  | within =>
    rw [step_of_within hr] at h
    cases h
    refine .inr ⟨by decide, ?_⟩
    rcases abandonRequest_cases s.popReset with e | ⟨i, rest, hready, hd, e⟩ <;> rw [e]
    · exact ⟨s.hostIn, rfl, .inl rfl⟩
    · exact ⟨rest, rfl, .inr ⟨hready, i, hd⟩⟩

/-- A reset with well-formed parameters meets the invariant, whatever the state before it. -/
theorem restart_invariant {s : State} (h : s.cfg.wf = true) : Invariant s.restart :=
  ⟨h, ⟨by simp, fun e => absurd rfl e⟩, ⟨fun e => (by cases e), fun e => (by cases e)⟩, ⟨.inr rfl, rfl⟩,
    ⟨List.Pairwise.nil, fun _ hc => (by cases hc)⟩, ⟨fun _ => ⟨rfl, rfl, rfl, rfl⟩, fun e => (by cases e)⟩⟩

end Sys2Proof.Machine
end

