-- ==== Sys2Proof/Tests/Slice0.lean ====
section
/-! SUPPORT. Tests of the model. Expected values are the vectors V1 to V65 and the programs P1 to P5 of
`spec/95_test_vectors.md`, or written out from the encodings of `spec/30_encoding.md`; the last part shows,
for every statement with hypotheses, concrete values that meet them. -/

namespace Sys2Proof.Tests

open Sys2Proof Sys2Proof.Machine

/-! ## Small states -/

/-- The launch state (R37), with the answers of the next bus messages. -/
def launch (answers : List BusAnswer) : State :=
  { State.launch Config.reference with env := ⟨answers, 0, [true], 0, [], 0⟩ }

/-- `n` messages that end `ok` (and receive nothing). -/
def oks (n : Nat) : List BusAnswer := List.replicate n (.ok [])

/-- `!fail k`: the `k`-th message ends `fail`, those before it `ok`. -/
def failing (k : Nat) : List BusAnswer := oks (k - 1) ++ [.fail]

/-- The trace of `SETMODE 2` from launch (V33). -/
def armTrace : List Event :=
  [.dc false, .msg [.tx [0x2A]] true, .dc true, .msg [.tx [0x00, 0x00, 0x00, 0xEF]] true,
   .dc false, .msg [.tx [0x2B]] true, .dc true, .msg [.tx [0x00, 0x00, 0x01, 0x3F]] true,
   .dc false, .msg [.tx [0x2C]] true, .dc true]

/-- The state after V33, with the answers of the next bus messages. -/
def armed (answers : List BusAnswer) : State :=
  { launch answers with
    mode := .stream, fbCreated := true, trace := armTrace
    ccolV := true, ccolX1 := 0, ccolX2 := 239, crowV := true, crowY1 := 0, crowY2 := 319 }

/-- A pending sub-window `x, y, w, h` that has had `r` rows. -/
def pending (x y w h r : Word) (answers : List BusAnswer) : State :=
  { armed answers with pwinV := true, pwinX := x, pwinY := y, pwinW := w, pwinH := h, nextRow := r }

/-- RectTest mode, with one draw listed. -/
def rectTest (d : RectDraw) (answers : List BusAnswer) : State :=
  { launch answers with mode := .rect, env := ⟨answers, 0, [true], 0, [d], 0⟩ }

/-- The outcome is a next state with the property. -/
def after (o : Host.Outcome State Fault Refusal) (p : State → Bool) : Bool :=
  match o with
  | .next t => p t
  | .fault _ => false
  | .refused _ => false

/-- The outcome is the fault. -/
def faults (o : Host.Outcome State Fault Refusal) (f : Fault) : Bool :=
  match o with
  | .next _ => false
  | .fault g => decide (g = f)
  | .refused _ => false

/-- The one response so far. -/
def gave (t : State) (r : Response) : Bool := decide (t.responses = [r])

/-- What a step added to the trace. -/
def added (s t : State) : List Event := t.trace.drop s.trace.length

/-! ## Well-formedness: one ill-formed term for each check -/

/-- A configuration that admits lengths up to 15. -/
def small : Config := { Config.reference with maxLen := 15 }

theorem test_wf_write : (Instr.write (List.replicate 16 0)).wf small = false := by decide
theorem test_wf_read : (Instr.read 16).wf small = false := by decide
theorem test_wf_setmodeInvalid : (Instr.setmodeInvalid 2).wf small = false := by decide
theorem test_wf_ctrlUnknown : (Instr.ctrlUnknown 0x00 7).wf small = false := by decide
theorem test_wf_writeIdle : (Instr.writeIdle (List.replicate 16 0)).wf small = false := by decide
theorem test_wf_writeRect : (Instr.writeRect (List.replicate 16 0)).wf small = false := by decide
theorem test_wf_writeHdr : (Instr.writeHdr 0 0 1 1).wf small = false := by decide
theorem test_wf_writeBadhdr : (Instr.writeBadhdr (List.replicate 16 0)).wf Config.reference = false ∧
    (Instr.writeBadhdr (List.replicate 17 0)).wf small = false := by decide
theorem test_wf_writeRow : (Instr.writeRow (List.replicate 16 0)).wf small = false := by decide
theorem test_wf_ramwr : (Instr.ramwr [[1], []]).wf small = false := by decide
theorem test_wf_ramrd : (Instr.ramrd 16).wf small = false := by decide
theorem test_wf_config :
    { Config.reference with cmdNop := 0x2C }.wf = false ∧
    { Config.reference with rtYlim := 200 }.wf = false ∧
    { Config.reference with maxLen := 2 ^ 32 }.wf = false ∧
    { Config.reference with initScript := [⟨0x01, [], 0⟩, ⟨0x11, [], 0⟩] }.wf = false ∧
    Config.reference.wf = true := by decide

/-! ## Decoding -/

/-- V1, V2, V3 and the other two modes (R63, R64). -/
theorem test_decode_control :
    decode Config.reference [0x02, 0x00, 0x00] = .ok .setmodeIdle [] ∧
    decode Config.reference [0x02, 0x00, 0x01] = .ok .setmodeRect [] ∧
    decode Config.reference [0x02, 0x00, 0x02] = .ok .setmodeStream [] ∧
    decode Config.reference [0x02, 0x00, 0x63] = .ok (.setmodeInvalid 99) [] ∧
    decode Config.reference [0x02, 0x00, 0x03] = .ok (.setmodeInvalid 3) [] ∧
    decode Config.reference [0x02, 0x07, 0x02] = .ok (.ctrlUnknown 7 2) [] := by decide

/-- V4, V5: the length and the count are little-endian (R60). -/
theorem test_decode_write :
    decode Config.reference [0x00, 0x03, 0x00, 0x00, 0x00, 0xAA, 0xBB, 0xCC] =
      .ok (.write [0xAA, 0xBB, 0xCC]) [] := by decide
theorem test_decode_read :
    decode Config.reference [0x01, 0x04, 0x03, 0x02, 0x01, 0x77] = .ok (.read 0x01020304) [0x77] := by
  decide

/-- V6 and R74: what is not a request. -/
theorem test_decode_rejects :
    decode Config.reference [0x03, 0x00] = .reject (.reservedSelector 3) ∧
    decode Config.reference [0x00, 0x02, 0x00, 0x00, 0x00, 0xAA] = .reject .truncated ∧
    decode Config.reference [0x02, 0x00] = .reject .truncated ∧
    decode small [0x01, 0x10, 0x00, 0x00, 0x00] = .reject (.overMaxLen 16) := by decide

/-- R65: the same bytes by state. The payloads are V7 and three bytes. -/
theorem test_decode_write_by_state :
    writeVariant .idle (-1) [1, 2, 3] = .writeIdle [1, 2, 3] ∧
    writeVariant .rect (-1) [1, 2, 3] = .writeRect [1, 2, 3] ∧
    writeVariant .stream (-1) [0x0A, 0, 0, 0, 0x14, 0, 0, 0, 4, 0, 0, 0, 3, 0, 0, 0] =
      .writeHdr 10 20 4 3 ∧
    writeVariant .stream (-1) [1, 2, 3] = .writeBadhdr [1, 2, 3] ∧
    writeVariant .stream 0 [1, 2, 3] = .writeRow [1, 2, 3] := by decide

/-- V7, V8. -/
theorem test_rect_descriptor :
    encode Config.reference (.writeHdr 10 20 4 3) =
      .host [0x00, 0x10, 0x00, 0x00, 0x00, 0x0A, 0x00, 0x00, 0x00, 0x14, 0x00, 0x00, 0x00, 0x04, 0x00,
        0x00, 0x00, 0x03, 0x00, 0x00, 0x00] ∧
    (wordAt [0xFF, 0xFF, 0xFF, 0xFF, 0, 0, 0, 0, 1, 0, 0, 0, 1, 0, 0, 0] 0).toInt = -1 := by decide

/-- The bus rows (R71) from their frames. -/
theorem test_decode_bus_bare :
    decodeBus Config.reference ⟨0x00, []⟩ = .ok .nop [] ∧
    decodeBus Config.reference ⟨0x01, []⟩ = .ok .swreset [] ∧
    decodeBus Config.reference ⟨0x11, []⟩ = .ok .slpout [] ∧
    decodeBus Config.reference ⟨0x29, []⟩ = .ok .dispon [] := by decide

/-- V9's payloads, `RAMWR`, `RAMRD`, `PIXFMT` and a vendor command. -/
theorem test_decode_bus_data :
    decodeBus Config.reference ⟨0x2A, [.tx [0x00, 0xC8, 0x00, 0xEF]]⟩ = .ok (.caset 200 239) [] ∧
    decodeBus Config.reference ⟨0x2B, [.tx [0x01, 0x2C, 0x01, 0x3F]]⟩ = .ok (.paset 300 319) [] ∧
    decodeBus Config.reference ⟨0x2C, [.tx [0xF8, 0x00], .tx [1]]⟩ = .ok (.ramwr [[0xF8, 0x00], [1]]) [] ∧
    decodeBus Config.reference ⟨0x2E, [.rx 4]⟩ = .ok (.ramrd 4) [] ∧
    decodeBus Config.reference ⟨0x3A, [.tx [0x55]]⟩ = .ok (.pixfmt [0x55]) [] ∧
    decodeBus Config.reference ⟨0xB1, [.tx [0x00]]⟩ = .reject (.noBusRow 0xB1) := by decide

/-- Words of the opcode table, numbered as R78 numbers them: byte 0 leftmost. -/
theorem test_table_words :
    decodeTableWord 8 0x00 = some (.write []) ∧ decodeTableWord 8 0x01 = some (.read 0) ∧
    decodeTableWord 24 0x020001 = some .setmodeRect ∧
    decodeTableWord 24 0x020063 = some (.setmodeInvalid 0x63) ∧
    decodeTableWord 24 0x020702 = some (.ctrlUnknown 7 2) ∧
    decodeTableWord 40 0x0010000000 = some (.write (List.replicate 16 0)) ∧
    decodeTableWord 8 0x29 = some .dispon ∧ decodeTableWord 8 0x2B = some (.paset 0 0) ∧
    decodeTableWord 8 0x3A = some (.pixfmt []) ∧ decodeTableWord 8 0x05 = none := by decide

/-! ## Transaction Layer (V15 to V19) -/

theorem test_sendCommand :
    (sendCommand 0x2C (launch (oks 1))).st.trace = [.dc false, .msg [.tx [0x2C]] true, .dc true] := by
  decide
theorem test_sendCommand_fail :
    (sendCommand 0x00 (launch (failing 1))).res = .err .io ∧
    (sendCommand 0x00 (launch (failing 1))).st.trace =
      [.dc false, .msg [.tx [0x00]] false, .dc true] := by decide
theorem test_readData :
    (readData 2 (launch [.ok [0x12, 0x34]])).res = .ok [0x12, 0x34] ∧
    (readData 2 (launch [.ok [0x12, 0x34]])).st.trace = [.msg [.rx 2 [0x12, 0x34]] true] := by decide
theorem test_readData_fail :
    (readData 2 (launch (failing 1))).res = .err .io ∧
    (readData 2 (launch (failing 1))).st.trace = [.msg [.rx 2 []] false] := by decide

/-! ## Address Window Cache (V10, V12 to V14, V21 to V24) -/

theorem test_window_cold :
    (setWindow 0 0 240 320 (launch (oks 4))).st.trace = armTrace.take 8 := by decide
theorem test_window_row_only :
    added (armed (oks 2)) (setWindow 0 0 240 100 (armed (oks 2))).st =
      [.dc false, .msg [.tx [0x2B]] true, .dc true, .msg [.tx [0x00, 0x00, 0x00, 0x63]] true] := by decide
theorem test_window_one_pixel :
    added (armed (oks 4)) (setWindow 239 319 1 1 (armed (oks 4))).st =
      [.dc false, .msg [.tx [0x2A]] true, .dc true, .msg [.tx [0x00, 0xEF, 0x00, 0xEF]] true,
       .dc false, .msg [.tx [0x2B]] true, .dc true, .msg [.tx [0x01, 0x3F, 0x01, 0x3F]] true] := by decide
theorem test_window_fail_data :
    (setWindow 0 0 10 10 (armed (failing 2))).res = .err .io ∧
    (setWindow 0 0 10 10 (armed (failing 2))).st.ccolV = false ∧
    (setWindow 0 0 10 10 (armed (failing 2))).st.crowV = true := by decide
theorem test_window_fail_row :
    (setWindow 0 0 10 10 (armed (failing 3))).st.ccolX2 = 9 ∧
    (setWindow 0 0 10 10 (armed (failing 3))).st.ccolV = true ∧
    (setWindow 0 0 10 10 (armed (failing 3))).st.crowV = false := by decide

/-! ## Packing and Rect Fill (V20, V25 to V28) -/

theorem test_pack :
    pixelBytes ⟨0x12, 0x34, 0x56⟩ = [0x11, 0xAA] ∧ pixelBytes ⟨7, 3, 7⟩ = [0x00, 0x00] ∧
    pixelBytes ⟨8, 4, 8⟩ = [0x08, 0x21] ∧ pixelBytes ⟨0, 255, 0⟩ = [0x07, 0xE0] ∧
    pixelBytes ⟨0xAB, 0xCD, 0xEF⟩ = [0xAE, 0x7D] ∧
    unpack565 0xAE7D = ⟨0xA8, 0xCC, 0xE8⟩ ∧ unpack565 0x11AA = ⟨0x10, 0x34, 0x50⟩ := by decide
theorem test_fillRect :
    (fillRect 1 2 2 3 ⟨255, 0, 0⟩ (launch (oks 9))).st.trace =
      [.dc false, .msg [.tx [0x2A]] true, .dc true, .msg [.tx [0x00, 0x01, 0x00, 0x02]] true,
       .dc false, .msg [.tx [0x2B]] true, .dc true, .msg [.tx [0x00, 0x02, 0x00, 0x04]] true,
       .dc false, .msg [.tx [0x2C]] true, .dc true, .msg [.tx [0xF8, 0x00, 0xF8, 0x00]] true,
       .msg [.tx [0xF8, 0x00, 0xF8, 0x00]] true, .msg [.tx [0xF8, 0x00, 0xF8, 0x00]] true,
       .dc false, .msg [.tx [0x00]] true, .dc true] := by decide
theorem test_fillRect_fail :
    (fillRect 1 2 2 3 ⟨255, 0, 0⟩ (launch (failing 7))).st.trace.drop 11 =
      [.msg [.tx [0xF8, 0x00, 0xF8, 0x00]] true, .msg [.tx [0xF8, 0x00, 0xF8, 0x00]] false] := by decide

/-! ## The requests, one step each -/

/-- V30, V31. -/
theorem test_write_idle :
    after (exec (.write [0xAA, 0xBB]) (launch (oks 1))) (fun t =>
      decide (t.trace = [.dc false, .msg [.tx [0x00]] true, .dc true]) && gave t ⟨.ok, 2, []⟩) = true := by
  decide
theorem test_writeIdle_empty :
    after (exec (.writeIdle []) (launch (failing 1))) (fun t =>
      gave t ⟨.error .io, 0, []⟩ && t.dc) = true := by decide

/-- P2, second request: a green rectangle of 20 rows of 40 pixels. -/
theorem test_writeRect :
    after (exec (.writeRect [0x5A]) (rectTest ⟨200, 300, 40, 20, 1, ⟨0, 0, 0⟩⟩ (oks 26))) (fun t =>
      decide (messages t.trace = 26) && decide (t.trace.getD 3 (.dc false) =
        .msg [.tx [0x00, 0xC8, 0x00, 0xEF]] true) &&
      decide (t.trace.getD 11 (.dc false) = .msg [.tx (List.replicate 40 [0x07, 0xE0]).flatten] true) &&
      decide (t.crowY1 = 300) && decide (t.crowY2 = 319) && gave t ⟨.ok, 1, []⟩) = true := by decide

/-- V32 and P2's third request. -/
theorem test_setmodeRect :
    after (exec .setmodeRect (launch [])) (fun t =>
      decide (t.mode = .rect) && decide (t.trace = []) && gave t ⟨.ok, 0, []⟩) = true := by decide
theorem test_setmodeIdle :
    after (exec .setmodeIdle (pending 0 0 8 2 0 [])) (fun t =>
      decide (t.mode = .idle) && t.pwinV && decide (t.nextRow = 0) && t.ccolV) = true := by decide

/-- V33, V36. -/
theorem test_setmodeStream :
    after (exec .setmodeStream (launch (oks 5))) (fun t =>
      decide (t = { armed [] with
        env := ⟨[], 5, [], 1, [], 0⟩, responses := [⟨.ok, 0, []⟩] })) = true := by decide
theorem test_setmodeStream_fail :
    after (exec .setmodeStream (launch (failing 2))) (fun t =>
      decide (t.mode = .stream) && t.fbCreated && !t.ccolV && !t.crowV &&
      decide (t.trace = [.dc false, .msg [.tx [0x2A]] true, .dc true,
        .msg [.tx [0x00, 0x00, 0x00, 0xEF]] false]) && gave t ⟨.error .io, 0, []⟩) = true := by decide

/-- V37, V39. -/
theorem test_setmodeInvalid :
    after (exec (.setmodeInvalid 3) (armed [])) (fun t =>
      decide (t.mode = .idle) && t.ccolV && t.fbCreated && gave t ⟨.error .inval, 0, []⟩) = true := by
  decide
theorem test_ctrlUnknown :
    after (exec (.ctrlUnknown 1 0) (armed [])) (fun t =>
      decide (t.mode = .stream) && gave t ⟨.error .noTty, 0, []⟩) = true := by decide

/-- V41, V43. -/
theorem test_writeHdr :
    after (exec (.writeHdr 0 0 240 320) (armed [])) (fun t =>
      decide (t.pwinW = 240) && decide (t.pwinH = 320) && t.pwinV && decide (t.nextRow = 0) &&
      decide (t.trace = armTrace) && gave t ⟨.ok, 16, []⟩) = true := by decide
theorem test_writeHdr_bad :
    faults (exec (.writeHdr 0 319 1 2) (armed [])) (.badGeometry 0 319 1 2) = true ∧
    faults (exec (.writeHdr (-1) 0 1 1) (armed [])) (.badGeometry (-1) 0 1 1) = true ∧
    faults (exec (.writeHdr 0 0 241 1) (armed [])) (.badGeometry 0 0 241 1) = true ∧
    faults (exec (.writeHdr 0 0 1 0) (armed [])) (.badGeometry 0 0 1 0) = true := by decide

/-- V42. -/
theorem test_writeBadhdr :
    after (exec (.writeBadhdr [1, 2, 3]) (armed [])) (fun t =>
      decide (t.nextRow = -1) && !t.pwinV && gave t ⟨.error .inval, 0, []⟩) = true := by decide

/-- V44, V47 with its offset 9620, and V46. -/
theorem test_writeRow :
    after (exec (.writeRow [0x11, 0x22, 0x33]) (pending 10 20 4 3 0 [])) (fun t =>
      decide (t.fb = [(9620, 0x11), (9621, 0x22), (9622, 0x33)]) && decide (t.nextRow = 1) &&
      gave t ⟨.ok, 3, []⟩) = true := by decide
theorem test_writeRow_overrun :
    faults (exec (.writeRow [0xFF, 0xFF, 0xFF]) (pending 239 319 1 1 0 [])) (.fbOverrun 153598 3) = true := by
  decide

/-- V50: a failed flush; and V47 with `STRICT_ROW_LEN`. -/
theorem test_flush_fail :
    after (exec (.write [0xFF, 0xFF]) (pending 0 0 1 1 0 (failing 1))) (fun t =>
      decide (t.fb = [(0, 0xFF), (1, 0xFF)]) && decide (t.nextRow = -1) && !t.pwinV &&
      gave t ⟨.error .io, 0, []⟩) = true := by decide
theorem test_strict_row :
    faults (exec (.write [1, 2, 3, 4, 5, 6])
      { pending 0 0 2 2 0 [] with cfg := { Config.reference with strictRowLen := true } })
      (.rowLength 6) = true := by decide

/-- V61, V63. -/
theorem test_read :
    after (exec (.read 4) (armed [.ok [], .ok [0x11, 0x22, 0x33, 0x44]])) (fun t =>
      decide (added (armed []) t = [.dc false, .msg [.tx [0x2E]] true, .dc true,
        .msg [.rx 4 [0x11, 0x22, 0x33, 0x44]] true]) &&
      gave t ⟨.ok, 4, [0x11, 0x22, 0x33, 0x44]⟩ && !t.armed) = true := by decide
theorem test_read_fail :
    after (exec (.read 4) (armed (failing 2))) (fun t => gave t ⟨.error .io, 0, []⟩) = true := by decide

/-- The bus rows (R96 to R104): the bytes on the bus, and no response. -/
theorem test_bus_bare :
    after (exec .nop (launch (oks 1))) (fun t => decide (t.trace = commandEvents 0x00 true)) = true ∧
    after (exec .swreset (launch (oks 1))) (fun t => decide (t.trace = commandEvents 0x01 true)) = true ∧
    after (exec .slpout (launch (oks 1))) (fun t => decide (t.trace = commandEvents 0x11 true)) = true ∧
    after (exec .dispon (launch (oks 1))) (fun t => decide (t.trace = commandEvents 0x29 true)) = true := by
  decide
theorem test_bus_range :
    after (exec (.caset 200 239) (launch (oks 2))) (fun t =>
      decide (t.trace = commandEvents 0x2A true ++ [.msg [.tx [0x00, 0xC8, 0x00, 0xEF]] true]) &&
      !t.ccolV) = true ∧
    after (exec (.paset 300 319) (launch (oks 2))) (fun t =>
      decide (t.trace = commandEvents 0x2B true ++ [.msg [.tx [0x01, 0x2C, 0x01, 0x3F]] true])) = true := by
  decide
theorem test_bus_data :
    after (exec (.ramwr [[1, 2], [3]]) (launch (oks 3))) (fun t =>
      decide (t.trace = commandEvents 0x2C true ++ [.msg [.tx [1, 2]] true, .msg [.tx [3]] true])) = true ∧
    after (exec (.ramrd 2) (launch [.ok [], .ok [5, 6]])) (fun t =>
      decide (t.trace = commandEvents 0x2E true ++ [.msg [.rx 2 [5, 6]] true]) &&
      decide (t.responses = [])) = true ∧
    after (exec (.pixfmt [0x55]) (launch (oks 2))) (fun t =>
      decide (t.trace = commandEvents 0x3A true ++ [.msg [.tx [0x55]] true])) = true := by decide

/-- R61: the bytes of a response. -/
theorem test_response_bytes :
    Response.bytes ⟨.ok, 4, [0x11]⟩ = [0x00, 0x04, 0x00, 0x00, 0x00, 0x11] ∧
    Response.bytes ⟨.error .noTty, 0, []⟩ = [0x19, 0x00, 0x00, 0x00, 0x00] ∧
    Status.code (.error .io) = 5 ∧ Status.code (.error .noMem) = 12 ∧ Status.code (.error .inval) = 22 := by
  decide

/-! ## The step -/

/-- The trace of `RESET` (V64). -/
theorem test_boot_trace :
    bootEvents Config.reference =
      [.rst false, .delay 10, .rst true, .delay 120, .dc false, .msg [.tx [0x01]] true, .dc true,
       .delay 150, .dc false, .msg [.tx [0x3A]] true, .dc true, .msg [.tx [0x55]] true,
       .dc false, .msg [.tx [0x11]] true, .dc true, .delay 120, .dc false, .msg [.tx [0x29]] true,
       .dc true] := by decide

/-- V65's failing step: the script is dropped and nothing follows. -/
theorem test_boot_fail :
    after (step { launch [.fail] with
      attached := false, phase := .init [Pending.ofStep ⟨0x3A, [0x55], 0⟩, Pending.ofStep ⟨0x11, [], 120⟩] })
      (fun t => decide (t.phase = .done) && !t.attached &&
        decide (t.trace = [.dc false, .msg [.tx [0x3A]] false, .dc true]) &&
        faults (step t) .attachFailed) = true := by decide

/-- A message that never completes leaves the request unanswered and the next step stuck (R94). -/
theorem test_never :
    after (exec (.write []) (launch [.never])) (fun t =>
      decide (t.responses = []) && faults (step t) .busNeverCompletes) = true := by decide

/-- A table word placed where the next step takes it from runs. -/
theorem test_withFetchWord :
    after (step (State.reset.withFetchWord 24 0x020001)) (fun t =>
      decide (t.mode = .rect) && decide (t.hostIn = []) && gave t ⟨.ok, 0, []⟩) = true := by decide

/-- A vendor command of the init script is sent as any other (R105). -/
theorem test_vendor :
    after (step { launch (oks 2) with
      attached := false, phase := .init [Pending.ofStep ⟨0xB1, [0x00], 0⟩] }) (fun t =>
        decide (t.trace = commandEvents 0xB1 true ++ [.msg [.tx [0x00]] true]) &&
        decide (t.phase = .init [])) = true := by decide

/-- R230: a reset in mid-request leaves no response, and the block is in its reset state; the request's
bytes are gone and the host's next ones are not. -/
theorem test_reset_within :
    after (step { pending 0 0 8 2 1 [] with
      resetIn := [.within], hostIn := [0x02, 0x00, 0x01, 0x55], responses := [⟨.ok, 16, []⟩] }) (fun t =>
        decide (t = { State.reset with
          env := (launch []).env, hostIn := [0x55], responses := [⟨.ok, 16, []⟩], launches := 1 })) =
      true := by decide

/-- R230, R94: a block that waits for ever is reset too, and goes on with `RST_SCRIPT`. -/
theorem test_reset_hung :
    after (step { launch [] with hung := true, dc := false, trace := [.dc false], resetIn := [.before] })
      (fun t => !t.hung && t.dc && decide (t.trace = []) &&
        after (step t) (fun u => decide (u.trace = [.rst false, .delay 10]))) = true := by decide

/-! ## Witnesses

For each statement with hypotheses, concrete values that meet them all together, clause by clause and at the
edges of a range. Where a hypothesis says that a run answers a next state, `after` shows that it does. -/

theorem witness_HostRequestRoundTrip :
    Config.reference.wf = true ∧ (Instr.writeHdr 10 20 4 3).isHost = true ∧
    (Instr.writeHdr 10 20 4 3).wf Config.reference = true ∧
    (Instr.setmodeInvalid 255).wf Config.reference = true := by decide
theorem witness_BusCommandRoundTrip :
    Config.reference.wf = true ∧ (Instr.ramwr [[1], [2, 3]]).isHost = false ∧
    (Instr.ramwr [[1], [2, 3]]).wf Config.reference = true := by decide
theorem witness_DecodedRequestIsItsEncoding :
    Config.reference.wf = true ∧
    decode Config.reference [0x02, 0x00, 0x03, 0x55] = .ok (.setmodeInvalid 3) [0x55] := by decide
theorem witness_WriteMeansWhatStateSelects :
    (launch []).mode = .idle ∧ (rectTest ⟨0, 0, 1, 1, 0, ⟨0, 0, 0⟩⟩ []).mode = .rect ∧
    ((armed []).mode = .stream ∧ (armed []).nextRow = -1 ∧ (rectBytes 0 0 1 1).length = 16) ∧
    ([0, 0] : List Byte).length ≠ 16 ∧
    ((pending 0 0 1 1 0 []).mode = .stream ∧ 0 ≤ (pending 0 0 1 1 0 []).nextRow.toInt) := by decide
theorem witness_RectDescriptorIsLittleEndian :
    (rectBytes 10 20 4 3).length = 16 ∧ (armed []).mode = .stream ∧ (armed []).nextRow = -1 := by decide
theorem witness_ReservedSelectorIsRefused :
    (∀ op ∈ [(3 : Byte), 255], 3 ≤ op.toNat ∧
      ({ launch [] with hostIn := [op, 7] }).hostIn = op :: [7]) ∧
    (launch []).resetNow = .idle ∧ (launch []).hung = false ∧ (launch []).phase = .done ∧
    (launch []).attached = true := by decide
theorem witness_StepRunsDecodedRequest :
    { launch [] with resetIn := [.idle, .before] }.resetNow = .idle ∧ (launch []).hung = false ∧ (launch []).phase = .done ∧ (launch []).attached = true ∧
    decode (launch []).cfg { launch [] with hostIn := [0x02, 0x00, 0x02, 0x02] }.hostIn =
      .ok .setmodeStream [0x02] := by decide
theorem witness_StepRunsInitCommand :
    (∀ i ∈ [InitStep.mk 0x11 [] 5, ⟨0xB1, [0x00], 0⟩],
      { launch [] with phase := .init [Pending.ofStep i] }.resetNow = .idle ∧
      { launch [] with phase := .init [Pending.ofStep i] }.hung = false ∧
      { launch [] with phase := .init [Pending.ofStep i] }.phase = .init (Pending.ofStep i :: [])) ∧
    decodeBus (launch []).cfg (Pending.ofStep ⟨0x11, [], 5⟩).frame = .ok .slpout [] ∧
    decodeBus (launch []).cfg (Pending.ofStep ⟨0xB1, [0x00], 0⟩).frame = .reject (.noBusRow 0xB1) := by
  decide
theorem witness_InitCommandRuns :
    ∀ i ∈ [InitStep.mk 0x11 [] 120, ⟨0x3A, [0x55], 0⟩],
      { launch (oks 2) with phase := .init [Pending.ofStep i] }.resetNow = .idle ∧
      { launch (oks 2) with phase := .init [Pending.ofStep i] }.hung = false ∧
      { launch (oks 2) with phase := .init [Pending.ofStep i] }.dc = true ∧
      { launch (oks 2) with phase := .init [Pending.ofStep i] }.phase = .init (Pending.ofStep i :: []) ∧
      { launch (oks 2) with phase := .init [Pending.ofStep i] }.answersOk
        (messages (initMessages i)) := by decide

/-- The block about to send one command of its init script. -/
def initialising (answers : List BusAnswer) : State :=
  { launch answers with attached := false, phase := .init [Pending.ofStep ⟨0x3A, [0x55], 0⟩] }

theorem witness_InitFailureStopsForEver :
    ∀ k ∈ [0, 1],
      ((initialising (failing (k + 1))).resetNow = .idle ∧ (initialising (failing (k + 1))).hung = false ∧
        (initialising (failing (k + 1))).dc = true ∧ (initialising (failing (k + 1))).attached = false ∧
        (initialising (failing (k + 1))).phase = .init [Pending.ofStep ⟨0x3A, [0x55], 0⟩] ∧
        k < messages (initMessages ⟨0x3A, [0x55], 0⟩) ∧ (initialising (failing (k + 1))).failsAt k) ∧
      after (step (initialising (failing (k + 1)))) (fun t => decide (t.resetNow = .idle)) = true := by
  decide
theorem witness_NoRequestUntilAttached :
    (State.reset.attached = false ∧ State.reset.resetNow = .idle ∧
      after (step State.reset) (fun _ => true) = true) ∧
    (∀ r ∈ [ResetInput.before, .within],
      { initialising [] with resetIn := [r], hostIn := [0x02], responses := [⟨.ok, 16, []⟩] }.attached =
        false ∧
      { initialising [] with resetIn := [r], hostIn := [0x02], responses := [⟨.ok, 16, []⟩] }.resetNow ≠
        .idle ∧
      after (step { initialising [] with
        resetIn := [r], hostIn := [0x02], responses := [⟨.ok, 16, []⟩] }) (fun t =>
          decide (t.hostIn = [0x02])) = true) := by decide
theorem witness_ResetValues :
    Config.reference.rstScript = ⟨false, 10⟩ :: [⟨true, 120⟩] ∧
    { Config.reference with rstScript := [] }.rstScript = [] := by decide
theorem witness_ResetSequenceReachesLaunch :
    { State.resetWith Config.reference with
      env := ⟨oks 5, 0, [], 0, [], 0⟩, hostIn := [0x02], responses := [⟨.ok, 16, []⟩], launches := 3
      }.answersOk (messages (bootEvents Config.reference)) := by decide

/-- A reset input that asserts a reset now. -/
def resetting (r : ResetInput) : State := { launch [] with resetIn := [r] }

theorem witness_ResetAbandonsEverything :
    ((resetting .before).resetNow = .before ∧ { resetting .before with hung := true }.resetNow = .before) ∧
    ((resetting .within).resetNow = .within ∧ (resetting .within).hung = false ∧
      (resetting .within).phase = .done ∧ (resetting .within).attached = true ∧
      decode (resetting .within).cfg { resetting .within with hostIn := [0x00, 0, 0, 0, 0, 7] }.hostIn =
        .ok (.write []) [7]) ∧
    ({ resetting .within with hung := true }.hung = true ∧
      { resetting .within with phase := .init [] }.phase ≠ .done ∧
      { resetting .within with attached := false }.attached = false ∧
      decode (resetting .within).cfg { resetting .within with hostIn := [0x02] }.hostIn =
        .reject .truncated) := by decide
theorem witness_UnknownModeForcesIdle : ∀ a ∈ [(3 : Byte), 255], 3 ≤ a.toNat := by decide
theorem witness_UnknownControlCallChangesNothing : (1 : Byte) ≠ (launch []).cfg.reqSetMode := by decide
theorem witness_StreamModeArms :
    ((launch (oks 5)).dc = true ∧ (launch (oks 5)).allocOk = true ∧
      (launch (oks 5)).answersOk (messages ((launch (oks 5)).windowEvents 0 239 0 319 ++
        commandEvents 0x2C true))) ∧
    ((armed (oks 1)).dc = true ∧ (armed (oks 1)).fbCreated = true ∧
      (armed (oks 1)).answersOk (messages ((armed (oks 1)).windowEvents 0 239 0 319 ++
        commandEvents 0x2C true))) := by decide
theorem witness_ArmingFailureKeepsMode :
    ∀ k ∈ [0, 1, 2, 3, 4],
      (launch (failing (k + 1))).dc = true ∧ (launch (failing (k + 1))).allocOk = true ∧
      k < messages ((launch (failing (k + 1))).windowEvents 0 239 0 319 ++ commandEvents 0x2C true) ∧
      (launch (failing (k + 1))).failsAt k := by decide
theorem witness_SecondArmingResendsRamwrOnly :
    (launch (oks 6)).dc = true ∧ after (exec .setmodeStream (launch (oks 6))) (fun t =>
      decide (t.responses = (launch (oks 6)).responses ++ [⟨.ok, 0, []⟩]) && decide (t.answersOk 1)) =
      true := by decide
theorem witness_ControlCallFrame :
    ∀ i ∈ [Instr.setmodeIdle, .setmodeRect, .setmodeStream, .setmodeInvalid 3, .ctrlUnknown 1 0],
      isControl i = true ∧ i.wf (launch (oks 5)).cfg = true ∧
      after (exec i (launch (oks 5))) (fun _ => true) = true := by decide
theorem witness_NoMemoryTouchesNothing :
    { launch [] with env := ⟨[], 0, [false], 0, [], 0⟩ }.allocOk = false ∧
    { launch [] with env := ⟨[], 0, [false], 0, [], 0⟩ }.fbCreated = false ∧
    { launch [] with mode := .rect, env := ⟨[], 0, [false], 0, [], 0⟩ }.allocOk = false ∧
    { launch [] with mode := .rect, env := ⟨[], 0, [false], 0, [], 0⟩ }.mode = .rect := by decide
theorem witness_IdleWriteSendsNop :
    (launch (oks 1)).mode = .idle ∧ (launch (oks 1)).answersOk 1 ∧
    (launch (failing 1)).mode = .idle ∧ (launch (failing 1)).answer 0 = .fail := by decide

/-- The draw of program P2, which touches both bounds. -/
def edgeDraw : RectDraw := ⟨200, 300, 40, 20, 1, ⟨0, 0, 0⟩⟩

/-- What a fill of that draw emits from a cold cache. -/
def edgeEvents (s : State) : List Event :=
  s.windowEvents (BitVec.ofNat 16 200) (BitVec.ofNat 16 239) (BitVec.ofNat 16 300) (BitVec.ofNat 16 319) ++
    commandEvents s.cfg.cmdRamwr true ++
    List.replicate 20 (dataEvent (scanline 40 (drawColor s.cfg s.nextDraw)) true) ++
    commandEvents s.cfg.cmdNop true

theorem witness_RectWritePaintsOneRectangle :
    (rectTest edgeDraw (oks 26)).mode = .rect ∧ (rectTest edgeDraw (oks 26)).nextDraw = edgeDraw ∧
    (rectTest edgeDraw (oks 26)).dc = true ∧ (rectTest edgeDraw (oks 26)).cfg.wf = true ∧
    (rectTest edgeDraw (oks 26)).allocOk = true ∧ (rectTest edgeDraw (oks 26)).answersOk
      (messages (edgeEvents (rectTest edgeDraw (oks 26)))) := by decide
theorem witness_FillFailureStopsAtMessage :
    ∀ k ∈ [0, 1, 2, 3, 4, 25],
      (rectTest edgeDraw (failing (k + 1))).mode = .rect ∧
      (rectTest edgeDraw (failing (k + 1))).nextDraw = edgeDraw ∧
      (rectTest edgeDraw (failing (k + 1))).dc = true ∧
      (rectTest edgeDraw (failing (k + 1))).cfg.wf = true ∧
      (rectTest edgeDraw (failing (k + 1))).allocOk = true ∧
      k < messages (edgeEvents (rectTest edgeDraw (failing (k + 1)))) ∧
      (rectTest edgeDraw (failing (k + 1))).failsAt k := by decide
theorem witness_DrawStaysInBounds :
    (launch []).cfg.wf = true ∧ (1 ≤ edgeDraw.w ∧ 1 ≤ edgeDraw.h ∧ edgeDraw.x + edgeDraw.w ≤ 240 ∧
      edgeDraw.y + edgeDraw.h ≤ (launch []).cfg.rtYlim) ∧
    (∀ n ∈ [0, 1, 2, 3], { edgeDraw with sel := BitVec.ofNat 2 n }.sel.toNat = n) := by decide
theorem witness_HeaderOpensWindow :
    (armed []).mode = .stream ∧ (armed []).nextRow = -1 ∧
    (0 ≤ (239 : Word).toInt ∧ 0 ≤ (319 : Word).toInt ∧ 1 ≤ (1 : Word).toInt ∧
      (239 : Word).toInt + (1 : Word).toInt ≤ 240 ∧ (319 : Word).toInt + (1 : Word).toInt ≤ 320) ∧
    (0 ≤ (0 : Word).toInt ∧ 1 ≤ (240 : Word).toInt ∧ 1 ≤ (320 : Word).toInt ∧
      (0 : Word).toInt + (240 : Word).toInt ≤ 240 ∧ (0 : Word).toInt + (320 : Word).toInt ≤ 320) := by decide
theorem witness_BadGeometryFaults : (armed []).mode = .stream ∧ (armed []).nextRow = -1 := by decide
theorem witness_WrongHeaderSizeRejected :
    (armed []).mode = .stream ∧ (armed []).nextRow = -1 ∧
    ∀ n ∈ [0, 15, 17], (List.replicate n (0 : Byte)).length ≠ 16 := by decide
theorem witness_RowIsCopiedAndCursorMoves :
    (pending 10 20 4 3 1 []).mode = .stream ∧ 0 ≤ (pending 10 20 4 3 1 []).nextRow.toInt ∧
    (10100 : Int) = (((pending 10 20 4 3 1 []).pwinY.toInt + (pending 10 20 4 3 1 []).nextRow.toInt) * 240 +
      (pending 10 20 4 3 1 []).pwinX.toInt) * 2 ∧
    (pending 10 20 4 3 1 []).cfg.strictRowLen = false ∧ 10100 + 143500 ≤ 153600 ∧
    (pending 10 20 4 3 1 []).nextRow.toInt + 1 < (pending 10 20 4 3 1 []).pwinH.toInt ∧
    { Config.reference with strictRowLen := true }.strictRowLen = true ∧
    ((6 : Nat) : Int) ≠ 2 * (pending 10 20 4 3 1 []).pwinW.toInt := by decide
theorem witness_LastRowFlushesWholeBuffer :
    (∀ a ∈ [BusAnswer.ok [], .fail],
      (pending 239 319 1 1 0 [a]).mode = .stream ∧ 0 ≤ (pending 239 319 1 1 0 [a]).nextRow.toInt ∧
      ((pending 239 319 1 1 0 [a]).answersOk 1 ∨ (pending 239 319 1 1 0 [a]).answer 0 = .fail) ∧
      (pending 239 319 1 1 0 [a]).nextRow.toInt + 1 = (pending 239 319 1 1 0 [a]).pwinH.toInt) ∧
    (153598 : Int) = (((pending 239 319 1 1 0 []).pwinY.toInt +
      (pending 239 319 1 1 0 []).nextRow.toInt) * 240 + (pending 239 319 1 1 0 []).pwinX.toInt) * 2 ∧
    ((2 : Nat) : Int) = 2 * (pending 239 319 1 1 0 []).pwinW.toInt ∧ 153598 + 2 ≤ 153600 := by decide
theorem witness_OverrunFaultsOnlyPastTheEnd :
    StreamInv (pending 239 319 1 1 0 []) ∧ (pending 239 319 1 1 0 []).mode = .stream ∧
    (pending 239 319 1 1 0 []).nextRow ≠ -1 ∧ (pending 239 319 1 1 0 []).cfg.strictRowLen = false ∧
    (153598 : Int) = (((pending 239 319 1 1 0 []).pwinY.toInt +
      (pending 239 319 1 1 0 []).nextRow.toInt) * 240 + (pending 239 319 1 1 0 []).pwinX.toInt) * 2 := by
  decide
theorem witness_StreamingReconstruction :
    (armed (oks 1)).mode = .stream ∧ (armed (oks 1)).nextRow = -1 ∧ (armed (oks 1)).answersOk 1 ∧
    10 + 4 ≤ 240 ∧ 20 + 3 ≤ 320 ∧
    ([[0xF8, 0, 0xF8, 0, 0xF8, 0, 0xF8, 0], [7, 0xE0, 7, 0xE0, 7, 0xE0, 7, 0xE0],
      [0, 31, 0, 31, 0, 31, 0, 31]] : List (List Byte)).length = 3 ∧
    (∀ p ∈ ([[0xF8, 0, 0xF8, 0, 0xF8, 0, 0xF8, 0], [7, 0xE0, 7, 0xE0, 7, 0xE0, 7, 0xE0],
      [0, 31, 0, 31, 0, 31, 0, 31]] : List (List Byte)), p.length = 2 * 4) := by decide
theorem witness_ReadReturnsBusBytes :
    (∀ s ∈ [launch (oks 5 ++ [.ok [1, 2]]), armed (oks 1 ++ [.ok [1, 2]])],
      s.dc = true ∧
      s.answersOk (messages (s.windowEvents 0 239 0 319 ++ commandEvents 0x2E true ++
        [.msg [.rx 2 [1, 2]] true])) ∧
      s.answer (messages (s.windowEvents 0 239 0 319 ++ commandEvents 0x2E true ++
        [.msg [.rx 2 [1, 2]] true]) - 1) = .ok [1, 2]) ∧
    ([1, 2] : List Byte).length = (2 : Word).toNat := by decide
theorem witness_ReadFailureReturnsNoData :
    (∀ k ∈ [0, 1], (armed (failing (k + 1))).dc = true ∧ (armed (failing (k + 1))).failsAt k ∧
      k < messages ((armed (failing (k + 1))).windowEvents 0 239 0 319 ++ commandEvents 0x2E true ++
        [.msg [.rx 4 []] true])) ∧
    (∀ k ∈ [0, 1, 2, 3, 4, 5], (launch (failing (k + 1))).dc = true ∧ (launch (failing (k + 1))).failsAt k ∧
      k < messages ((launch (failing (k + 1))).windowEvents 0 239 0 319 ++ commandEvents 0x2E true ++
        [.msg [.rx 4 []] true])) := by decide
theorem witness_ReadFrame : after (exec (.read 0) (armed (oks 2))) (fun _ => true) = true := by decide
theorem witness_BareCommandIsOneByte : (launch (oks 1)).answersOk 1 := by decide
theorem witness_RangeCommandCarriesBothEnds :
    (launch (oks 2)).answersOk 2 ∧ (Instr.caset 200 239, (launch (oks 2)).cfg.cmdCaset) ∈
      [(Instr.caset 200 239, (launch (oks 2)).cfg.cmdCaset), (.paset 200 239, (launch (oks 2)).cfg.cmdPaset)] := by
  decide
theorem witness_DataCommandCarriesItsMessages :
    (launch (oks 3)).answersOk (([[1, 2], [3]] : List (List Byte)).length + 1) ∧
    ((launch [.ok [], .ok [5, 6]]).answersOk 2 ∧ (launch [.ok [], .ok [5, 6]]).answer 1 = .ok [5, 6] ∧
      ([5, 6] : List Byte).length = (2 : Word).toNat) ∧
    (([0x55] : List Byte) ≠ [] ∧ (launch (oks 2)).answersOk 2) ∧ (launch (oks 1)).answersOk 1 := by decide
theorem witness_BusCommandFrame :
    (Instr.pixfmt [0x55]).isHost = false ∧
    after (exec (.pixfmt [0x55]) (launch (failing 2))) (fun _ => true) = true := by decide
theorem witness_SendCommandRestoresSelector :
    (launch (oks 1)).answersOk 1 ∧ (launch (failing 1)).answer 0 = .fail := by decide
theorem witness_DataTransferIsOneMessage :
    (launch [.ok [5, 6]]).answersOk 1 ∧ (launch [.ok [5, 6]]).answer 0 = .ok [5, 6] ∧
    ([5, 6] : List Byte).length = 2 ∧ (launch (failing 1)).answer 0 = .fail := by decide
theorem witness_UnansweredMessageIsStuck :
    ((launch [.never]).hung = false ∧
      after (exec (.read 4) (launch (oks 5 ++ [.never]))) (fun t =>
        t.hung && decide (t.resetNow = .idle)) = true ∧
      after (exec (.pixfmt [0x55]) (launch [.ok [], .never])) (fun t => t.hung) = true) ∧
    ((launch [.never]).mode = .idle ∧ (launch [.never]).answer 0 = .never) := by decide
theorem witness_RepeatedWindowSendsNothing : (setWindow 0 0 10 10 (launch (oks 4))).res = .ok () := by decide
theorem witness_WindowSendsOnlyWhatDiffers :
    (∀ s ∈ [launch (oks 4), armed (oks 4)], s.dc = true ∧ s.answersOk 4) ∧
    239 + 1 ≤ 240 ∧ 319 + 1 ≤ 320 ∧ (239 : Half).toNat = 239 + 1 - 1 ∧ (319 : Half).toNat = 319 + 1 - 1 ∧
    ((armed []).ccolV = true ∧ (armed []).ccolX1 = 0 ∧ (armed []).ccolX2 = 239) := by decide
theorem witness_FailedWindowInvalidatesItsAxis :
    trunc16 0 = (0 : Half) ∧ trunc16 (0 + 10 - 1) = (9 : Half) ∧
    (∀ k ∈ [0, 1], (armed (failing (k + 1))).dc = true ∧ (armed (failing (k + 1))).failsAt k ∧
      k < messages ((armed (failing (k + 1))).columnEvents 0 9)) ∧
    (∀ k ∈ [2, 3], (armed (failing (k + 1))).dc = true ∧ (armed (failing (k + 1))).failsAt k ∧
      messages ((armed (failing (k + 1))).columnEvents 0 9) ≤ k ∧
      k < messages ((armed (failing (k + 1))).windowEvents 0 9 0 9)) := by decide
theorem witness_OneResponsePerRequest :
    (∀ a ∈ [BusAnswer.ok [], .fail, .never],
      after (exec (.write []) (launch [a])) (fun t => decide (t.hung = true ↔ a = .never)) = true) ∧
    (Instr.write []).isHost = true := by decide
theorem witness_OnlyModeSetChangesMode :
    isControl (.read 1) = false ∧ after (exec (.read 1) (armed (oks 2))) (fun _ => true) = true := by decide
theorem witness_OnlyRowsWriteFrameBuffer :
    (isWrite (.read 1) = false ∧ after (exec (.read 1) (armed (oks 2))) (fun _ => true) = true) ∧
    ((launch (oks 1)).mode ≠ .stream ∧ after (exec (.write []) (launch (oks 1))) (fun _ => true) = true) ∧
    ((armed []).nextRow = -1 ∧
      after (exec (.write (rectBytes 0 0 1 1)) (armed [])) (fun _ => true) = true) := by decide
theorem witness_QuietRequestsCannotFailOnBus :
    ((Instr.setmodeInvalid 3).wf (armed []).cfg = true ∧ isControl (.setmodeInvalid 3) = true ∧
      Instr.setmodeInvalid 3 ≠ .setmodeStream ∧
      after (exec (.setmodeInvalid 3) (armed [])) (fun _ => true) = true) ∧
    ((Instr.writeRow [1]).wf (pending 0 0 1 2 0 []).cfg = true ∧ isWrite (.writeRow [1]) = true ∧
      (pending 0 0 1 2 0 []).mode = .stream ∧
      (pending 0 0 1 2 0 []).nextRow.toInt + 1 ≠ (pending 0 0 1 2 0 []).pwinH.toInt ∧
      after (exec (.writeRow [1]) (pending 0 0 1 2 0 [])) (fun _ => true) = true) := by decide
theorem witness_ObservationGrowsUntilReset :
    (State.reset.resetNow = .idle ∧ after (step State.reset) (fun _ => true) = true) ∧
    ((resetting .before).resetNow ≠ .idle ∧ after (step (resetting .before)) (fun _ => true) = true) := by
  decide
theorem witness_ParametersFbCreatedAttachedPersist :
    (armed []).resetNow = .idle ∧ (armed []).fbCreated = true ∧ (armed []).attached = true ∧ (armed []).phase = .done ∧
    after (step { armed [] with hostIn := [0x02, 0x00, 0x00] }) (fun t => decide (t.mode = .idle)) = true := by
  decide
theorem witness_ArmIsKeptByRowsAndLostByRead :
    (Invariant (armed (oks 2)) ∧ (armed (oks 2)).phase = .done ∧ (armed (oks 2)).hung = false) ∧
    after (exec .setmodeStream (armed (oks 2))) (fun t =>
      !t.hung && decide (t.responses = (armed (oks 2)).responses ++ [⟨.ok, 0, []⟩])) = true ∧
    ((armed (oks 2)).mode = .stream ∧
      after (exec (.write [1]) (armed (oks 2))) (fun t => !t.hung) = true) ∧
    after (exec (.read 0) (armed (oks 2))) (fun t => !t.hung) = true := by decide
theorem witness_StepKeepsStreamInvariant :
    StreamInv { pending 10 20 4 3 1 [] with hostIn := [0x00, 0x01, 0x00, 0x00, 0x00, 0xAA] } ∧
    after (step { pending 10 20 4 3 1 [] with hostIn := [0x00, 0x01, 0x00, 0x00, 0x00, 0xAA] }) (fun t =>
      decide (t.nextRow = 2)) = true := by decide
theorem witness_StepKeepsFrameBufferInside :
    FbInv { pending 10 20 4 3 1 [] with
      hostIn := [0x00, 0x01, 0x00, 0x00, 0x00, 0xAA], fb := [(0, 1), (153599, 2)] } ∧
    after (step { pending 10 20 4 3 1 [] with
      hostIn := [0x00, 0x01, 0x00, 0x00, 0x00, 0xAA], fb := [(0, 1), (153599, 2)] }) (fun t =>
        decide (t.fb = [(0, 1), (10100, 0xAA), (153599, 2)])) = true := by
  refine ⟨⟨by decide, fun c hc => ?_⟩, by decide⟩
  simp only [List.mem_cons, List.mem_nil_iff, or_false] at hc
  rcases hc with rfl | rfl <;> norm_num [Config.fbSize]
theorem witness_StepKeepsSelectorHigh :
    LineInv { launch [.never] with hostIn := [0x00, 0x00, 0x00, 0x00, 0x00] } ∧
    after (step { launch [.never] with hostIn := [0x00, 0x00, 0x00, 0x00, 0x00] }) (fun t =>
      t.hung && !t.dc) = true := by decide
theorem witness_StepKeepsInvariant :
    Invariant { armed (oks 2) with hostIn := [0x01, 0x00, 0x00, 0x00, 0x00] } ∧
    after (step { armed (oks 2) with hostIn := [0x01, 0x00, 0x00, 0x00, 0x00] }) (fun t =>
      !t.armed && t.ccolV) = true := by decide
theorem witness_ResetMeetsInvariant : Config.reference.wf = true := by decide

end Sys2Proof.Tests
end

section
/-! SUPPORT. What one step without a reset can have done, said once (`70_reset_and_hazards.md` R230,
`43_mode_controller.md` R135), and that every procedure only adds to the observation (`00_scope.md` R10).
Settles O52. -/

namespace Sys2Proof.Machine

open Sys2Proof

/-! ## What an instruction and a step can do -/

/-- A bus row sends one frame (`40_transaction_layer.md` R96 to R104). -/
theorem exec_bus {i : Instr} (s : State) (h : i.isHost = false) : ∃ f, exec i s = .next (runFrame f s) := by
  cases i with
  | nop | swreset | slpout | dispon | caset | paset | ramwr | ramrd | pixfmt => exact ⟨_, rfl⟩
  | _ => cases h

/-- A control request is the mode-select call on some mode byte, or a call that is refused
(`43_mode_controller.md` R136). -/
theorem exec_control {i : Instr} (s : State) (h : isControl i = true) :
    ∃ req arg, exec i s = .next (deliverVal 0 (controlCall req arg s)) := by
  have modeSelect : ∀ arg, controlCall s.cfg.reqSetMode arg s = setModeCall arg s := fun arg => by
    simp [controlCall]
  cases i with
  | setmodeIdle => exact ⟨_, Config.modeIdle, by rw [modeSelect]; rfl⟩
  | setmodeRect => exact ⟨_, Config.modeRect, by rw [modeSelect]; rfl⟩
  | setmodeStream => exact ⟨_, Config.modeStream, by rw [modeSelect]; rfl⟩
  | setmodeInvalid arg => exact ⟨_, arg, by rw [modeSelect]; rfl⟩
  | ctrlUnknown req arg => exact ⟨req, arg, rfl⟩
  | _ => cases h

/-- The four kinds of row, and the procedure each runs. -/
inductive ExecRuns (s : State) : Instr → Host.Outcome State Fault Refusal → Prop where
  | write {i : Instr} (h : isWrite i = true) : ExecRuns s i (writeDispatch (payload i) s)
  | control {i : Instr} (h : isControl i = true) (req arg : Byte) :
      ExecRuns s i (.next (deliverVal 0 (controlCall req arg s)))
  | read (n : Word) :
      ExecRuns s (.read n) (.next (deliver (fun _ => n) (fun bytes => bytes) (readPanel n.toNat s)))
  | frame {i : Instr} (h : i.isHost = false) (f : CmdFrame) : ExecRuns s i (.next (runFrame f s))

theorem exec_runs (i : Instr) (s : State) : ExecRuns s i (exec i s) := by
  by_cases hw : isWrite i = true
  · rw [exec_write s hw]; exact .write hw
  by_cases hc : isControl i = true
  · obtain ⟨req, arg, e⟩ := exec_control s hc
    rw [e]; exact .control hc req arg
  by_cases hb : i.isHost = false
  · obtain ⟨f, e⟩ := exec_bus s hb
    rw [e]; exact .frame hb f
  cases i with
  | read n => exact .read n
  | write | writeIdle | writeRect | writeHdr | writeBadhdr | writeRow => exact absurd rfl hw
  | setmodeIdle | setmodeRect | setmodeStream | setmodeInvalid | ctrlUnknown => exact absurd rfl hc
  | nop | swreset | slpout | dispon | caset | paset | ramwr | ramrd | pixfmt => exact absurd rfl hb

/-- What a step in which no reset is asserted can do when it answers a next state: an entry of the reset
sequence, nothing when the host presents no request, or one request. -/
inductive Advances (s : State) : State → Prop where
  | resetLineDone (hp : s.phase = .resetLine []) : Advances s (startInit s)
  | resetLine (e : RstStep) (rest : List RstStep) (hp : s.phase = .resetLine (e :: rest)) :
      Advances s (resetLineEntry e rest s)
  | initDone (hp : s.phase = .init []) : Advances s s.attach
  | initCommand (p : Pending) (rest : List Pending) (hp : s.phase = .init (p :: rest)) :
      Advances s (afterInitCommand p.delay rest (runFrame p.frame s))
  | noRequest (hp : s.phase = .done) (ha : s.attached = true) (hh : s.hostIn = []) : Advances s s
  | request {t : State} (i : Instr) (rest : List Byte) (hp : s.phase = .done) (ha : s.attached = true)
      (hd : decode s.cfg s.hostIn = .ok i rest) (he : exec i { s with hostIn := rest } = .next t) :
      Advances s t

/-- Everything `requestStep` can do when it answers a next state (R135, R234). -/
theorem requestStep_cases {s t : State} (h : requestStep s = .next t) :
    (s.hostIn = [] ∧ t = s) ∨
    ∃ i rest, decode s.cfg s.hostIn = .ok i rest ∧ exec i { s with hostIn := rest } = .next t := by
  cases hh : s.hostIn with
  | nil =>
    rw [requestStep, hh] at h
    cases h
    exact .inl ⟨rfl, rfl⟩
  | cons b bytes =>
    simp only [requestStep, takeRequest, hh] at h
    cases hd : decode s.cfg (b :: bytes) with
    | ok i rest => rw [hd] at h; exact .inr ⟨i, rest, rfl, h⟩
    | reject why => rw [hd] at h; cases h

theorem advance_cases {s t : State} (h : advance s = .next t) : s.hung = false ∧ Advances s t := by
  unfold advance at h
  cases hung : s.hung with
  | true => rw [if_pos hung] at h; cases h
  | false =>
    rw [if_neg (by simp [hung])] at h
    refine ⟨rfl, ?_⟩
    split at h
    next hp => cases h; exact .resetLineDone hp
    next e rest hp => cases h; exact .resetLine e rest hp
    next hp => cases h; exact .initDone hp
    next p rest hp =>
      rw [initStep_eq] at h
      cases h
      exact .initCommand p rest hp
    next hp =>
      cases ha : s.attached with
      | false => rw [if_neg (by simp [ha])] at h; cases h
      | true =>
        rw [if_pos ha] at h
        rcases requestStep_cases h with ⟨hh, rfl⟩ | ⟨i, rest, hd, he⟩
        · exact .noRequest hp ha hh
        · exact .request i rest hp ha hd he

/-! ## The observation grows (`00_scope.md` R10) -/

/-- The trace and the responses of `t` are those of `s` and what has been added to them. -/
def Grows (s t : State) : Prop := s.trace <+: t.trace ∧ s.responses <+: t.responses

theorem Grows.rfl' (s : State) : Grows s s := ⟨List.prefix_rfl, List.prefix_rfl⟩

theorem Grows.trans {a b c : State} (h1 : Grows a b) (h2 : Grows b c) : Grows a c :=
  ⟨h1.1.trans h2.1, h1.2.trans h2.2⟩

theorem grows_of_same {s t : State} (ht : t.trace = s.trace) (hr : t.responses = s.responses) : Grows s t :=
  ⟨ht ▸ List.prefix_rfl, hr ▸ List.prefix_rfl⟩

theorem grows_of_events {s t : State} {evs : List Event} (ht : t.trace = s.trace ++ evs)
    (hr : t.responses = s.responses) : Grows s t :=
  ⟨⟨evs, ht.symm⟩, hr ▸ List.prefix_rfl⟩

theorem respond_grows (st : Status) (v : Word) (d : List Byte) (s : State) : Grows s (s.respond st v d) :=
  ⟨List.prefix_rfl, List.prefix_append _ _⟩

theorem delay_grows (d : Nat) (s : State) : Grows s (s.delay d) := by
  unfold State.delay
  split
  · exact grows_of_events rfl rfl
  · exact Grows.rfl' s

/-- `call P?` followed by more (R13). -/
theorem Grows.andThen {α β : Type} {s : State} {r : Run α} {f : α → State → Run β} (h : Grows s r.st)
    (hf : ∀ a t, Grows t (f a t).st) : Grows s (r.andThen f).st :=
  andThen_keeps (R := Grows) Grows.trans h fun a t _ => hf a t

theorem Grows.deliver {α : Type} {s : State} {r : Run α} (h : Grows s r.st) (v : α → Word)
    (d : α → List Byte) : Grows s (deliver v d r) :=
  deliver_keeps v d (fun t _ _ _ ht => ht.trans (respond_grows _ _ _ t)) h

theorem bus_grows (segs : List Seg) (s : State) : Grows s (bus segs s).st := by
  rcases bus_cases segs s with ⟨_, _, h⟩ | ⟨_, h⟩ | ⟨_, h⟩ <;> rw [h]
  · exact grows_of_events rfl rfl
  · exact grows_of_events rfl rfl
  · exact grows_of_same rfl rfl

theorem sendCommand_grows (code : Byte) (s : State) : Grows s (sendCommand code s).st := by
  rcases sendCommand_cases code s with ⟨_, _, h⟩ | ⟨_, h⟩ | ⟨_, h⟩ <;> rw [h] <;>
    exact grows_of_events rfl rfl

theorem sendData_grows (bytes : List Byte) (s : State) : Grows s (sendData bytes s).st :=
  (bus_grows _ s).andThen fun _ t => Grows.rfl' t

theorem dataPhase_grows (segs : List Seg) (s : State) : Grows s (dataPhase segs s).st := by
  induction segs generalizing s with
  | nil => exact Grows.rfl' s
  | cons g rest ih => exact (bus_grows [g] s).andThen fun _ t => ih t

theorem columnStep_grows (x1 x2 : Half) (s : State) : Grows s (columnStep x1 x2 s).st := by
  unfold columnStep
  split
  · exact Grows.rfl' s
  · exact Grows.andThen (sendCommand_grows _ s.dropCol) fun _ t =>
      (sendData_grows _ t).andThen fun _ _ => grows_of_same rfl rfl

theorem rowStep_grows (y1 y2 : Half) (s : State) : Grows s (rowStep y1 y2 s).st := by
  unfold rowStep
  split
  · exact Grows.rfl' s
  · exact Grows.andThen (sendCommand_grows _ s.dropRow) fun _ t =>
      (sendData_grows _ t).andThen fun _ _ => grows_of_same rfl rfl

theorem setWindow_grows (x y w h : Int) (s : State) : Grows s (setWindow x y w h s).st :=
  (columnStep_grows _ _ s).andThen fun _ t => rowStep_grows _ _ t

theorem sendRows_grows (buf : List Byte) (n : Nat) (s : State) : Grows s (sendRows buf n s).st := by
  induction n generalizing s with
  | zero => exact Grows.rfl' s
  | succ n ih => exact (sendData_grows buf s).andThen fun _ t => ih t

theorem fillRect_grows (x y w h : Nat) (c : Color) (s : State) : Grows s (fillRect x y w h c s).st := by
  unfold fillRect
  split
  · exact grows_of_same rfl rfl
  · exact Grows.andThen (setWindow_grows _ _ _ _ s.popAlloc) fun _ t =>
      (sendCommand_grows _ t).andThen fun _ u =>
        (sendRows_grows _ _ u).andThen fun _ v => sendCommand_grows _ v

theorem readPanel_grows (n : Nat) (s : State) : Grows s (readPanel n s).st :=
  (setWindow_grows _ _ _ _ s).andThen fun _ t =>
    (sendCommand_grows _ t).andThen fun _ u => bus_grows _ u

theorem enterStream_grows (s : State) : Grows s (enterStream s).st := by
  rcases enterStream_cases s with ⟨_, _, e⟩ | ⟨_, e⟩ <;> rw [e]
  · exact grows_of_same rfl rfl
  · have base : Grows s s.streamBase := by
      rw [streamBase_eq]; exact grows_of_same rfl rfl
    exact base.trans ((setWindow_grows _ _ _ _ _).andThen fun _ t => sendCommand_grows _ t)

theorem controlCall_grows (req arg : Byte) (s : State) : Grows s (controlCall req arg s).st := by
  unfold controlCall setModeCall
  split
  · exact Grows.rfl' s
  split
  · exact grows_of_same rfl rfl
  split
  · exact grows_of_same rfl rfl
  split
  · exact enterStream_grows s
  · exact grows_of_same rfl rfl

theorem afterCopy_grows (s : State) : Grows s (afterCopy s).st := by
  unfold afterCopy
  split
  · rcases streamFlush_cases s with ⟨_, _, e⟩ | ⟨_, e⟩ | ⟨_, e⟩ <;> rw [e]
    · exact grows_of_events rfl rfl
    · exact grows_of_events rfl rfl
    · exact grows_of_same rfl rfl
  · exact grows_of_same rfl rfl

theorem streamRow_grows {p : List Byte} {s t : State} (h : streamRow p s = .next t) : Grows s t := by
  rcases streamRow_cases p s with ⟨_, _, e⟩ | ⟨_, e⟩ | ⟨_, _, e⟩ <;> rw [e] at h <;> cases h
  exact Grows.deliver (afterCopy_grows (copyRow s.rowOffset.toNat p s)) _ _

theorem streamHeader_grows {x y w h : Word} {s t : State} (hn : streamHeader x y w h s = .next t) :
    Grows s t := by
  unfold streamHeader at hn
  split at hn <;> cases hn
  exact Grows.deliver (r := ⟨.ok (), s.openWindow x y w h⟩) (grows_of_same rfl rfl) _ _

theorem writeDispatch_grows {p : List Byte} {s t : State} (h : writeDispatch p s = .next t) : Grows s t := by
  have runs := writeDispatch_runs s p
  rw [h] at runs
  generalize ho : Host.Outcome.next t = o at runs
  cases runs with
  | idle => cases ho; exact (sendCommand_grows _ s).deliver _ _
  | rect => cases ho; exact Grows.deliver (fillRect_grows _ _ _ _ _ s.popDraw) _ _
  | header => exact streamHeader_grows ho.symm
  | badHeader => cases ho; exact Grows.deliver (Grows.rfl' s) _ _
  | row => exact streamRow_grows ho.symm

theorem runFrame_grows (f : CmdFrame) (s : State) : Grows s (runFrame f s) := by
  have sent : Grows s (sendFrame f s).st :=
    (sendCommand_grows _ s).andThen fun _ t => dataPhase_grows _ t
  unfold runFrame endCommand State.abandonInit
  split
  · exact sent
  · split <;> exact sent
  · exact sent

theorem afterInitCommand_grows (d : Nat) (rest : List Pending) (s : State) :
    Grows s (afterInitCommand d rest s) := by
  unfold afterInitCommand
  split
  · exact Grows.rfl' s
  · split
    · exact delay_grows d s
    · exact Grows.rfl' s
    · exact Grows.rfl' s

/-- Every instruction only adds to the observation, whatever the environment answers. -/
theorem exec_grows {i : Instr} {s t : State} (h : exec i s = .next t) : Grows s t := by
  have runs := exec_runs i s
  generalize ho : exec i s = o at runs
  rw [h] at ho
  cases runs with
  | write => exact writeDispatch_grows ho.symm
  | control _ req arg => cases ho; exact (controlCall_grows req arg s).deliver _ _
  | read n => cases ho; exact (readPanel_grows _ s).deliver _ _
  | frame _ f => cases ho; exact runFrame_grows f s

theorem advance_grows {s t : State} (h : advance s = .next t) : Grows s t := by
  obtain ⟨-, adv⟩ := advance_cases h
  cases adv with
  | resetLineDone => exact grows_of_same rfl rfl
  | resetLine e rest =>
    exact Grows.trans (b := s.lineRST e.level) (grows_of_events rfl rfl) (delay_grows e.delay _)
  | initDone => exact grows_of_same rfl rfl
  | initCommand p rest => exact (runFrame_grows _ s).trans (afterInitCommand_grows _ _ _)
  | noRequest => exact Grows.rfl' s
  | request i rest _ _ _ he => exact exec_grows (s := { s with hostIn := rest }) he

/-- Settles O52: a step without a reset is `advance`, which only adds; a reset is `restart`, which empties the
trace and keeps the responses. -/
theorem observationGrowsUntilReset : Obligations.ObservationGrowsUntilReset := by
  intro s t h
  rcases step_cases h with ⟨hidle, hadv⟩ | ⟨hreset, bytes, rfl, -⟩
  · obtain ⟨⟨evs, htrace⟩, ⟨rs, hresp⟩⟩ := advance_grows hadv
    exact ⟨⟨rs, hresp.symm⟩, fun _ => ⟨evs, htrace.symm⟩, fun hne => absurd hidle hne⟩
  · exact ⟨⟨[], by simp⟩, fun hidle => absurd hidle hreset, fun _ => ⟨by simp, by simp⟩⟩

end Sys2Proof.Machine
end

section
/-! SUPPORT. What an instruction and a step leave alone, said once: which registers each kind of request, each
bus row and each step of the reset sequence can change, and what the line `DC` and the window cache do under
them. Settles O13, O49, O50, O53, O55, O57, O58 and O59. -/

namespace Sys2Proof.Machine

open Sys2Proof

/-! ## Requests that change no register of the block -/

/-- Only the bus and the window cache have been used, and the host may have had a response (R61). -/
def OnlyServed (s t : State) : Prop := OnlyWindow s { t with responses := s.responses }

theorem OnlyWindow.served {s t : State} (h : OnlyWindow s t) : OnlyServed s t := by
  unfold OnlyServed OnlyWindow at *
  rw [h]

theorem OnlyWindow.deliver {α : Type} {s : State} {r : Run α} (h : OnlyWindow s r.st) (v : α → Word)
    (d : α → List Byte) : OnlyServed s (deliver v d r) :=
  deliver_keeps v d (fun _ _ _ _ ht => ht) h.served

/-- A result alone changes nothing but the responses. -/
theorem deliver_onlyServed {α : Type} (s : State) (res : Res α) (v : α → Word) (d : α → List Byte) :
    OnlyServed s (deliver v d ⟨res, s⟩) :=
  OnlyWindow.deliver (r := ⟨res, s⟩) (OnlyWindow.rfl' s) v d

/-- The parameters and the registers that are neither the bus's nor the window cache's are the same. -/
structure SameRegisters (s t : State) : Prop where
  cfg : t.cfg = s.cfg
  mode : t.mode = s.mode
  stream : SameStream s t
  fb : t.fb = s.fb
  fbCreated : t.fbCreated = s.fbCreated
  rst : t.rst = s.rst
  attached : t.attached = s.attached
  phase : t.phase = s.phase

theorem OnlyServed.registers {s t : State} (h : OnlyServed s t) : SameRegisters s t := by
  obtain ⟨cfg, mode, stream, fb, created, rst, attached, phase, -⟩ := OnlyWindow.fields h
  exact ⟨cfg, mode, stream, fb, created, rst, attached, phase⟩

/-! ## What an instruction can change -/

/-- Where the cursor is after a row is copied (`44_frame_stream.md` R165 to R167): where it was while the
flush is waited for, back to AwaitingHeader after the flush, or one row further. -/
inductive RowEnds (s : State) : State → Prop where
  | waiting : RowEnds s s
  | flushed : RowEnds s s.closeWindow
  | moved (h : s.nextRow.toInt + 1 ≠ s.pwinH.toInt) : RowEnds s s.advanceRow

theorem afterCopy_ends (s : State) : ∃ u, RowEnds s u ∧ OnlyWindow u (afterCopy s).st := by
  unfold afterCopy
  split
  next =>
    rcases streamFlush_cases s with ⟨_, _, e⟩ | ⟨_, e⟩ | ⟨_, e⟩ <;> rw [e]
    · exact ⟨_, .flushed, rfl⟩
    · exact ⟨_, .flushed, rfl⟩
    · exact ⟨_, .waiting, rfl⟩
  next h => exact ⟨_, .moved h, OnlyWindow.rfl' _⟩

/-- Everything the instruction `i` can have changed when it answers `t`, besides the bus, the window cache and
the responses. -/
inductive Changes (i : Instr) (s t : State) : Prop where
  /-- Nothing. -/
  | served (ht : OnlyServed s t)
  /-- `MODE`, to one of the modes without a frame buffer (R137 to R139). -/
  | mode (hc : isControl i = true) (m : Mode) (hm : m ≠ .stream) (ht : OnlyServed (s.setMode m) t)
  /-- `MODE` and `FB_CREATED` (R140). -/
  | stream (hc : isControl i = true) (ht : OnlyServed (s.createFb.setMode .stream) t)
  /-- The pending window and the cursor, to a valid header's (R161). -/
  | header (hw : isWrite i = true) (hm : s.mode = .stream) (hr : s.nextRow = -1) {x y w h : Word}
      (hv : validRect x y w h = true) (ht : OnlyServed (s.openWindow x y w h) t)
  /-- A row of `FB`, inside it, and the cursor (R164 to R167). -/
  | row (hw : isWrite i = true) (hm : s.mode = .stream) (hr : s.nextRow ≠ -1) {o : Nat} {p : List Byte}
      (hb : o + p.length ≤ Config.fbSize) {u : State} (hu : RowEnds (copyRow o p s) u)
      (ht : OnlyServed u t)
  /-- The position in the reset sequence (`45_read_and_init.md` R185). -/
  | frame (hb : i.isHost = false) (ht : OnlyServed s { t with phase := s.phase })

theorem streamBase_onlyWindow (s : State) : OnlyWindow (s.createFb.setMode .stream) s.streamBase := by
  unfold State.streamBase
  by_cases h : s.fbCreated = true
  · rw [if_pos h]
    simp [OnlyWindow, State.setMode, State.createFb, h]
  · rw [if_neg h]
    rfl

theorem enterStream_changes {i : Instr} (hc : isControl i = true) (s : State) :
    Changes i s (deliverVal 0 (enterStream s)) := by
  rcases enterStream_cases s with ⟨_, _, e⟩ | ⟨_, e⟩ <;> rw [e]
  · exact .served (OnlyWindow.deliver (r := ⟨.err .noMem, s.popAlloc⟩) (popAlloc_onlyWindow s) _ _)
  · exact .stream hc (((streamBase_onlyWindow s).trans (enterStream_onlyWindow s)).deliver _ _)

theorem controlCall_changes {i : Instr} (hc : isControl i = true) (req arg : Byte) (s : State) :
    Changes i s (deliverVal 0 (controlCall req arg s)) := by
  have plain : ∀ m res, m ≠ .stream → Changes i s (deliverVal 0 ⟨res, s.setMode m⟩) :=
    fun m res hm => .mode hc m hm (deliver_onlyServed _ res _ _)
  unfold controlCall setModeCall
  split
  · exact .served (deliver_onlyServed s _ _ _)
  split
  · exact plain .idle _ (by decide)
  split
  · exact plain .rect _ (by decide)
  split
  · exact enterStream_changes hc s
  · exact plain .idle _ (by decide)

theorem writeDispatch_changes {i : Instr} (hw : isWrite i = true) {p : List Byte} {s t : State}
    (h : writeDispatch p s = .next t) : Changes i s t := by
  have runs := writeDispatch_runs s p
  generalize ho : writeDispatch p s = o at runs
  rw [h] at ho
  cases runs with
  | idle => cases ho; exact .served ((sendCommand_onlyBus _ s).onlyWindow.deliver _ _)
  | rect => cases ho; exact .served ((fillRect_onlyWindow _ _ _ _ _ s.popDraw).deliver _ _)
  | header hm hr =>
    unfold streamHeader at ho
    split at ho <;> cases ho
    next hv => exact .header hw hm hr (by simpa using hv) (deliver_onlyServed _ _ _ _)
  | badHeader => cases ho; exact .served (deliver_onlyServed s _ _ _)
  | row hm hr =>
    rcases streamRow_cases p s with ⟨_, _, e⟩ | ⟨_, e⟩ | ⟨h0, hb, e⟩ <;> rw [e] at ho <;> cases ho
    obtain ⟨u, hu, hou⟩ := afterCopy_ends (copyRow s.rowOffset.toNat p s)
    exact .row hw hm hr (by omega) hu (hou.deliver _ _)

/-- What every instruction can change, whatever the environment answers. -/
theorem exec_changes {i : Instr} {s t : State} (h : exec i s = .next t) : Changes i s t := by
  have runs := exec_runs i s
  generalize ho : exec i s = o at runs
  rw [h] at ho
  cases runs with
  | write hw => exact writeDispatch_changes hw ho.symm
  | control hc req arg => cases ho; exact controlCall_changes hc req arg s
  | read n => cases ho; exact .served ((readPanel_onlyWindow _ s).deliver _ _)
  | frame hb f => cases ho; exact .frame hb (runFrame_onlyBus f s).1.onlyWindow.served

/-! ## What a step without a reset can change -/

/-- Only the reset sequence has moved on (R230): the bus, `RST` and the position. -/
def OnlyBoot (s t : State) : Prop :=
  t = { s with
    trace := t.trace, dc := t.dc, env := t.env, hung := t.hung, rst := t.rst, phase := t.phase }

theorem OnlyBoot.trans {a b c : State} (h1 : OnlyBoot a b) (h2 : OnlyBoot b c) : OnlyBoot a c := by
  unfold OnlyBoot at *
  rw [h2, h1]

/-- Every field the reset sequence leaves alone, at once. -/
theorem OnlyBoot.fields {s t : State} (h : OnlyBoot s t) :
    t.cfg = s.cfg ∧ t.mode = s.mode ∧ SameCache s t ∧ SameStream s t ∧ t.fb = s.fb ∧
    t.fbCreated = s.fbCreated ∧ t.attached = s.attached := by
  unfold OnlyBoot at h
  rw [h]
  simp [SameCache, SameStream]

theorem OnlyBus.onlyBoot {s t : State} (h : OnlyBus s t) : OnlyBoot s t := by
  unfold OnlyBus at h
  unfold OnlyBoot
  rw [h]

/-- A post-delay and the position it leaves (R184, R230). -/
theorem delay_onlyBoot (d : Nat) (phase : Phase) (s : State) :
    OnlyBoot s { s.delay d with phase := phase } := by
  unfold State.delay
  split <;> rfl

theorem resetLineEntry_onlyBoot (e : RstStep) (rest : List RstStep) (s : State) :
    OnlyBoot s (resetLineEntry e rest s) :=
  OnlyBoot.trans (b := s.lineRST e.level) rfl (delay_onlyBoot e.delay _ _)

theorem runFrame_onlyBoot (f : CmdFrame) (s : State) : OnlyBoot s (runFrame f s) := by
  have sent : OnlyBoot s (sendFrame f s).st := (sendFrame_onlyBus f s).onlyBoot
  have abandon : ∀ t : State, OnlyBoot t t.abandonInit := fun t => by
    unfold State.abandonInit
    split <;> rfl
  unfold runFrame endCommand
  split
  · exact sent
  · exact sent.trans (abandon _)
  · exact sent

/-- Everything that can follow a command of the init script: its post-delay and the rest of the script, or
nothing when it failed or never completed (R184, R185). -/
theorem afterInitCommand_cases (d : Nat) (rest : List Pending) (s : State) :
    afterInitCommand d rest s = s ∨
    afterInitCommand d rest s = { s.delay d with phase := .init rest } := by
  unfold afterInitCommand
  split
  · exact .inl rfl
  · split
    · exact .inr rfl
    · exact .inl rfl
    · exact .inl rfl

theorem afterInitCommand_onlyBoot (d : Nat) (rest : List Pending) (s : State) :
    OnlyBoot s (afterInitCommand d rest s) := by
  rcases afterInitCommand_cases d rest s with e | e <;> rw [e]
  · rfl
  · exact delay_onlyBoot d _ s

/-- A step of the reset sequence: `ATTACHED` is written only as the sequence ends (`45_read_and_init.md`
R184). -/
structure Boots (s t : State) : Prop where
  frame : OnlyBoot s { t with attached := s.attached }
  attached : t.phase ≠ .done → t.attached = s.attached

theorem OnlyBoot.boots {s t : State} (h : OnlyBoot s t) : Boots s t := by
  obtain ⟨-, -, -, -, -, -, attached⟩ := h.fields
  refine ⟨?_, fun _ => attached⟩
  rw [← attached]
  exact h

/-- What a step without a reset can change: a step of the reset sequence, or what one host request can. A step
that finds no request changes nothing, as a request may. -/
theorem advance_changes {s t : State} (h : advance s = .next t) :
    (s.phase ≠ .done ∧ Boots s t) ∨
    (s.phase = .done ∧ ∃ i rest, i.isHost = true ∧ Changes i { s with hostIn := rest } t) := by
  obtain ⟨-, adv⟩ := advance_cases h
  cases adv with
  | resetLineDone hp => exact .inl ⟨by simp [hp], OnlyBoot.boots rfl⟩
  | resetLine e rest hp => exact .inl ⟨by simp [hp], (resetLineEntry_onlyBoot e rest s).boots⟩
  | initDone hp => exact .inl ⟨by simp [hp], rfl, fun hne => absurd rfl hne⟩
  | initCommand p rest hp =>
    exact .inl ⟨by simp [hp],
      ((runFrame_onlyBoot p.frame s).trans (afterInitCommand_onlyBoot _ _ _)).boots⟩
  | noRequest hp =>
    exact .inr ⟨hp, .read 0, s.hostIn, rfl, .served (OnlyWindow.rfl' s).served⟩
  | request i rest hp _ hd he => exact .inr ⟨hp, i, rest, decode_isHost hd, exec_changes he⟩

/-- What the steps without a reset keep, and a reset with the same parameters sets up, every step keeps
(R230). -/
theorem step_keeps {P : State → Prop} (hpop : ∀ s, P s → P s.popReset)
    (hadvance : ∀ s t, P s → advance s = .next t → P t)
    (hrestart : ∀ s u : State, P s → u.cfg = s.cfg → P u.restart) {s t : State} (hs : P s)
    (h : step s = .next t) : P t := by
  rcases step_cases h with ⟨-, hadv⟩ | ⟨-, bytes, rfl, -⟩
  · exact hadvance _ t (hpop s hs) hadv
  · exact hrestart s _ hs rfl

/-! ## `MODE`, `FB` and the registers that persist -/

/-- Settles O49: of all that an instruction can change, only what a control call can writes `MODE`. -/
theorem onlyModeSetChangesMode : Obligations.OnlyModeSetChangesMode := by
  intro i s t hctl h
  cases exec_changes h with
  | served ht | header _ _ _ _ ht | frame _ ht => exact ht.registers.mode
  | mode hc | stream hc => simp [hctl] at hc
  | row _ _ _ _ hu ht =>
    have hmode := ht.registers.mode
    cases hu <;> exact hmode

/-- Settles O50: of all that an instruction can change, only the copy of a row writes `FB`. -/
theorem onlyRowsWriteFrameBuffer : Obligations.OnlyRowsWriteFrameBuffer := by
  intro i s t h hout
  cases exec_changes h with
  | served ht | mode _ _ _ ht | stream _ ht | header _ _ _ _ ht | frame _ ht => exact ht.registers.fb
  | row hw hm hr =>
    rcases hout with hout | hout | hout
    · simp [hw] at hout
    · exact absurd hm hout
    · exact absurd hout hr

/-- What every host request leaves alone: the parameters, `ATTACHED`, `RST`, the position in the reset
sequence, and `FB_CREATED` once it is set (R28, R31, R32, R36). -/
theorem Changes.persists {i : Instr} {s t : State} (h : Changes i s t) (hi : i.isHost = true) :
    t.cfg = s.cfg ∧ (s.fbCreated = true → t.fbCreated = true) ∧ t.attached = s.attached ∧
    t.phase = s.phase ∧ t.rst = s.rst := by
  cases h with
  | served ht | mode _ _ _ ht | header _ _ _ _ ht =>
    obtain ⟨cfg, -, -, -, created, rst, attached, phase⟩ := ht.registers
    exact ⟨cfg, (created.trans ·), attached, phase, rst⟩
  | stream _ ht =>
    obtain ⟨cfg, -, -, -, created, rst, attached, phase⟩ := ht.registers
    exact ⟨cfg, fun _ => created, attached, phase, rst⟩
  | row _ _ _ _ hu ht =>
    obtain ⟨cfg, -, -, -, created, rst, attached, phase⟩ := ht.registers
    cases hu <;> exact ⟨cfg, (created.trans ·), attached, phase, rst⟩
  | frame hb => simp [hi] at hb

theorem advance_cfg {s t : State} (h : advance s = .next t) : t.cfg = s.cfg := by
  rcases advance_changes h with ⟨-, hb⟩ | ⟨-, i, rest, hi, hc⟩
  · obtain ⟨cfg, -⟩ := hb.frame.fields
    exact cfg
  · obtain ⟨cfg, -⟩ := hc.persists hi
    exact cfg

theorem advance_fbCreated {s t : State} (h : advance s = .next t) (hf : s.fbCreated = true) :
    t.fbCreated = true := by
  rcases advance_changes h with ⟨-, hb⟩ | ⟨-, i, rest, hi, hc⟩
  · obtain ⟨-, -, -, -, -, created, -⟩ := hb.frame.fields
    exact created.trans hf
  · obtain ⟨-, created, -⟩ := hc.persists hi
    exact created hf

/-- Settles O53: neither the reset sequence nor a host request writes the parameters or clears `FB_CREATED`;
a host request, all that a block past the sequence runs, leaves `ATTACHED`, the position and `RST` alone. -/
theorem parametersFbCreatedAttachedPersist : Obligations.ParametersFbCreatedAttachedPersist := by
  intro s t h
  rcases step_cases h with ⟨-, hadv⟩ | ⟨hreset, bytes, rfl, -⟩
  · have cfg := advance_cfg hadv
    have created := advance_fbCreated hadv
    refine ⟨cfg, fun _ => ⟨created, fun hattached hdone => ?_⟩⟩
    rcases advance_changes hadv with ⟨hp, -⟩ | ⟨-, i, rest, hi, hc⟩
    · exact absurd hdone hp
    · obtain ⟨-, -, attached, phase, rst⟩ := hc.persists hi
      exact ⟨attached.trans hattached, phase.trans hdone, rst⟩
  · exact ⟨rfl, fun hidle => absurd hidle hreset⟩

/-! ## The stream registers (R27) -/

theorem StreamInv.of_same {s t : State} (h : SameStream s t) (hs : StreamInv s) : StreamInv t := by
  obtain ⟨hv, hx, hy, hw, hh, hr⟩ := h
  rw [StreamInv, hv, hx, hy, hw, hh, hr]
  exact hs

/-- A header that passes `ValidRect` opens a window of at least one row. -/
theorem openWindow_streamInv {x y w h : Word} (s : State) (hv : validRect x y w h = true) :
    StreamInv (s.openWindow x y w h) := by
  have hpos : 1 ≤ h.toInt := by
    simp only [validRect, Bool.and_eq_true, decide_eq_true_eq] at hv
    omega
  have hzero : (0 : Word).toInt = 0 := by decide
  refine ⟨by simp, fun _ => ⟨hzero.ge, ?_, hv⟩⟩
  rw [openWindow_nextRow, openWindow_pwinH]
  omega

/-- The cursor stays inside the window after each row but the last, which closes it. -/
theorem RowEnds.streamInv {s u : State} (hu : RowEnds s u) (hs : StreamInv s) (hr : s.nextRow ≠ -1) :
    StreamInv u := by
  obtain ⟨hopen, hin⟩ := hs
  obtain ⟨h0, h1, hv⟩ := hin hr
  cases hu with
  | waiting => exact ⟨hopen, hin⟩
  | flushed => exact ⟨by simp, fun hne => absurd rfl hne⟩
  | moved hlast =>
    have hnext : s.advanceRow.nextRow.toInt = s.nextRow.toInt + 1 := advanceRow_toInt h0 h1
    have hne : s.advanceRow.nextRow ≠ -1 := fun e => by
      have := nextRow_neg_one.mp e
      omega
    refine ⟨⟨fun e => absurd (hopen.mp e) hr, fun e => absurd e hne⟩, fun _ => ⟨by omega, ?_, hv⟩⟩
    rw [hnext, advanceRow_pwinH]
    omega

theorem Changes.streamInv {i : Instr} {s t : State} (h : Changes i s t) (hs : StreamInv s) :
    StreamInv t := by
  cases h with
  | served ht => exact .of_same ht.registers.stream hs
  | mode _ m _ ht => exact .of_same (s := s.setMode m) ht.registers.stream hs
  | stream _ ht => exact .of_same (s := s.createFb.setMode .stream) ht.registers.stream hs
  | header _ _ _ hv ht => exact .of_same ht.registers.stream (openWindow_streamInv s hv)
  | row _ _ hr _ hu ht =>
    exact .of_same ht.registers.stream (hu.streamInv (s := copyRow _ _ s) hs hr)
  | frame _ ht => exact .of_same (t := t) ht.registers.stream hs

theorem advance_streamInv {s t : State} (hs : StreamInv s) (h : advance s = .next t) : StreamInv t := by
  rcases advance_changes h with ⟨-, hb⟩ | ⟨-, i, rest, -, hc⟩
  · obtain ⟨-, -, -, stream, -⟩ := hb.frame.fields
    exact .of_same (t := t) stream hs
  · exact hc.streamInv hs

/-- Settles O55: of all that a step can change, only a header and a row write the stream registers. -/
theorem stepKeepsStreamInvariant : Obligations.StepKeepsStreamInvariant := fun _ _ =>
  step_keeps (fun _ h => h) (fun _ _ => advance_streamInv) fun _ _ _ _ =>
    ⟨by simp, fun hne => absurd rfl hne⟩

/-! ## Relations that every bus message keeps -/

/-- The parameters, the trace, `DC` and the mark of a message that never completes are the same. -/
def SameLine (s t : State) : Prop :=
  t.cfg = s.cfg ∧ t.trace = s.trace ∧ t.dc = s.dc ∧ t.hung = s.hung

/-- A relation between the states before and after that one bus message keeps, that `send_command` keeps, and
that sees nothing else of the state. Every procedure is made of these three, so it keeps the relation too. -/
structure BusRel (R : State → State → Prop) : Prop where
  trans : ∀ {a b c}, R a b → R b c → R a c
  quiet : ∀ {s t}, SameLine s t → R s t
  bus : ∀ segs s, R s (bus segs s).st
  command : ∀ code s, R s (sendCommand code s).st

namespace BusRel

variable {R : State → State → Prop} (hR : BusRel R)
include hR

theorem refl (s : State) : R s s := hR.quiet ⟨rfl, rfl, rfl, rfl⟩

/-- `call P?` followed by more (R13). -/
theorem andThen {α β : Type} {s : State} {r : Run α} {f : α → State → Run β} (h : R s r.st)
    (hf : ∀ a t, R t (f a t).st) : R s (r.andThen f).st :=
  andThen_keeps (R := R) hR.trans h fun a t _ => hf a t

theorem deliver {α : Type} {s : State} {r : Run α} (h : R s r.st) (v : α → Word) (d : α → List Byte) :
    R s (Machine.deliver v d r) :=
  deliver_keeps v d (fun _ _ _ _ ht => hR.trans ht (hR.quiet ⟨rfl, rfl, rfl, rfl⟩)) h

theorem sendData (bytes : List Byte) (s : State) : R s (sendData bytes s).st :=
  hR.andThen (hR.bus _ s) fun _ t => hR.refl t

theorem dataPhase (segs : List Seg) (s : State) : R s (dataPhase segs s).st := by
  induction segs generalizing s with
  | nil => exact hR.refl s
  | cons g rest ih => exact hR.andThen (hR.bus [g] s) fun _ t => ih t

theorem sendRows (buf : List Byte) (n : Nat) (s : State) : R s (sendRows buf n s).st := by
  induction n generalizing s with
  | zero => exact hR.refl s
  | succ n ih => exact hR.andThen (hR.sendData buf s) fun _ t => ih t

theorem columnStep (x1 x2 : Half) (s : State) : R s (columnStep x1 x2 s).st := by
  unfold Machine.columnStep
  split
  · exact hR.refl s
  · exact hR.andThen (hR.trans (b := s.dropCol) (hR.quiet ⟨rfl, rfl, rfl, rfl⟩) (hR.command _ _)) fun _ t =>
      hR.andThen (hR.sendData _ t) fun _ _ => hR.quiet ⟨rfl, rfl, rfl, rfl⟩

theorem rowStep (y1 y2 : Half) (s : State) : R s (rowStep y1 y2 s).st := by
  unfold Machine.rowStep
  split
  · exact hR.refl s
  · exact hR.andThen (hR.trans (b := s.dropRow) (hR.quiet ⟨rfl, rfl, rfl, rfl⟩) (hR.command _ _)) fun _ t =>
      hR.andThen (hR.sendData _ t) fun _ _ => hR.quiet ⟨rfl, rfl, rfl, rfl⟩

theorem setWindow (x y w h : Int) (s : State) : R s (setWindow x y w h s).st :=
  hR.andThen (hR.columnStep _ _ s) fun _ t => hR.rowStep _ _ t

theorem fillRect (x y w h : Nat) (c : Color) (s : State) : R s (fillRect x y w h c s).st := by
  have pop : R s s.popAlloc := hR.quiet ⟨rfl, rfl, rfl, rfl⟩
  unfold Machine.fillRect
  split
  · exact pop
  · exact hR.andThen (hR.trans pop (hR.setWindow _ _ _ _ _)) fun _ t =>
      hR.andThen (hR.command _ t) fun _ u => hR.andThen (hR.sendRows _ _ u) fun _ v => hR.command _ v

theorem readPanel (n : Nat) (s : State) : R s (readPanel n s).st :=
  hR.andThen (hR.setWindow _ _ _ _ s) fun _ t => hR.andThen (hR.command _ t) fun _ u => hR.bus _ u

theorem controlCall (req arg : Byte) (s : State) : R s (controlCall req arg s).st := by
  have mode : ∀ m, R s (s.setMode m) := fun _ => hR.quiet ⟨rfl, rfl, rfl, rfl⟩
  unfold Machine.controlCall setModeCall
  split
  · exact hR.refl s
  split
  · exact mode .idle
  split
  · exact mode .rect
  split
  · rcases enterStream_cases s with ⟨_, _, e⟩ | ⟨_, e⟩ <;> rw [e]
    · exact hR.quiet ⟨rfl, rfl, rfl, rfl⟩
    · have base : R s s.streamBase := by
        rw [streamBase_eq]; exact hR.quiet ⟨rfl, rfl, rfl, rfl⟩
      exact hR.andThen (hR.trans base (hR.setWindow _ _ _ _ _)) fun _ t => hR.command _ t
  · exact mode .idle

theorem afterCopy (s : State) : R s (afterCopy s).st := by
  have flush : R s (Machine.sendData (s.fbRead 0 Config.fbSize) s).st := hR.sendData _ s
  unfold Machine.afterCopy streamFlush
  split
  · generalize Machine.sendData (s.fbRead 0 Config.fbSize) s = r at flush ⊢
    obtain ⟨res, t⟩ := r
    cases res with
    | ok a => exact hR.trans flush (hR.quiet ⟨rfl, rfl, rfl, rfl⟩)
    | err e => exact hR.trans flush (hR.quiet ⟨rfl, rfl, rfl, rfl⟩)
    | hung => exact flush
  · exact hR.quiet ⟨rfl, rfl, rfl, rfl⟩

theorem writeDispatch {p : List Byte} {s t : State} (h : writeDispatch p s = .next t) : R s t := by
  have runs := writeDispatch_runs s p
  generalize ho : Machine.writeDispatch p s = o at runs
  rw [h] at ho
  cases runs with
  | idle => cases ho; exact hR.deliver (hR.command _ s) _ _
  | rect =>
    cases ho
    exact hR.deliver (s := s) (hR.trans (b := s.popDraw) (hR.quiet ⟨rfl, rfl, rfl, rfl⟩)
      (hR.fillRect _ _ _ _ _ _)) _ _
  | header =>
    unfold streamHeader at ho
    split at ho <;> cases ho
    exact hR.quiet ⟨rfl, rfl, rfl, rfl⟩
  | badHeader => cases ho; exact hR.quiet ⟨rfl, rfl, rfl, rfl⟩
  | row =>
    rcases streamRow_cases p s with ⟨_, _, e⟩ | ⟨_, e⟩ | ⟨_, _, e⟩ <;> rw [e] at ho <;> cases ho
    exact hR.deliver (s := s) (hR.trans (b := copyRow s.rowOffset.toNat p s)
      (hR.quiet ⟨rfl, rfl, rfl, rfl⟩) (hR.afterCopy _)) _ _

theorem runFrame (f : CmdFrame) (s : State) : R s (runFrame f s) := by
  have sent : R s (sendFrame f s).st := hR.andThen (hR.command _ s) fun _ t => hR.dataPhase _ t
  unfold Machine.runFrame endCommand State.abandonInit
  split
  · exact sent
  · split
    · exact hR.trans sent (hR.quiet ⟨rfl, rfl, rfl, rfl⟩)
    · exact sent
    · exact sent
  · exact sent

/-- Every instruction keeps the relation, whatever the environment answers. -/
theorem exec {i : Instr} {s t : State} (h : exec i s = .next t) : R s t := by
  have runs := exec_runs i s
  generalize ho : Machine.exec i s = o at runs
  rw [h] at ho
  cases runs with
  | write => exact hR.writeDispatch ho.symm
  | control _ req arg => cases ho; exact hR.deliver (hR.controlCall req arg s) _ _
  | read n => cases ho; exact hR.deliver (hR.readPanel _ s) _ _
  | frame _ f => cases ho; exact hR.runFrame f s

end BusRel

/-! ## `DC` (R30) -/

/-- A message leaves the level of `DC` that the trace shows. -/
theorem see_msg_dcLow (c : Config) (v : BusView) (segs : List TraceSeg) (ok : Bool) :
    (BusView.see c v (.msg segs ok)).dcLow = v.dcLow := by
  simp only [BusView.see, BusView.command, BusView.data]
  split <;> split <;> rfl

theorem emit_view (e : Event) (s : State) : (s.emit e).view = BusView.see s.cfg s.view e :=
  busView_append s.cfg s.trace [e]

theorem lineRST_lineInv {l : Level} {s : State} (h : LineInv s) : LineInv (s.lineRST l) :=
  ⟨h.1, (congrArg BusView.dcLow (emit_view (.rst l) s)).trans h.2⟩

theorem delay_lineInv {d : Nat} {s : State} (h : LineInv s) : LineInv (s.delay d) := by
  unfold State.delay
  split
  · exact ⟨h.1, (congrArg BusView.dcLow (emit_view (.delay d) s)).trans h.2⟩
  · exact h

theorem lineInv_busRel : BusRel fun s t => LineInv s → LineInv t where
  trans h1 h2 h := h2 (h1 h)
  quiet := by
    rintro s t ⟨hcfg, htrace, hdc, hhung⟩ h
    rw [LineInv, State.view, hcfg, htrace, hdc, hhung]
    exact h
  bus segs s h := by
    rcases bus_cases segs s with ⟨_, _, e⟩ | ⟨_, e⟩ | ⟨_, e⟩ <;> rw [e]
    · exact ⟨h.1, by rw [emit_view, see_msg_dcLow]; exact h.2⟩
    · exact ⟨h.1, by rw [emit_view, see_msg_dcLow]; exact h.2⟩
    · exact ⟨.inl rfl, h.2⟩
  command code s h := by
    rcases sendCommand_cases code s with ⟨_, _, e⟩ | ⟨_, e⟩ | ⟨_, e⟩ <;> rw [e]
    · exact ⟨.inr rfl, by rw [view_sent_command]; rfl⟩
    · exact ⟨.inr rfl, by rw [view_sent_command]; rfl⟩
    · exact ⟨.inl rfl, congrArg BusView.dcLow (emit_view (.dc false) s)⟩

theorem afterInitCommand_lineInv {d : Nat} {rest : List Pending} {s : State} (h : LineInv s) :
    LineInv (afterInitCommand d rest s) := by
  rcases afterInitCommand_cases d rest s with e | e <;> rw [e]
  · exact h
  · exact delay_lineInv h

theorem advance_lineInv {s t : State} (hs : LineInv s) (h : advance s = .next t) : LineInv t := by
  obtain ⟨-, adv⟩ := advance_cases h
  cases adv with
  | resetLineDone => exact hs
  | resetLine e rest => exact delay_lineInv (lineRST_lineInv (l := e.level) hs)
  | initDone => exact hs
  | initCommand p rest => exact afterInitCommand_lineInv (lineInv_busRel.runFrame p.frame s hs)
  | noRequest => exact hs
  | request i rest _ _ _ he => exact lineInv_busRel.exec (s := { s with hostIn := rest }) he hs

/-- Settles O57: each bus message and each `send_command` keeps the line, so all that is made of them does. -/
theorem stepKeepsSelectorHigh : Obligations.StepKeepsSelectorHigh := fun _ _ =>
  step_keeps (fun _ h => h) (fun _ _ => advance_lineInv) fun _ _ _ _ => ⟨.inr rfl, rfl⟩

/-! ## The window cache (R24) -/

theorem LeavesInStep.cacheInv {α : Type} {r : Run α} (h : LeavesInStep r) : CacheInv r.st := by
  obtain ⟨res, t⟩ := r
  cases res with
  | ok a => exact InStep.cache h
  | err e => exact InStep.cache h
  | hung => exact h.2.1

theorem LeavesInStep.deliver {α : Type} {r : Run α} (h : LeavesInStep r) (v : α → Word)
    (d : α → List Byte) : CacheInv (deliver v d r) :=
  deliver_keeps (P := CacheInv) v d (fun _ _ _ _ ht => ht) h.cacheInv

theorem afterCopy_inStep {s : State} (h : InStep s) : LeavesInStep (afterCopy s) := by
  unfold afterCopy
  split
  · exact streamFlush_inStep h
  · exact ⟨h.cfg, h.cache, h.dc, h.view⟩

theorem controlCall_inStep {s : State} (req arg : Byte) (h : InStep s) :
    LeavesInStep (controlCall req arg s) := by
  unfold controlCall
  split
  · exact h
  · exact setModeCall_inStep arg h

theorem writeDispatch_cacheInv {p : List Byte} {s t : State} (hs : InStep s)
    (h : writeDispatch p s = .next t) : CacheInv t := by
  have runs := writeDispatch_runs s p
  generalize ho : writeDispatch p s = o at runs
  rw [h] at ho
  cases runs with
  | idle =>
    cases ho
    obtain ⟨⟨hcol, hrow⟩, -⟩ := plain_commands hs.cfg
    exact (sendCommand_inStep hs (absurd · hcol) (absurd · hrow)).deliver _ _
  | rect =>
    cases ho
    exact (fillRect_inStep (s := s.popDraw) ⟨hs.cfg, hs.cache, hs.dc, hs.view⟩).deliver _ _
  | header =>
    unfold streamHeader at ho
    split at ho <;> cases ho
    exact hs.cache
  | badHeader => cases ho; exact hs.cache
  | row =>
    rcases streamRow_cases p s with ⟨_, _, e⟩ | ⟨_, e⟩ | ⟨_, _, e⟩ <;> rw [e] at ho <;> cases ho
    exact (afterCopy_inStep (s := copyRow s.rowOffset.toNat p s)
      ⟨hs.cfg, hs.cache, hs.dc, hs.view⟩).deliver _ _

/-- Every host request keeps the cache in step with the trace, whatever the environment answers. -/
theorem exec_cacheInv {i : Instr} {s t : State} (hi : i.isHost = true) (hs : InStep s)
    (h : exec i s = .next t) : CacheInv t := by
  have runs := exec_runs i s
  generalize ho : exec i s = o at runs
  rw [h] at ho
  cases runs with
  | write => exact writeDispatch_cacheInv hs ho.symm
  | control _ req arg => cases ho; exact (controlCall_inStep req arg hs).deliver _ _
  | read n => cases ho; exact (readPanel_inStep hs).deliver _ _
  | frame hb => simp [hi] at hb

/-- Between procedures a block that waits for no message is ready for the next one. -/
theorem LineInv.inStep {s : State} (hl : LineInv s) (hh : s.hung = false) (hcfg : s.cfg.wf = true)
    (hc : CacheInv s) : InStep s := by
  have hdc : s.dc = true := hl.1.resolve_left (by simp [hh])
  exact ⟨hcfg, hc, hdc, by rw [hl.2, hdc]; rfl⟩

theorem cacheInv_of_invalid {s : State} (hcol : s.ccolV = false) (hrow : s.crowV = false) : CacheInv s :=
  ⟨by simp [hcol], by simp [hrow]⟩

/-- During the reset sequence no axis is valid (R37), and no command of it makes one so. -/
theorem advance_cacheInv {s t : State} (hs : Invariant s) (h : advance s = .next t) : CacheInv t := by
  obtain ⟨hcfg, -, hc, hl, -, hboot, -⟩ := hs
  obtain ⟨hh, adv⟩ := advance_cases h
  rcases advance_changes h with ⟨hp, hb⟩ | ⟨hdone, -⟩
  · obtain ⟨-, -, hcol, hrow⟩ := hboot hp
    obtain ⟨-, -, ⟨col, -, -, row, -⟩, -⟩ := hb.frame.fields
    exact cacheInv_of_invalid (col.trans hcol) (row.trans hrow)
  · cases adv with
    | noRequest => exact hc
    | request i rest _ _ hd he =>
      have ready := hl.inStep hh hcfg hc
      exact exec_cacheInv (decode_isHost hd) (s := { s with hostIn := rest })
        ⟨ready.cfg, ready.cache, ready.dc, ready.view⟩ he
    | resetLineDone hp | resetLine _ _ hp | initDone hp | initCommand _ _ hp => simp [hdone] at hp

/-! ## The frame buffer's memory (R40) and the mode (R28, R37) -/

theorem copyRow_fbInv {s : State} {o : Nat} {p : List Byte} (h : FbInv s)
    (hb : o + p.length ≤ Config.fbSize) : FbInv (copyRow o p s) :=
  ⟨Memory.putBytes_wf o p h.1, Memory.putBytes_bound o p h.2 hb⟩

theorem FbInv.of_same {s t : State} (h : t.fb = s.fb) (hs : FbInv s) : FbInv t := by
  rw [FbInv, h]
  exact hs

theorem Changes.fbInv {i : Instr} {s t : State} (h : Changes i s t) (hs : FbInv s) : FbInv t := by
  cases h with
  | served ht | mode _ _ _ ht | stream _ ht | header _ _ _ _ ht => exact .of_same (s := s) ht.registers.fb hs
  | frame _ ht => exact .of_same (t := t) ht.registers.fb hs
  | row _ _ _ hb hu ht =>
    have hfb := ht.registers.fb
    cases hu <;> exact .of_same hfb (copyRow_fbInv hs hb)

theorem advance_fbInv {s t : State} (hs : FbInv s) (h : advance s = .next t) : FbInv t := by
  rcases advance_changes h with ⟨-, hb⟩ | ⟨-, i, rest, -, hc⟩
  · obtain ⟨-, -, -, -, fb, -⟩ := hb.frame.fields
    exact .of_same (t := t) fb hs
  · exact hc.fbInv hs

/-- FrameStream mode is entered only as the frame buffer is had (R28, R140). -/
theorem Changes.streamHasFb {i : Instr} {s t : State} (h : Changes i s t)
    (hs : s.mode = .stream → s.fbCreated = true) : t.mode = .stream → t.fbCreated = true := by
  intro ht'
  cases h with
  | stream _ ht => exact ht.registers.fbCreated
  | mode _ m hm ht => exact absurd (ht.registers.mode.symm.trans ht') hm
  | served ht | header _ _ _ _ ht | frame _ ht =>
    obtain ⟨-, mode, -, -, created, -⟩ := ht.registers
    exact created.trans (hs (mode.symm.trans ht'))
  | row _ _ _ _ hu ht =>
    obtain ⟨-, mode, -, -, created, -⟩ := ht.registers
    cases hu <;> exact created.trans (hs (mode.symm.trans ht'))

theorem advance_modeInv {s t : State} (hs : ModeInv s) (h : advance s = .next t) : ModeInv t := by
  rcases advance_changes h with ⟨hp, hb⟩ | ⟨hdone, i, rest, hi, hc⟩
  · obtain ⟨hattached, hmode, hcol, hrow⟩ := hs.1 hp
    obtain ⟨-, mode, ⟨col, -, -, row, -⟩, -⟩ := hb.frame.fields
    have hidle : t.mode = .idle := mode.trans hmode
    exact ⟨fun hne => ⟨(hb.attached hne).trans hattached, hidle, col.trans hcol, row.trans hrow⟩,
      fun e => by rw [hidle] at e; cases e⟩
  · obtain ⟨-, -, -, phase, -⟩ := hc.persists hi
    exact ⟨fun hne => absurd (phase.trans hdone) hne, hc.streamHasFb hs.2⟩

/-! ## The whole invariant -/

theorem advance_invariant {s t : State} (hs : Invariant s) (h : advance s = .next t) : Invariant t := by
  have hcache := advance_cacheInv hs h
  obtain ⟨hcfg, hstream, -, hline, hfb, hmode⟩ := hs
  exact ⟨by rw [advance_cfg h]; exact hcfg, advance_streamInv hstream h, hcache, advance_lineInv hline h,
    advance_fbInv hfb h, advance_modeInv hmode h⟩

/-- Settles O58: the steps without a reset keep each part of the invariant, and a reset meets it anew. -/
theorem stepKeepsInvariant : Obligations.StepKeepsInvariant := fun _ _ =>
  step_keeps (fun _ h => h) (fun _ _ => advance_invariant) fun _ _ h e =>
    restart_invariant (e ▸ h.1)

/-! ## The reset values (R37) -/

/-- Settles O13: the reset state's own fields. -/
theorem resetValues : Obligations.ResetValues := by
  rintro c s rfl
  exact ⟨rfl, rfl, rfl, rfl, nextRow_neg_one.mp rfl, rfl, rfl, rfl, rfl, rfl, fun _ => rfl,
    fun h => by simp [State.resetWith, h], fun e rest h => by simp [State.resetWith, h]⟩

/-- The reset values meet the invariant at every position of the reset sequence, and with `ATTACHED` set once
it is over. -/
theorem resetWith_invariant {c : Config} (h : c.wf = true) (phase : Phase) (attached : Bool) (rst : Level)
    (hp : phase ≠ .done → attached = false) :
    Invariant { State.resetWith c with phase := phase, attached := attached, rst := rst } := by
  have stream : StreamInv (State.resetWith c) := ⟨by simp [State.resetWith], fun hne => absurd rfl hne⟩
  exact ⟨h, stream, cacheInv_of_invalid rfl rfl, ⟨.inr rfl, rfl⟩, ⟨.nil, nofun⟩,
    fun hne => ⟨hp hne, rfl, rfl, rfl⟩, nofun⟩

/-- Settles O59: the reset state is the reset values at the start of the sequence, the launch state the reset
values past its end. -/
theorem resetMeetsInvariant : Obligations.ResetMeetsInvariant := by
  have reset : ∀ c : Config, c.wf = true → Invariant (State.resetWith c) := fun c h =>
    resetWith_invariant h (.resetLine c.rstScript) false _ fun _ => rfl
  exact ⟨reset _ (by decide), fun c h => ⟨reset c h, resetWith_invariant h .done true _ (absurd rfl ·)⟩⟩

end Sys2Proof.Machine
end

section
/-! SUPPORT. The frame buffer's memory under a step (`20_memory.md` R40, R50), and the byte orders of memory and
wire: a Rect descriptor least significant byte first (R42), a range-set payload most significant byte first
(R43). Settles O5, O39 and O56. -/

namespace Sys2Proof

/-- A 32-bit field of a payload is the two's complement value of its bytes, least significant first (R42). -/
theorem wordAt_toInt (p : List Byte) (i : Nat) :
    (wordAt p i).toInt = Int.bmod ((p.getD i 0).toNat + 2 ^ 8 * (p.getD (i + 1) 0).toNat +
      2 ^ 16 * (p.getD (i + 2) 0).toNat + 2 ^ 24 * (p.getD (i + 3) 0).toNat) (2 ^ 32) := by
  rw [BitVec.toInt_eq_toNat_bmod, wordAt, le32_toNat]
  push_cast
  rfl

/-- A range-set payload is the start then the end, the high byte of each first (R43). -/
theorem winPayload_toNat (v1 v2 : Half) :
    ∃ b0 b1 b2 b3 : Byte, winPayload v1 v2 = [b0, b1, b2, b3] ∧
      b0.toNat = v1.toNat / 256 ∧ b1.toNat = v1.toNat % 256 ∧
      b2.toNat = v2.toNat / 256 ∧ b3.toNat = v2.toNat % 256 := by
  obtain ⟨b0, b1, hstart, h0, h1⟩ := be16_toNat v1
  obtain ⟨b2, b3, hend, h2, h3⟩ := be16_toNat v2
  exact ⟨b0, b1, b2, b3, by rw [winPayload, hstart, hend]; rfl, h0, h1, h2, h3⟩

end Sys2Proof

namespace Sys2Proof.Machine

open Sys2Proof

/-- Settles O56: a step without a reset writes `FB` only by copying a row that lies inside it, and a reset lists
no byte. -/
theorem stepKeepsFrameBufferInside : Obligations.StepKeepsFrameBufferInside := fun _ _ =>
  step_keeps (fun _ h => h) (fun _ _ => advance_fbInv) fun _ _ _ _ => ⟨.nil, nofun⟩

/-- Settles O5: the 16 bytes are the descriptor of the four fields they hold, and a WRITE of a descriptor is the
same request under either name. -/
theorem rectDescriptorIsLittleEndian : Obligations.RectDescriptorIsLittleEndian := by
  intro p s hlen _ _
  have hp := rectBytes_wordAt p hlen
  refine ⟨wordAt p 0, wordAt p 4, wordAt p 8, wordAt p 12, ?_, hp, fun i v hiv => ?_⟩
  · rw [exec_write s rfl, exec_write s rfl, payload, payload, hp]
  · simp only [List.mem_cons, Prod.mk.injEq, List.not_mem_nil, or_false] at hiv
    rcases hiv with ⟨rfl, rfl⟩ | ⟨rfl, rfl⟩ | ⟨rfl, rfl⟩ | ⟨rfl, rfl⟩ <;> exact wordAt_toInt p _

/-- Settles O39: either row sends its byte and the one data message of its payload. -/
theorem rangeCommandCarriesBothEnds : Obligations.RangeCommandCarriesBothEnds := by
  intro s v1 v2 i code hi hok
  obtain ⟨b0, b1, b2, b3, hpayload, h0, h1, h2, h3⟩ := winPayload_toNat v1 v2
  refine ⟨b0, b1, b2, b3, h0, h1, h2, h3, ?_⟩
  have hexec : exec i s = .next (runFrame ⟨code, [winPayload v1 v2].map Seg.tx⟩ s) := by
    simp only [List.mem_cons, Prod.mk.injEq, List.not_mem_nil, or_false] at hi
    rcases hi with ⟨rfl, rfl⟩ | ⟨rfl, rfl⟩ <;> rfl
  rw [hexec, runFrame_tx hok, hpayload]
  rfl

end Sys2Proof.Machine
end

section
/-! SUPPORT. Decode and encode agree (`30_encoding.md` R60 to R74): the host port's three formats read back, what
decodes is one of them, and each bus command reads back from its frame. Settles O1, O2, O3 and O6. -/

namespace Sys2Proof

/-! ## The three request formats read back (R60) -/

/-- `MAX_LEN` fits the 4-byte length field (R60). -/
theorem maxLen_lt {c : Config} (h : c.wf = true) : c.maxLen < 2 ^ 32 := by
  simp only [Config.wf, Bool.and_eq_true, decide_eq_true_eq] at h
  exact h.1.2

theorem decode_writeRequest {c : Config} (h : c.wf = true) {p : List Byte} (hp : c.lenOk p.length = true)
    (rest : List Byte) : decode c (writeRequest p ++ rest) = .ok (.write p) rest := by
  have hmax := maxLen_lt h
  have hlen : p.length ≤ c.maxLen := of_decide_eq_true hp
  have field : (BitVec.ofNat 32 p.length).toNat = p.length := Nat.mod_eq_of_lt (by omega)
  change decodeWrite c (le32Bytes (BitVec.ofNat 32 p.length) ++ p ++ rest) = _
  simp [decodeWrite, le32Bytes, le32_le32Bytes, field, hlen]

theorem decode_readRequest {c : Config} {n : Word} (hn : c.lenOk n.toNat = true) (rest : List Byte) :
    decode c (readRequest n ++ rest) = .ok (.read n) rest := by
  have hlen : n.toNat ≤ c.maxLen := of_decide_eq_true hn
  change decodeRead c (le32Bytes n ++ rest) = _
  simp [decodeRead, le32Bytes, le32_le32Bytes, hlen]

theorem decode_ctrlRequest (c : Config) (req arg : Byte) (rest : List Byte) :
    decode c (ctrlRequest req arg ++ rest) = .ok (ctrlCall c req arg) rest := rfl

/-! ## What decodes is one of the three formats (R60, R74) -/

theorem decodeWrite_ok {c : Config} {bytes rest : List Byte} {i : Instr} (h : decodeWrite c bytes = .ok i rest) :
    ∃ p, i = .write p ∧ c.lenOk p.length = true ∧ Config.opWrite :: bytes = writeRequest p ++ rest := by
  unfold decodeWrite at h
  split at h
  next b0 b1 b2 b3 tail =>
    simp only at h
    split at h
    · cases h
    next hmax =>
      split at h
      · cases h
      next hshort =>
        cases h
        have hlen : (tail.take (le32 b0 b1 b2 b3).toNat).length = (le32 b0 b1 b2 b3).toNat := by
          rw [List.length_take]; omega
        refine ⟨_, rfl, decide_eq_true (by omega), ?_⟩
        simp [writeRequest, hlen, le32Bytes_le32]
  next => cases h

theorem decodeRead_ok {c : Config} {bytes rest : List Byte} {i : Instr} (h : decodeRead c bytes = .ok i rest) :
    ∃ n : Word, i = .read n ∧ c.lenOk n.toNat = true ∧ Config.opRead :: bytes = readRequest n ++ rest := by
  unfold decodeRead at h
  split at h
  next b0 b1 b2 b3 tail =>
    simp only at h
    split at h
    · cases h
    next hmax =>
      cases h
      exact ⟨_, rfl, decide_eq_true (by omega), by simp [readRequest, le32Bytes_le32]⟩
  next => cases h

theorem decodeCtrl_ok {c : Config} {bytes rest : List Byte} {i : Instr} (h : decodeCtrl c bytes = .ok i rest) :
    ∃ req arg, i = ctrlCall c req arg ∧ Config.opCtrl :: bytes = ctrlRequest req arg ++ rest := by
  unfold decodeCtrl at h
  split at h
  next req arg tail => cases h; exact ⟨req, arg, rfl, rfl⟩
  next => cases h

/-- Bytes that the host port's decoder reads as `i`, with `rest` left over, by format. -/
inductive Reads (c : Config) (rest : List Byte) : List Byte → Instr → Prop where
  | write (p : List Byte) (hp : c.lenOk p.length = true) : Reads c rest (writeRequest p ++ rest) (.write p)
  | read (n : Word) (hn : c.lenOk n.toNat = true) : Reads c rest (readRequest n ++ rest) (.read n)
  | ctrl (req arg : Byte) : Reads c rest (ctrlRequest req arg ++ rest) (ctrlCall c req arg)

theorem decode_reads {c : Config} {bytes rest : List Byte} {i : Instr} (h : decode c bytes = .ok i rest) :
    Reads c rest bytes i := by
  cases bytes with
  | nil => cases h
  | cons op tail =>
    simp only [decode] at h
    split at h
    next hop =>
      subst hop
      obtain ⟨p, rfl, hp, e⟩ := decodeWrite_ok h
      rw [e]; exact .write p hp
    split at h
    next hop =>
      subst hop
      obtain ⟨n, rfl, hn, e⟩ := decodeRead_ok h
      rw [e]; exact .read n hn
    split at h
    next hop =>
      subst hop
      obtain ⟨req, arg, rfl, e⟩ := decodeCtrl_ok h
      rw [e]; exact .ctrl req arg
    cases h

/-! ## The control call's two bytes and its five rows (R63, R64) -/

/-- The mode-select call is the row that its mode byte names (R64). -/
theorem ctrlCall_select (c : Config) (arg : Byte) :
    ctrlCall c c.reqSetMode arg =
      if arg = Config.modeIdle then .setmodeIdle
      else if arg = Config.modeRect then .setmodeRect
      else if arg = Config.modeStream then .setmodeStream
      else .setmodeInvalid arg := if_neg (absurd rfl)

/-- Everything a control call can be: one of the three modes, a mode byte out of range, or a call that is not the
mode-select call. -/
theorem ctrlCall_cases (c : Config) (req arg : Byte) :
    (req ≠ c.reqSetMode ∧ ctrlCall c req arg = .ctrlUnknown req arg) ∨
    req = c.reqSetMode ∧
      ((arg = Config.modeIdle ∧ ctrlCall c req arg = .setmodeIdle) ∨
       (arg = Config.modeRect ∧ ctrlCall c req arg = .setmodeRect) ∨
       (arg = Config.modeStream ∧ ctrlCall c req arg = .setmodeStream) ∨
       (3 ≤ arg.toNat ∧ ctrlCall c req arg = .setmodeInvalid arg)) := by
  by_cases hreq : req = c.reqSetMode
  · refine .inr ⟨hreq, ?_⟩
    rw [hreq, ctrlCall_select]
    by_cases h0 : arg = Config.modeIdle
    · exact .inl ⟨h0, if_pos h0⟩
    by_cases h1 : arg = Config.modeRect
    · exact .inr (.inl ⟨h1, by rw [if_neg h0, if_pos h1]⟩)
    by_cases h2 : arg = Config.modeStream
    · exact .inr (.inr (.inl ⟨h2, by rw [if_neg h0, if_neg h1, if_pos h2]⟩))
    · refine .inr (.inr (.inr ⟨?_, by rw [if_neg h0, if_neg h1, if_neg h2]⟩))
      simp only [Config.modeIdle, Config.modeRect, Config.modeStream] at h0 h1 h2
      bv_omega
  · exact .inl ⟨hreq, if_pos hreq⟩

/-- A mode byte out of range is the row `SETMODE.INVALID` (R64). -/
theorem ctrlCall_invalid (c : Config) {arg : Byte} (h : 3 ≤ arg.toNat) :
    ctrlCall c c.reqSetMode arg = .setmodeInvalid arg := by
  rcases ctrlCall_cases c c.reqSetMode arg with ⟨hne, -⟩ | ⟨-, ⟨rfl, -⟩ | ⟨rfl, -⟩ | ⟨rfl, -⟩ | ⟨-, e⟩⟩
  · exact absurd rfl hne
  · exact absurd h (by decide)
  · exact absurd h (by decide)
  · exact absurd h (by decide)
  · exact e

theorem ctrlCall_wf (c : Config) (req arg : Byte) : (ctrlCall c req arg).wf c = true := by
  rcases ctrlCall_cases c req arg with ⟨h, e⟩ | ⟨-, ⟨-, e⟩ | ⟨-, e⟩ | ⟨-, e⟩ | ⟨h, e⟩⟩ <;> rw [e]
  · exact decide_eq_true h
  · rfl
  · rfl
  · rfl
  · exact decide_eq_true h

theorem encode_ctrlCall (c : Config) (req arg : Byte) :
    encode c (ctrlCall c req arg) = .host (ctrlRequest req arg) := by
  rcases ctrlCall_cases c req arg with ⟨-, e⟩ | ⟨rfl, ⟨rfl, e⟩ | ⟨rfl, e⟩ | ⟨rfl, e⟩ | ⟨-, e⟩⟩ <;> rw [e] <;> rfl

end Sys2Proof

namespace Sys2Proof.Machine

open Sys2Proof

/-- A well-formed control request is the control call of the two bytes it is encoded as (R63, R64). -/
theorem control_request {c : Config} {i : Instr} (h : isControl i = true) (hwf : i.wf c = true) :
    ∃ req arg, encode c i = .host (ctrlRequest req arg) ∧ ctrlCall c req arg = i.asRequest := by
  cases i with
  | setmodeIdle | setmodeRect | setmodeStream => exact ⟨_, _, rfl, ctrlCall_select c _⟩
  | setmodeInvalid arg => exact ⟨_, arg, rfl, ctrlCall_invalid c (of_decide_eq_true hwf)⟩
  | ctrlUnknown req arg => exact ⟨req, arg, rfl, if_pos (of_decide_eq_true hwf)⟩
  | _ => cases h

/-- A WRITE, under any of its six names, is encoded as the WRITE of its payload, which has a length that a
request may carry (R60, R65). -/
theorem write_request {c : Config} {i : Instr} (h : isWrite i = true) (hwf : i.wf c = true) :
    encode c i = .host (writeRequest (payload i)) ∧ c.lenOk (payload i).length = true ∧
      i.asRequest = .write (payload i) := by
  cases i with
  | write | writeIdle | writeRect | writeRow => exact ⟨rfl, hwf, rfl⟩
  | writeHdr x y w height => exact ⟨rfl, Laws.RequestIsWellFormed.writeHdr x y w height c hwf, rfl⟩
  | writeBadhdr p => exact ⟨rfl, Laws.RequestIsWellFormed.writeBadhdr p c hwf, rfl⟩
  | _ => cases h

/-- Settles O1: a host request is a WRITE, a READ or a control call, and each format reads back. -/
theorem hostRequestRoundTrip : Obligations.HostRequestRoundTrip := by
  intro c i rest hc hhost hwf
  by_cases hw : isWrite i = true
  · obtain ⟨hbytes, hlen, hreq⟩ := write_request hw hwf
    exact ⟨_, hbytes, hreq ▸ decode_writeRequest hc hlen rest⟩
  by_cases hctrl : isControl i = true
  · obtain ⟨req, arg, hbytes, hreq⟩ := control_request hctrl hwf
    exact ⟨_, hbytes, hreq ▸ decode_ctrlRequest c req arg rest⟩
  cases i with
  | read n => exact ⟨_, rfl, decode_readRequest hwf rest⟩
  | write | writeIdle | writeRect | writeHdr | writeBadhdr | writeRow => exact absurd rfl hw
  | setmodeIdle | setmodeRect | setmodeStream | setmodeInvalid | ctrlUnknown => exact absurd rfl hctrl
  | nop | swreset | slpout | dispon | caset | paset | ramwr | ramrd | pixfmt => cases hhost

/-- Settles O3: the bytes are one of the three formats followed by what is left over, and the instruction read is
the one encoded in that format. -/
theorem decodedRequestIsItsEncoding : Obligations.DecodedRequestIsItsEncoding := by
  intro c bytes i rest _ h
  have hhost := decode_isHost h
  cases decode_reads h with
  | write p hp => exact ⟨hp, hhost, _, rfl, rfl⟩
  | read n hn => exact ⟨hn, hhost, _, rfl, rfl⟩
  | ctrl req arg => exact ⟨ctrlCall_wf c req arg, hhost, _, encode_ctrlCall c req arg, rfl⟩

/-! ## Bus frames (R69 to R71) -/

/-- Each command byte selects its own row's decoder: no two are the same (R71). -/
theorem decodeBus_commands {c : Config} (h : c.wf = true) (d : List Seg) :
    decodeBus c ⟨c.cmdNop, d⟩ = decodeBare .nop ⟨c.cmdNop, d⟩ ∧
    decodeBus c ⟨c.cmdSwreset, d⟩ = decodeBare .swreset ⟨c.cmdSwreset, d⟩ ∧
    decodeBus c ⟨c.cmdSlpout, d⟩ = decodeBare .slpout ⟨c.cmdSlpout, d⟩ ∧
    decodeBus c ⟨c.cmdDispon, d⟩ = decodeBare .dispon ⟨c.cmdDispon, d⟩ ∧
    decodeBus c ⟨c.cmdCaset, d⟩ = decodeRange .caset ⟨c.cmdCaset, d⟩ ∧
    decodeBus c ⟨c.cmdPaset, d⟩ = decodeRange .paset ⟨c.cmdPaset, d⟩ ∧
    decodeBus c ⟨c.cmdRamwr, d⟩ = decodeRamwr ⟨c.cmdRamwr, d⟩ ∧
    decodeBus c ⟨c.cmdRamrd, d⟩ = decodeRamrd c ⟨c.cmdRamrd, d⟩ ∧
    decodeBus c ⟨c.cmdPixfmt, d⟩ = decodePixfmt ⟨c.cmdPixfmt, d⟩ := by
  -- Reversed, the list says of each command that it differs from those tested before it.
  have distinct := List.nodup_reverse.mpr (wf_commands h)
  simp only [Config.commands, List.reverse_cons, List.reverse_nil, List.nil_append, List.cons_append,
    List.nodup_cons, List.mem_cons, not_or] at distinct
  simp [decodeBus, distinct]

theorem decodeRange_winPayload (mk : Half → Half → Instr) (code : Byte) (first last : Half) :
    decodeRange mk ⟨code, [.tx (winPayload first last)]⟩ = .ok (mk first last) [] := by
  simp [decodeRange, winPayload, be16, ofBe16_be16]

theorem decodeRamwr_messages (code : Byte) {ms : List (List Byte)}
    (h : ms.all (fun m => decide (m ≠ [])) = true) :
    decodeRamwr ⟨code, ms.map Seg.tx⟩ = .ok (.ramwr ms) [] := by
  rw [decodeRamwr, sentMessages_map ms h]

theorem decodeRamrd_receive {c : Config} (code : Byte) {n : Word} (h : c.lenOk n.toNat = true) :
    decodeRamrd c ⟨code, [.rx n.toNat]⟩ = .ok (.ramrd n) [] := by
  have hlen : n.toNat ≤ c.maxLen := of_decide_eq_true h
  simp [decodeRamrd, n.isLt, hlen]

theorem decodePixfmt_dataMessages (code : Byte) (d : List Byte) :
    decodePixfmt ⟨code, dataMessages d⟩ = .ok (.pixfmt d) [] := by
  cases d <;> rfl

/-- Settles O2: the command byte selects the row's decoder, and that reads the row's data back. -/
theorem busCommandRoundTrip : Obligations.BusCommandRoundTrip := by
  intro c i hc hbus hwf
  have rows := decodeBus_commands hc
  simp only [forall_and] at rows
  obtain ⟨nop, swreset, slpout, dispon, caset, paset, ramwr, ramrd, pixfmt⟩ := rows
  cases i with
  | nop => exact nop _
  | swreset => exact swreset _
  | slpout => exact slpout _
  | dispon => exact dispon _
  | caset x1 x2 => exact (caset _).trans (decodeRange_winPayload _ _ x1 x2)
  | paset y1 y2 => exact (paset _).trans (decodeRange_winPayload _ _ y1 y2)
  | ramwr ms => exact (ramwr _).trans (decodeRamwr_messages _ hwf)
  | ramrd n => exact (ramrd _).trans (decodeRamrd_receive _ hwf)
  | pixfmt d => exact (pixfmt _).trans (decodePixfmt_dataMessages _ d)
  | _ => cases hbus

/-- Settles O6: six closed runs of the decoders. -/
theorem sampleWordsDecode : Obligations.SampleWordsDecode := by
  unfold Obligations.SampleWordsDecode
  decide

end Sys2Proof.Machine
end

section
/-! SUPPORT. A request's meaning and its answer: what a ready block does with a request that does not decode
(`30_encoding.md` R62), and the one response of a request that ends (R61, `60_exceptions.md` R209). Settles O4, O7
and O48. -/

namespace Sys2Proof.Machine

open Sys2Proof

/-! ## Which row a WRITE is (R65) -/

/-- Settles O4: each variant is the WRITE of its payload, and a payload of 16 bytes is the descriptor of its four
fields. -/
theorem writeMeansWhatStateSelects : Obligations.WriteMeansWhatStateSelects := by
  intro s p
  have row : ∀ {i : Instr}, isWrite i = true → payload i = p → exec (.write p) s = exec i s :=
    fun hw hp => by rw [exec_write s rfl, exec_write s hw, hp]; rfl
  exact ⟨fun _ => row rfl rfl, fun _ => row rfl rfl, fun _ _ hlen => row rfl (rectBytes_wordAt p hlen),
    fun _ _ _ => row rfl rfl, fun _ _ => row rfl rfl⟩

/-! ## A request that does not decode (R62) -/

theorem decode_reserved (c : Config) {op : Byte} (rest : List Byte) (h : 3 ≤ op.toNat) :
    decode c (op :: rest) = .reject (.reservedSelector op) := by
  have h0 : op ≠ Config.opWrite := by rintro rfl; exact absurd h (by decide)
  have h1 : op ≠ Config.opRead := by rintro rfl; exact absurd h (by decide)
  have h2 : op ≠ Config.opCtrl := by rintro rfl; exact absurd h (by decide)
  rw [decode, if_neg h0, if_neg h1, if_neg h2]

/-- A step of a ready block, with no reset asserted, looks at its host port (R135). -/
theorem step_of_ready {s : State} (hidle : s.resetNow = .idle) (hready : s.ready = true) :
    step s = requestStep s.popReset := by
  obtain ⟨hhung, hphase, hattached⟩ := (ready_iff s).mp hready
  simp [step_of_idle hidle, advance, hhung, hphase, hattached]

/-- What the decoder rejects the block refuses, under the name the rejection has (R62, R74). -/
theorem requestStep_of_reject {s : State} {op : Byte} {rest : List Byte} {why : Reject}
    (hin : s.hostIn = op :: rest) (hd : decode s.cfg s.hostIn = .reject why) :
    requestStep s = .refused (refusalOf why) := by
  rw [hin] at hd
  simp [requestStep, takeRequest, hin, hd]

/-- Settles O7: the selector is none of the three, and a ready block refuses what its decoder rejects. -/
theorem reservedSelectorIsRefused : Obligations.ReservedSelectorIsRefused := by
  intro s op rest hop
  have hd := decode_reserved s.cfg rest hop
  refine ⟨hd, fun hidle hhung hphase hattached hin => ?_⟩
  rw [step_of_ready hidle ((ready_iff s).mpr ⟨hhung, hphase, hattached⟩)]
  exact requestStep_of_reject (s := s.popReset) hin (by simpa [hin] using hd)

/-! ## One response (R61, R94)

`Waits` says that no procedure answers a request by itself; what is left to say is that a procedure that does not
return has marked the block as waiting. -/

/-- A run that does not return leaves the mark of a message that never completes (R94). -/
def MarksWaiting {α : Type} (r : Run α) : Prop := r.res = .hung → r.st.hung = true

theorem MarksWaiting.of_ok {α : Type} (a : α) (s : State) : MarksWaiting ⟨.ok a, s⟩ := nofun

theorem MarksWaiting.of_err {α : Type} (e : Err) (s : State) : MarksWaiting (raise (α := α) e s) := nofun

/-- `call P?` followed by more (R13). -/
theorem MarksWaiting.andThen {α β : Type} {r : Run α} {f : α → State → Run β} (h : MarksWaiting r)
    (hf : ∀ a t, MarksWaiting (f a t)) : MarksWaiting (r.andThen f) := by
  obtain ⟨res, t⟩ := r
  cases res with
  | ok a => exact hf a t
  | err e => exact nofun
  | hung => exact fun _ => h rfl

theorem bus_marks (segs : List Seg) (s : State) : MarksWaiting (bus segs s) := by
  rcases bus_cases segs s with ⟨_, _, h⟩ | ⟨_, h⟩ | ⟨_, h⟩ <;> rw [h]
  · exact .of_ok _ _
  · exact .of_err _ _
  · exact fun _ => rfl

theorem sendCommand_marks (code : Byte) (s : State) : MarksWaiting (sendCommand code s) := by
  rcases sendCommand_cases code s with ⟨_, _, h⟩ | ⟨_, h⟩ | ⟨_, h⟩ <;> rw [h]
  · exact .of_ok _ _
  · exact .of_err _ _
  · exact fun _ => rfl

theorem sendData_marks (bytes : List Byte) (s : State) : MarksWaiting (sendData bytes s) :=
  (bus_marks _ s).andThen fun _ t => .of_ok _ t

theorem columnStep_marks (x1 x2 : Half) (s : State) : MarksWaiting (columnStep x1 x2 s) := by
  unfold columnStep
  split
  · exact .of_ok _ _
  · exact (sendCommand_marks _ _).andThen fun _ t => (sendData_marks _ t).andThen fun _ _ => .of_ok _ _

theorem rowStep_marks (y1 y2 : Half) (s : State) : MarksWaiting (rowStep y1 y2 s) := by
  unfold rowStep
  split
  · exact .of_ok _ _
  · exact (sendCommand_marks _ _).andThen fun _ t => (sendData_marks _ t).andThen fun _ _ => .of_ok _ _

theorem setWindow_marks (x y w h : Int) (s : State) : MarksWaiting (setWindow x y w h s) :=
  (columnStep_marks _ _ s).andThen fun _ t => rowStep_marks _ _ t

theorem sendRows_marks (buf : List Byte) (n : Nat) (s : State) : MarksWaiting (sendRows buf n s) := by
  induction n generalizing s with
  | zero => exact .of_ok _ _
  | succ n ih => exact (sendData_marks buf s).andThen fun _ t => ih t

theorem fillRect_marks (x y w h : Nat) (c : Color) (s : State) : MarksWaiting (fillRect x y w h c s) := by
  unfold fillRect
  split
  · exact .of_err _ _
  · exact (setWindow_marks _ _ _ _ _).andThen fun _ t =>
      (sendCommand_marks _ t).andThen fun _ u =>
        (sendRows_marks _ _ u).andThen fun _ v => sendCommand_marks _ v

theorem readPanel_marks (n : Nat) (s : State) : MarksWaiting (readPanel n s) :=
  (setWindow_marks _ _ _ _ s).andThen fun _ t => (sendCommand_marks _ t).andThen fun _ u => bus_marks _ u

theorem setModeCall_marks (arg : Byte) (s : State) : MarksWaiting (setModeCall arg s) := by
  unfold setModeCall
  split
  · exact .of_ok _ _
  split
  · exact .of_ok _ _
  split
  · rcases enterStream_cases s with ⟨_, _, h⟩ | ⟨_, h⟩ <;> rw [h]
    · exact .of_err _ _
    · exact (setWindow_marks _ _ _ _ _).andThen fun _ t => sendCommand_marks _ t
  · exact .of_err _ _

theorem afterCopy_marks (s : State) : MarksWaiting (afterCopy s) := by
  unfold afterCopy
  split
  · rcases streamFlush_cases s with ⟨_, _, h⟩ | ⟨_, h⟩ | ⟨_, h⟩ <;> rw [h]
    · exact .of_ok _ _
    · exact .of_err _ _
    · exact fun _ => rfl
  · exact .of_ok _ _

/-- From `s` to `t` the host has had exactly one response, or none because a message never completed; an error
response carries value 0 and no data (R61, R94). -/
def AnswersOnce (s t : State) : Prop :=
  (t.hung = true ∧ t.responses = s.responses) ∨
  ∃ r, t.responses = s.responses ++ [r] ∧ (r.status ≠ .ok → r.val = 0 ∧ r.data = [])

/-- A procedure's result, delivered, is the one response. -/
theorem Waits.answersOnce {α : Type} {s : State} {r : Run α} (hw : Waits s r) (hm : MarksWaiting r)
    (v : α → Word) (d : α → List Byte) : AnswersOnce s (Machine.deliver v d r) := by
  obtain ⟨hresp, -⟩ := hw
  rcases deliver_cases v d r with ⟨a, _, e⟩ | ⟨err, _, e⟩ | ⟨hres, e⟩ <;> rw [e]
  · exact .inr ⟨⟨.ok, v a, d a⟩, by rw [respond_responses, hresp], absurd rfl⟩
  · exact .inr ⟨⟨.error err, 0, []⟩, by rw [respond_responses, hresp], fun _ => ⟨rfl, rfl⟩⟩
  · exact .inl ⟨hm hres, hresp⟩

theorem controlCall_answersOnce (req arg : Byte) (s : State) :
    AnswersOnce s (deliverVal 0 (controlCall req arg s)) := by
  unfold controlCall
  split
  · exact (Waits.rfl' s _).answersOnce (.of_err .noTty s) _ _
  · exact (setModeCall_waits arg s).answersOnce (setModeCall_marks arg s) _ _

theorem streamHeader_answersOnce {x y w h : Word} {s t : State} (hn : streamHeader x y w h s = .next t) :
    AnswersOnce s t := by
  unfold streamHeader at hn
  split at hn <;> cases hn
  exact Waits.answersOnce (r := ⟨.ok (), s.openWindow x y w h⟩) ⟨rfl, .inr rfl⟩ (.of_ok _ _) _ _

theorem streamRow_answersOnce {p : List Byte} {s t : State} (h : streamRow p s = .next t) :
    AnswersOnce s t := by
  rcases streamRow_cases p s with ⟨_, _, e⟩ | ⟨_, e⟩ | ⟨_, _, e⟩ <;> rw [e] at h <;> cases h
  exact (afterCopy_waits (copyRow s.rowOffset.toNat p s)).answersOnce (afterCopy_marks _) _ _

theorem writeDispatch_answersOnce {p : List Byte} {s t : State} (h : writeDispatch p s = .next t) :
    AnswersOnce s t := by
  have runs := writeDispatch_runs s p
  generalize ho : writeDispatch p s = o at runs
  rw [h] at ho
  cases runs with
  | idle => cases ho; exact (sendCommand_waits _ s).answersOnce (sendCommand_marks _ s) _ _
  | rect =>
    cases ho
    exact (fillRect_waits _ _ _ _ _ s.popDraw).answersOnce (fillRect_marks _ _ _ _ _ _) _ _
  | header => exact streamHeader_answersOnce ho.symm
  | badHeader => cases ho; exact (Waits.rfl' s _).answersOnce (.of_err .inval s) _ _
  | row => exact streamRow_answersOnce ho.symm

/-- Settles O48: every host request delivers the result of one procedure, which has answered nothing before. -/
theorem oneResponsePerRequest : Obligations.OneResponsePerRequest := by
  intro i s t hhost h
  change AnswersOnce s t
  have runs := exec_runs i s
  generalize ho : exec i s = o at runs
  rw [h] at ho
  cases runs with
  | write => exact writeDispatch_answersOnce ho.symm
  | control _ req arg => cases ho; exact controlCall_answersOnce req arg s
  | read n => cases ho; exact (readPanel_waits _ s).answersOnce (readPanel_marks _ s) _ _
  | frame hbus => rw [hbus] at hhost; cases hhost

end Sys2Proof.Machine
end

section
/-! SUPPORT. The Transaction Layer (`40_transaction_layer.md`): what one message carries, its segments in order and
a receive with the bytes it asked for (R91 to R93), the frames of the bus rows (R96 to R104), and a message that
never completes (R94). Settles O38, O40, O41, O42, O43 and O44. -/

namespace Sys2Proof.Machine

open Sys2Proof

/-! ## A message that never completes (R94)

`Waits` says what a procedure does; what is left to say is that every request delivers the result of one. -/

/-- A WRITE that answers a next state has delivered the result of a procedure that answers nothing itself. -/
theorem writeDispatch_delivers {p : List Byte} {s t : State} (h : writeDispatch p s = .next t) :
    ∃ val r, Waits s r ∧ t = deliverVal val r := by
  have runs := writeDispatch_runs s p
  generalize ho : writeDispatch p s = o at runs
  rw [h] at ho
  cases runs with
  | idle => cases ho; exact ⟨_, _, sendCommand_waits _ s, rfl⟩
  | rect => cases ho; exact ⟨_, _, fillRect_waits _ _ _ _ _ s.popDraw, rfl⟩
  | header =>
    unfold streamHeader at ho
    split at ho <;> cases ho
    exact ⟨_, _, ⟨rfl, .inr rfl⟩, rfl⟩
  | badHeader => cases ho; exact ⟨_, _, Waits.rfl' s _, rfl⟩
  | row =>
    rcases streamRow_cases p s with ⟨_, _, e⟩ | ⟨_, e⟩ | ⟨_, _, e⟩ <;> rw [e] at ho <;> cases ho
    exact ⟨_, _, afterCopy_waits (copyRow s.rowOffset.toNat p s), rfl⟩

theorem controlCall_waits (req arg : Byte) (s : State) : Waits s (controlCall req arg s) := by
  unfold controlCall
  split
  · exact Waits.rfl' s _
  · exact setModeCall_waits arg s

/-- A bus row has no host response (R71). -/
theorem runFrame_responses (f : CmdFrame) (s : State) : (runFrame f s).responses = s.responses := by
  obtain ⟨hbus, -⟩ := runFrame_onlyBus f s
  obtain ⟨-, -, -, -, -, -, -, -, -, -, hresp, -⟩ := hbus.fields
  exact hresp

/-- An instruction that leaves the block waiting adds no response. -/
theorem exec_hung_responses {i : Instr} {s t : State} (hs : s.hung = false) (h : exec i s = .next t)
    (ht : t.hung = true) : t.responses = s.responses := by
  have runs := exec_runs i s
  generalize ho : exec i s = o at runs
  rw [h] at ho
  cases runs with
  | write =>
    obtain ⟨val, r, hw, rfl⟩ := writeDispatch_delivers ho.symm
    exact hw.deliver _ _ hs ht
  | control _ req arg => cases ho; exact (controlCall_waits req arg s).deliver _ _ hs ht
  | read n => cases ho; exact (readPanel_waits _ s).deliver _ _ hs ht
  | frame _ f => cases ho; exact runFrame_responses f s

/-- A block that waits for a message takes no step while no reset is asserted. -/
theorem step_of_hung {s : State} (hidle : s.resetNow = .idle) (hs : s.hung = true) :
    step s = .fault .busNeverCompletes := by
  rw [step_of_idle hidle, advance, if_pos ((popReset_hung s).trans hs)]

/-- Settles O44: whatever procedure a request runs, one that does not return is not delivered; and a WRITE in Idle
mode is `send_command(NOP)`. -/
theorem unansweredMessageIsStuck : Obligations.UnansweredMessageIsStuck := by
  refine ⟨fun i s t hs h ht => ⟨exec_hung_responses hs h ht, fun hidle => step_of_hung hidle ht⟩,
    fun s p hmode hnever => ?_⟩
  have hexec : exec (.write p) s =
      .next (deliverVal (BitVec.ofNat 32 p.length) (sendCommand s.cfg.cmdNop s)) := by
    rw [exec_write s rfl, writeDispatch, hmode]
    rfl
  rw [sendCommand_never hnever] at hexec
  exact ⟨_, hexec, rfl, rfl⟩

/-! ## What one message carries (R91 to R93) -/

/-- The trace keeps the segments of a message as they were submitted, whatever its outcome. -/
theorem answered_asSeg (m : Nat) (rx : List Byte) (o : Nat) (segs : List Seg) :
    (answered m rx o segs).map TraceSeg.asSeg = segs := by
  induction segs generalizing o with
  | nil => rfl
  | cons g rest ih => cases g <;> simp [answered, TraceSeg.asSeg, ih]

theorem unanswered_asSeg (segs : List Seg) : (unanswered segs).map TraceSeg.asSeg = segs := by
  induction segs with
  | nil => rfl
  | cons g rest ih => cases g <;> simp [unanswered, TraceSeg.asSeg, ih]

/-- Each receive of a message that ended `ok` has as many bytes as it asked for. -/
theorem length_of_mem_answered {m o n : Nat} {rx got : List Byte} {segs : List Seg}
    (h : TraceSeg.rx n got ∈ answered m rx o segs) : got.length = n := by
  induction segs generalizing o with
  | nil => cases h
  | cons g rest ih =>
    cases g with
    | tx b => exact ih (by simpa [answered] using h)
    | rx k =>
      rcases List.mem_cons.mp h with e | hrest
      · cases e
        exact received_length m rx o n
      · exact ih hrest

/-- No receive of a message that ended `fail` has bytes. -/
theorem eq_nil_of_mem_unanswered {n : Nat} {got : List Byte} {segs : List Seg}
    (h : TraceSeg.rx n got ∈ unanswered segs) : got = [] := by
  induction segs with
  | nil => cases h
  | cons g rest ih =>
    cases g with
    | tx b => exact ih (by simpa [unanswered] using h)
    | rx k =>
      rcases List.mem_cons.mp h with e | hrest
      · cases e
        rfl
      · exact ih hrest

/-- A receive that is given the bytes it asked for brings those bytes (R92). -/
theorem readData_self {n : Nat} {s : State} {rx : List Byte} (h : s.answer 0 = .ok rx)
    (hn : rx.length = n) : readData n s = ⟨.ok rx, s.sent [.msg [.rx n rx] true] 1⟩ := by
  subst hn
  rw [readData_ok h, received_self]

/-- Settles O43: each of the three is one `Bus` of its segments. -/
theorem dataTransferIsOneMessage : Obligations.DataTransferIsOneMessage := by
  intro s bytes rx n segs
  refine ⟨sendData_sent, sendData_fail, readData_self, readData_fail, fun hok => ?_, fun hfail => ?_⟩
  · obtain ⟨rx', h0⟩ := answersOk_head s hok
    exact ⟨answered s.env.busUsed rx' 0 segs, bus_ok h0, answered_asSeg _ _ _ segs,
      fun _ _ => length_of_mem_answered⟩
  · exact ⟨unanswered segs, bus_fail hfail, unanswered_asSeg segs, fun _ _ => eq_nil_of_mem_unanswered⟩

/-- Settles O42: either outcome of `send_command`. -/
theorem sendCommandRestoresSelector : Obligations.SendCommandRestoresSelector := by
  intro s code
  refine ⟨fun hok => ?_, sendCommand_fail⟩
  obtain ⟨rx, h0⟩ := answersOk_head s hok
  exact sendCommand_ok h0

/-! ## The bus rows (R96 to R104) -/

/-- A frame whose data is one receive, given the bytes it asked for (R103). -/
theorem runFrame_rx {code : Byte} {n : Nat} {s : State} {rx : List Byte} (hok : s.answersOk 1)
    (h : s.answer 1 = .ok rx) (hn : rx.length = n) :
    runFrame ⟨code, [.rx n]⟩ s =
      { s.sent (commandEvents code true ++ [.msg [.rx n rx] true]) 2 with dc := true } := by
  obtain ⟨_, h0⟩ := answersOk_head s hok
  have h1 : ({ s.sent (commandEvents code true) 1 with dc := true } : State).answer 0 = .ok rx :=
    (sent_answer s (commandEvents code true) 1 0).trans h
  have hread := readData_self h1 hn
  rw [readData] at hread
  simp only [runFrame, sendFrame, sendCommand_ok h0, andThen_ok, dataPhase, hread, endCommand]
  simp [State.sent]

/-- Settles O38: each of the four rows is a frame without data. -/
theorem bareCommandIsOneByte : Obligations.BareCommandIsOneByte := by
  intro s i code hi hok
  have hexec : exec i s = .next (runFrame ⟨code, [].map Seg.tx⟩ s) := by
    simp only [List.mem_cons, Prod.mk.injEq, List.not_mem_nil, or_false] at hi
    rcases hi with ⟨rfl, rfl⟩ | ⟨rfl, rfl⟩ | ⟨rfl, rfl⟩ | ⟨rfl, rfl⟩ <;> rfl
  rw [hexec, runFrame_tx hok]
  rfl

/-- The data of `PIXFMT` is one message when there is any (R104, R184). -/
theorem dataMessages_of_ne_nil {d : List Byte} (h : d ≠ []) : dataMessages d = [d].map Seg.tx := by
  cases d with
  | nil => exact absurd rfl h
  | cons b bs => rfl

/-- Settles O40: each row is its frame, of data sent or of one receive. -/
theorem dataCommandCarriesItsMessages : Obligations.DataCommandCarriesItsMessages := by
  intro s ms count d rx
  refine ⟨fun hok => ?ramwr, fun hok hrx hlen => ?ramrd, fun hd hok => ?pixfmt, fun hok => ?bare⟩
  case ramwr => exact congrArg _ (runFrame_tx hok)
  case ramrd => exact congrArg _ (runFrame_rx (answersOk_le s hok (by decide)) hrx hlen)
  case pixfmt =>
    rw [exec, execPixfmt, dataMessages_of_ne_nil hd]
    exact congrArg _ (runFrame_tx hok)
  case bare => exact congrArg _ (runFrame_tx (ms := []) hok)

/-- Settles O41: a bus row sends one frame. -/
theorem busCommandFrame : Obligations.BusCommandFrame := by
  intro i s t hbus h
  obtain ⟨f, hexec⟩ := exec_bus s hbus
  rw [hexec] at h
  cases h
  exact runFrame_onlyBus f s

end Sys2Proof.Machine
end

section
/-! SUPPORT. The Address Window Cache (`41_address_window.md`): both axes hit after a `set_window` that returned
`Ok` and a hit sends nothing (R116), the truncation of a coordinate in range (R111), and the cache a failure
leaves (R115). Settles O45, O46 and O47. -/

namespace Sys2Proof.Machine

open Sys2Proof

/-! ## Two axes that hit (R116) -/

theorem andThen_eq_ok {α β : Type} {r : Run α} {f : α → State → Run β} {b : β} {u : State}
    (h : r.andThen f = ⟨.ok b, u⟩) : ∃ a t, r = ⟨.ok a, t⟩ ∧ f a t = ⟨.ok b, u⟩ := by
  obtain ⟨res, t⟩ := r
  cases res with
  | ok a => exact ⟨a, t, rfl, h⟩
  | err e => cases h
  | hung => cases h

/-- A range-set command that succeeds has used only the bus before its pair is cached. -/
theorem rangeSet_eq_ok {s u : State} {code : Byte} {bytes : List Byte} {g : State → State}
    (h : ((sendCommand code s).andThen fun _ s => (sendData bytes s).andThen fun _ s =>
      (⟨.ok (), g s⟩ : Run Unit)) = ⟨.ok (), u⟩) : ∃ t, OnlyBus s t ∧ u = g t := by
  obtain ⟨_, a, hcmd, h⟩ := andThen_eq_ok h
  obtain ⟨_, t, hdata, h⟩ := andThen_eq_ok h
  cases h
  have hc := sendCommand_onlyBus code s
  have hd := sendData_onlyBus bytes a
  rw [hcmd] at hc
  rw [hdata] at hd
  exact ⟨t, hc.trans hd, rfl⟩

theorem columnStep_eq_ok {s u : State} {x1 x2 : Half} (h : columnStep x1 x2 s = ⟨.ok (), u⟩) :
    u.colHit x1 x2 = true := by
  unfold columnStep at h
  split at h
  case isTrue hit => cases h; exact hit
  case isFalse => obtain ⟨t, -, rfl⟩ := rangeSet_eq_ok h; exact fillCol_hit t x1 x2

/-- A row step that succeeds leaves its pair cached and the column axis alone. -/
theorem rowStep_eq_ok {s u : State} {y1 y2 : Half} (h : rowStep y1 y2 s = ⟨.ok (), u⟩) :
    u.rowHit y1 y2 = true ∧ ∀ x1 x2, u.colHit x1 x2 = s.colHit x1 x2 := by
  unfold rowStep at h
  split at h
  case isTrue hit => cases h; exact ⟨hit, fun _ _ => rfl⟩
  case isFalse =>
    obtain ⟨t, ht, rfl⟩ := rangeSet_eq_ok h
    obtain ⟨hv, hx1, hx2, -⟩ := ht.fields.2.2.1
    refine ⟨fillRow_hit t y1 y2, fun x1 x2 => ?_⟩
    simp [State.colHit, hv, hx1, hx2]

theorem setWindow_eq_ok {s u : State} {x y w h : Int} (hok : setWindow x y w h s = ⟨.ok (), u⟩) :
    u.colHit (trunc16 x) (trunc16 (lastOf x w)) = true ∧
    u.rowHit (trunc16 y) (trunc16 (lastOf y h)) = true := by
  obtain ⟨_, t, hcol, hrow⟩ := andThen_eq_ok hok
  obtain ⟨hit, keeps⟩ := rowStep_eq_ok hrow
  exact ⟨(keeps _ _).trans (columnStep_eq_ok hcol), hit⟩

theorem setWindow_of_hit {s : State} {x y w h : Int}
    (hcol : s.colHit (trunc16 x) (trunc16 (lastOf x w)) = true)
    (hrow : s.rowHit (trunc16 y) (trunc16 (lastOf y h)) = true) :
    setWindow x y w h s = ⟨.ok (), s⟩ := by
  rw [setWindow, columnStep, if_pos hcol, andThen_ok, rowStep, if_pos hrow]

/-- Settles O45: the first call leaves both axes hitting. -/
theorem repeatedWindowSendsNothing : Obligations.RepeatedWindowSendsNothing := by
  intro s x y w h hok
  have first : setWindow x y w h s = ⟨.ok (), (setWindow x y w h s).st⟩ := by rw [← hok]
  obtain ⟨hcol, hrow⟩ := setWindow_eq_ok first
  exact setWindow_of_hit hcol hrow

/-! ## The axes that differ (R112 to R114) -/

/-- Truncation is the identity on a coordinate that fits in 16 bits (R111). -/
theorem trunc16_eq {a : Half} {v : Int} (h : (a.toNat : Int) = v) : trunc16 v = a := by
  rw [← h, trunc16, BitVec.ofInt_natCast, BitVec.ofNat_toNat, BitVec.setWidth_eq]

/-- Settles O46: the two event lists are those of the column step and of the row step. -/
theorem windowSendsOnlyWhatDiffers : Obligations.WindowSendsOnlyWhatDiffers := by
  intro s x y w h x1 x2 y1 y2 colEvs rowEvs hw hh _ _ hd hx1 hx2 hy1 hy2 hcol hrow hok
  have hevs : colEvs ++ rowEvs = s.windowEvents x1 x2 y1 y2 := by
    simp only [hcol, hrow, State.windowEvents, State.columnEvents, State.rowEvents, colHit_iff,
      rowHit_iff, winPayload]
  rw [hevs] at hok ⊢
  have hlastX : (x2.toNat : Int) = lastOf x w := by rw [lastOf]; omega
  have hlastY : (y2.toNat : Int) = lastOf y h := by rw [lastOf]; omega
  exact setWindow_sent hd (trunc16_eq (congrArg _ hx1)) (trunc16_eq hlastX) (trunc16_eq (congrArg _ hy1))
    (trunc16_eq hlastY) hok

/-! ## The axis that fails (R115) -/

/-- A failing message of `set_window`: `ErrIO`, the trace cut at that message, and the cache R115 leaves. -/
theorem setWindow_failsAt {s : State} {x y w h : Int} {x1 x2 y1 y2 : Half} {k : Nat} (hd : s.dc = true)
    (hx1 : trunc16 x = x1) (hx2 : trunc16 (lastOf x w) = x2)
    (hy1 : trunc16 y = y1) (hy2 : trunc16 (lastOf y h) = y2)
    (hk : s.failsAt k) (hlt : k < messages (s.windowEvents x1 x2 y1 y2)) :
    ∃ t, setWindow x y w h s = ⟨.err .io, t⟩ ∧ t.trace = s.trace ++ cutAt k (s.windowEvents x1 x2 y1 y2) ∧
      CacheAfterFailure s t x1 x2 y1 y2 k := by
  obtain ⟨t, hres, htrace, -⟩ := setWindow_fails hd hx1 hx2 hy1 hy2 k hlt hk
  have hcache := setWindow_cacheAfterFailure (f := fun a t => ⟨.ok a, t⟩) hd hx1 hx2 hy1 hy2
    OnlyBus.rfl' hk (by rw [hres, andThen_err])
  exact ⟨t, hres, htrace, hcache.2⟩

theorem messages_columnEvents_le (s : State) (x1 x2 y1 y2 : Half) :
    messages (s.columnEvents x1 x2) ≤ messages (s.windowEvents x1 x2 y1 y2) := by
  rw [State.windowEvents, messages_append]
  exact Nat.le_add_right _ _

/-- A failure in the column step cuts the events of that step: the row step does not run. -/
theorem cutAt_windowEvents_column {s : State} {x1 x2 y1 y2 : Half} {k : Nat}
    (hk : k < messages (s.columnEvents x1 x2)) :
    cutAt k (s.windowEvents x1 x2 y1 y2) = cutAt k (s.columnEvents x1 x2) :=
  cutAt_append_left hk (by simpa using closing_rowEvents s y1 y2 [] rfl)

/-- Settles O47: R115's cache, read off for a failure in the column step and for one in the row step. -/
theorem failedWindowInvalidatesItsAxis : Obligations.FailedWindowInvalidatesItsAxis := by
  intro s x y w h x1 x2 y1 y2 k hd hx1 hx2 hy1 hy2 hk
  have fails := setWindow_failsAt hd hx1.symm hx2.symm hy1.symm hy2.symm hk
  refine ⟨fun hcol => ?column, fun hcol hlt => ?row⟩
  case column =>
    obtain ⟨t, hres, htrace, hcache, -⟩ := fails (hcol.trans_le (messages_columnEvents_le s x1 x2 y1 y2))
    obtain ⟨hv, hrowV, hrowY1, hrowY2⟩ := hcache hcol
    rw [cutAt_windowEvents_column hcol] at htrace
    exact ⟨t, hres, hv, hrowV, hrowY1, hrowY2, htrace⟩
  case row =>
    obtain ⟨t, hres, htrace, -, hcolCache, hrowCache, -⟩ := fails hlt
    obtain ⟨hv, hcolX1, hcolX2⟩ := hcolCache hcol
    exact ⟨t, hres, hrowCache hcol hlt, hv, hcolX1, hcolX2, htrace⟩

end Sys2Proof.Machine
end

section
/-! SUPPORT. Rect Fill (`42_rect_fill.md`): the draw a RectTest WRITE uses and its colour (R127, R128), the packed
pixel and its wire bytes (R120 to R122), and one fill, whether every message of it ends `ok` (R124) or one fails
(R126). Settles O24, O25, O26 and O27. -/

namespace Sys2Proof.Machine

open Sys2Proof

/-! ## The draw (R127, R128) -/

theorem rtYlim_pos {c : Config} (h : c.wf = true) : 0 < c.rtYlim := by
  simp only [Config.wf, Bool.and_eq_true, Bool.or_eq_true, decide_eq_true_eq] at h
  obtain ⟨⟨⟨-, hlim | hlim⟩, -⟩, -⟩ := h <;> rw [hlim] <;> decide

theorem nextDraw_bounds {s : State} (h : s.cfg.wf = true) :
    1 ≤ s.nextDraw.w ∧ 1 ≤ s.nextDraw.h ∧ s.nextDraw.x + s.nextDraw.w ≤ 240 ∧
    s.nextDraw.y + s.nextDraw.h ≤ s.cfg.rtYlim :=
  clampDraw_bounds s.cfg.rtYlim _ (rtYlim_pos h)

/-- The selector picks one of the three fixed colours or the drawn one (R128). -/
theorem drawColor_selects (c : Config) (d : RectDraw) :
    (d.sel.toNat = 0 → drawColor c d = c.colorRed) ∧ (d.sel.toNat = 1 → drawColor c d = c.colorGreen) ∧
    (d.sel.toNat = 2 → drawColor c d = c.colorBlue) ∧ (d.sel.toNat = 3 → drawColor c d = d.rgb) := by
  have sel : ∀ n, d.sel.toNat = n → d.sel = BitVec.ofNat 2 n := fun n h => by
    rw [← h, BitVec.ofNat_toNat, BitVec.setWidth_eq]
  refine ⟨fun h => ?_, fun h => ?_, fun h => ?_, fun h => ?_⟩ <;> simp [drawColor, sel _ h]

/-- Settles O26: the draw used is a clamped one, and clamping leaves a draw inside the bounds as it is. -/
theorem drawStaysInBounds : Obligations.DrawStaysInBounds := fun s h =>
  ⟨drawColor_selects s.cfg, nextDraw_bounds h, fun d => clampDraw_of_legal s.cfg.rtYlim d⟩

/-! ## Pixels (R120 to R122) -/

/-- Masking off the low `n` bits of a byte rounds it down to a multiple of `2 ^ n`. -/
theorem maskLow_toNat (b : Byte) (n : Nat) :
    (b &&& BitVec.allOnes 8 <<< n).toNat = b.toNat / 2 ^ n * 2 ^ n := by
  have hle := Nat.div_mul_le_self b.toNat (2 ^ n)
  rw [← BitVec.shiftLeft_ushiftRight, BitVec.toNat_shiftLeft, BitVec.toNat_ushiftRight,
    Nat.shiftRight_eq_div_pow, Nat.shiftLeft_eq, Nat.mod_eq_of_lt (by omega)]

/-- The channel fields of a packed pixel (R121). -/
theorem unpack565_toNat (p : Half) :
    (unpack565 p).r.toNat = p.toNat / 2 ^ 11 % 2 ^ 5 * 2 ^ 3 ∧
    (unpack565 p).g.toNat = p.toNat / 2 ^ 5 % 2 ^ 6 * 2 ^ 2 ∧
    (unpack565 p).b.toNat = p.toNat % 2 ^ 5 * 2 ^ 3 := by
  have low5 : ∀ q : Half, (q &&& 0x1F).toNat = q.toNat % 2 ^ 5 := fun q =>
    Nat.and_two_pow_sub_one_eq_mod q.toNat 5
  have low6 : ∀ q : Half, (q &&& 0x3F).toNat = q.toNat % 2 ^ 6 := fun q =>
    Nat.and_two_pow_sub_one_eq_mod q.toNat 6
  simp only [unpack565, BitVec.toNat_setWidth, BitVec.toNat_shiftLeft, BitVec.toNat_ushiftRight, low5, low6,
    Nat.shiftRight_eq_div_pow, Nat.shiftLeft_eq]
  omega

/-- Fields that do not overlap add up. -/
theorem toNat_shiftLeft_or {w i : Nat} {a b : BitVec w} (ha : a.toNat * 2 ^ i < 2 ^ w) (hb : b.toNat < 2 ^ i) :
    (a <<< i ||| b).toNat = a.toNat * 2 ^ i + b.toNat := by
  rw [BitVec.toNat_or, BitVec.toNat_shiftLeft, Nat.shiftLeft_eq, Nat.mod_eq_of_lt ha, ← Nat.shiftLeft_eq,
    Nat.shiftLeft_add_eq_or_of_lt hb]

/-- The packed value is the sum of its three fields (R120). -/
theorem pack565_toNat (c : Color) :
    (pack565 c).toNat = c.r.toNat / 2 ^ 3 * 2 ^ 11 + c.g.toNat / 2 ^ 2 * 2 ^ 5 + c.b.toNat / 2 ^ 3 := by
  have field : ∀ (v : Byte) (n : Nat), (v.setWidth 16 >>> n).toNat = v.toNat / 2 ^ n := fun v n => by
    rw [BitVec.toNat_ushiftRight, BitVec.toNat_setWidth_of_le (by decide), Nat.shiftRight_eq_div_pow]
  have hr := c.r.isLt
  have hg := c.g.isLt
  have hb := c.b.isLt
  have low : ((c.g.setWidth 16 >>> 2) <<< 5 ||| c.b.setWidth 16 >>> 3).toNat =
      c.g.toNat / 2 ^ 2 * 2 ^ 5 + c.b.toNat / 2 ^ 3 := by
    rw [toNat_shiftLeft_or, field, field] <;> rw [field] <;> omega
  rw [pack565, BitVec.or_assoc, toNat_shiftLeft_or, field, low, Nat.add_assoc]
  · rw [field]; omega
  · rw [low]; omega

/-- Unpacking a packed colour drops the low bits of each channel (R121). -/
theorem unpack565_pack565 (c : Color) :
    unpack565 (pack565 c) = ⟨c.r &&& 0xF8, c.g &&& 0xFC, c.b &&& 0xF8⟩ := by
  obtain ⟨ur, ug, ub⟩ := unpack565_toNat (pack565 c)
  rw [pack565_toNat] at ur ug ub
  have hr := c.r.isLt
  have hg := c.g.isLt
  have hb := c.b.isLt
  have mr : (c.r &&& 0xF8).toNat = _ := maskLow_toNat c.r 3
  have mg : (c.g &&& 0xFC).toNat = _ := maskLow_toNat c.g 2
  have mb : (c.b &&& 0xF8).toNat = _ := maskLow_toNat c.b 3
  generalize unpack565 (pack565 c) = u at ur ug ub ⊢
  obtain ⟨r, g, b⟩ := u
  simp only [Color.mk.injEq, ← BitVec.toNat_inj, mr, mg, mb]
  simp only at ur ug ub
  omega

/-- Packing again loses nothing more (R121). -/
theorem pack565_unpack565_pack565 (c : Color) : pack565 (unpack565 (pack565 c)) = pack565 c := by
  obtain ⟨ur, ug, ub⟩ := unpack565_toNat (pack565 c)
  have hp := (pack565 c).isLt
  apply BitVec.eq_of_toNat_eq
  rw [pack565_toNat, ur, ug, ub]
  omega

/-- The wire bytes in channel terms (R122): in each byte too the two fields do not overlap. -/
theorem pixelBytes_channels (c : Color) :
    pixelBytes c = [(c.r &&& 0xF8) ||| (c.g >>> 5), ((c.g &&& 0x1C) <<< 3) ||| (c.b >>> 3)] := by
  obtain ⟨hi, lo, hbytes, hhi, hlo⟩ := be16_toNat (pack565 c)
  rw [pack565_toNat] at hhi hlo
  have hr := c.r.isLt
  have hg := c.g.isLt
  have hb := c.b.isLt
  have shr : ∀ (v : Byte) (n : Nat), (v >>> n).toNat = v.toNat / 2 ^ n := fun v n => by
    rw [BitVec.toNat_ushiftRight, Nat.shiftRight_eq_div_pow]
  have high : hi = (c.r &&& 0xF8) ||| (c.g >>> 5) := by
    have red : c.r &&& 0xF8 = c.r >>> 3 <<< 3 := (BitVec.shiftLeft_ushiftRight (n := 3)).symm
    have hr3 := shr c.r 3
    have hg5 := shr c.g 5
    rw [red, ← BitVec.toNat_inj, hhi, toNat_shiftLeft_or] <;> omega
  have low : lo = ((c.g &&& 0x1C) <<< 3) ||| (c.b >>> 3) := by
    have green : (c.g &&& 0x1C) <<< 3 = (c.g <<< 3) >>> 5 <<< 5 := by
      rw [BitVec.shiftLeft_and_distrib, BitVec.shiftLeft_ushiftRight]; rfl
    have hg3 : (c.g <<< 3).toNat = c.g.toNat * 2 ^ 3 % 2 ^ 8 := by rw [BitVec.toNat_shiftLeft, Nat.shiftLeft_eq]
    have hg35 := shr (c.g <<< 3) 5
    have hb3 := shr c.b 3
    rw [green, ← BitVec.toNat_inj, hlo, toNat_shiftLeft_or] <;> omega
  rw [pixelBytes, hbytes, high, low]

/-- Settles O27: each field and its place in the packed value, as numbers. -/
theorem packingRoundTrip : Obligations.PackingRoundTrip :=
  ⟨unpack565_toNat, fun c => ⟨pack565_toNat c, unpack565_pack565 c, pack565_unpack565_pack565 c, rfl,
    pixelBytes_channels c⟩⟩

/-! ## One fill (R124 to R126) -/

/-- What a fill does once its window is set (R124): `RAMWR`, the rows, `NOP`. -/
def paintRows (buf : List Byte) (n : Nat) (s : State) : Run Unit :=
  (sendCommand s.cfg.cmdRamwr s).andThen fun _ s =>
  (sendRows buf n s).andThen fun _ s =>
  sendCommand s.cfg.cmdNop s

/-- What a fill does once its buffer is had: the window, then the painting. -/
def paintWindow (x y w h : Int) (buf : List Byte) (n : Nat) (s : State) : Run Unit :=
  (setWindow x y w h s).andThen fun _ t => paintRows buf n t

theorem fillRect_of_allocOk {s : State} (halloc : s.allocOk = true) (x y w h : Nat) (c : Color) :
    fillRect x y w h c s = paintWindow x y w h (scanline w c) h s.popAlloc := by
  rw [fillRect, if_neg (by simp [halloc])]
  rfl

/-- What `paintRows` emits when every message ends `ok`. -/
def paintEvents (c : Config) (buf : List Byte) (n : Nat) : List Event :=
  commandEvents c.cmdRamwr true ++ (List.replicate n (dataEvent buf true) ++ commandEvents c.cmdNop true)

theorem messages_paintEvents (c : Config) (buf : List Byte) (n : Nat) :
    messages (paintEvents c buf n) = 1 + (n + 1) := by
  simp [paintEvents, messages_append, messages_replicate]

theorem paintRows_onlyBus (buf : List Byte) (n : Nat) (s : State) : OnlyBus s (paintRows buf n s).st :=
  andThen_keeps (R := OnlyBus) OnlyBus.trans (sendCommand_onlyBus _ s) fun _ t _ =>
    andThen_keeps (R := OnlyBus) OnlyBus.trans (sendRows_onlyBus buf n t) fun _ u _ => sendCommand_onlyBus _ u

theorem paintRows_sent {s : State} {buf : List Byte} {n : Nat} (hd : s.dc = true)
    (hok : s.answersOk (messages (paintEvents s.cfg buf n))) :
    paintRows buf n s =
      ⟨.ok (), s.sent (paintEvents s.cfg buf n) (messages (paintEvents s.cfg buf n))⟩ := by
  rw [messages_paintEvents] at *
  have hrows := answersOk_sent (evs := commandEvents s.cfg.cmdRamwr true) s hok
  have hnop := answersOk_sent (evs := List.replicate n (dataEvent buf true)) _ hrows
  rw [paintRows, sendCommand_sent hd (answersOk_le s hok (by omega)), andThen_ok,
    sendRows_sent (answersOk_le _ hrows (by omega)), andThen_ok, sendCommand_sent (by exact hd) hnop, sent_sent,
    sent_sent]
  rfl

theorem paintRows_fails (buf : List Byte) (n : Nat) (s : State) :
    FailsAlong s (paintRows buf n s) (paintEvents s.cfg buf n) :=
  .andThen (closing_replicate n buf _ rfl) (sendCommand_fails _) (sendCommand_goes _)
    (.andThen rfl (sendRows_fails rfl buf n) (sendRows_goes rfl buf n) (sendCommand_fails _))

section Window

variable {s : State} {x y w h : Int} {x1 x2 y1 y2 : Half} (buf : List Byte) (n : Nat) (hd : s.dc = true)
  (hx1 : trunc16 x = x1) (hx2 : trunc16 (lastOf x w) = x2) (hy1 : trunc16 y = y1) (hy2 : trunc16 (lastOf y h) = y2)
include hd hx1 hx2 hy1 hy2

/-- A fill whose messages all end `ok`: its events, and both axes cached. -/
theorem paintWindow_sent
    (hok : s.answersOk (messages (s.windowEvents x1 x2 y1 y2 ++ paintEvents s.cfg buf n))) :
    paintWindow x y w h buf n s =
      ⟨.ok (), ((s.sent (s.windowEvents x1 x2 y1 y2 ++ paintEvents s.cfg buf n)
        (messages (s.windowEvents x1 x2 y1 y2 ++ paintEvents s.cfg buf n))).fillCol x1 x2).fillRow y1 y2⟩ := by
  rw [messages_append] at *
  have hpaint := answersOk_sent (evs := s.windowEvents x1 x2 y1 y2) s hok
  rw [paintWindow, setWindow_sent hd hx1 hx2 hy1 hy2 (answersOk_le s hok (Nat.le_add_right _ _)), andThen_ok,
    ← sent_sent]
  exact paintRows_sent hd hpaint

/-- A fill ends at its first failing message. -/
theorem paintWindow_fails :
    FailsAlong s (paintWindow x y w h buf n s) (s.windowEvents x1 x2 y1 y2 ++ paintEvents s.cfg buf n) :=
  .andThen rfl (setWindow_fails hd hx1 hx2 hy1 hy2) (setWindow_goes hd hx1 hx2 hy1 hy2) (paintRows_fails buf n _)

end Window

/-! ## One RectTest WRITE (R145) -/

theorem trunc16_natCast (n : Nat) : trunc16 (n : Int) = BitVec.ofNat 16 n := BitVec.ofInt_natCast 16 n

theorem trunc16_lastOf {start size : Nat} (h : 1 ≤ size) :
    trunc16 (lastOf start size) = BitVec.ofNat 16 (start + size - 1) := by
  rw [← trunc16_natCast, lastOf, Nat.cast_sub (by omega), Nat.cast_add, Nat.cast_one]

/-- With the buffer to be had, a RectTest WRITE paints the rectangle drawn. -/
theorem exec_rectWrite {s : State} {p : List Byte} {i : Instr} (hmode : s.mode = .rect)
    (hi : i = .write p ∨ i = .writeRect p) (halloc : s.allocOk = true) :
    exec i s = .next (deliverVal (BitVec.ofNat 32 p.length)
      (paintWindow s.nextDraw.x s.nextDraw.y s.nextDraw.w s.nextDraw.h
        (scanline s.nextDraw.w (drawColor s.cfg s.nextDraw)) s.nextDraw.h s.popDraw.popAlloc)) := by
  have hwrite : exec i s = writeRect p s := by
    rcases hi with rfl | rfl <;> rw [exec_write s rfl, writeDispatch, hmode] <;> rfl
  rw [hwrite, writeRect, fillRect_of_allocOk (s := s.popDraw) halloc]

/-- The events of a fill as the obligations list them. -/
theorem append_paintEvents (c : Config) (window : List Event) (buf : List Byte) (n : Nat) :
    window ++ commandEvents c.cmdRamwr true ++ List.replicate n (dataEvent buf true) ++
      commandEvents c.cmdNop true = window ++ paintEvents c buf n := by
  simp only [paintEvents, List.append_assoc]

/-- Settles O24: the fill of the draw, every message of it `ok`. -/
theorem rectWritePaintsOneRectangle : Obligations.RectWritePaintsOneRectangle := by
  rintro s p i d col x1 x2 y1 y2 evs hmode hi rfl rfl rfl rfl rfl rfl rfl hd hcfg halloc hok
  obtain ⟨hw, hh, -⟩ := nextDraw_bounds hcfg
  have hbuf : (List.replicate s.nextDraw.w (be16 (pack565 (drawColor s.cfg s.nextDraw)))).flatten =
    scanline s.nextDraw.w (drawColor s.cfg s.nextDraw) := rfl
  rw [hbuf, append_paintEvents] at hok ⊢
  refine ⟨by rw [messages_append, messages_paintEvents]; omega, ?_⟩
  rw [exec_rectWrite hmode hi halloc, paintWindow_sent (s := s.popDraw.popAlloc) _ _ hd (trunc16_natCast _)
    (trunc16_lastOf hw) (trunc16_natCast _) (trunc16_lastOf hh) hok]
  rfl

/-- Settles O25: the fill of the draw ends at its failing message, and past the window it uses only the bus. -/
theorem fillFailureStopsAtMessage : Obligations.FillFailureStopsAtMessage := by
  rintro s p i k d x1 x2 y1 y2 evs hmode hi rfl rfl rfl rfl rfl rfl hd hcfg halloc hk hfail
  obtain ⟨hw, hh, -⟩ := nextDraw_bounds hcfg
  rw [append_paintEvents] at hk ⊢
  have hx2 := trunc16_lastOf (start := s.nextDraw.x) hw
  have hy2 := trunc16_lastOf (start := s.nextDraw.y) hh
  obtain ⟨u, hrun, htrace, hwindow, hdc, hhung⟩ := paintWindow_fails (s := s.popDraw.popAlloc)
    (scanline s.nextDraw.w (drawColor s.cfg s.nextDraw)) s.nextDraw.h hd (trunc16_natCast _) hx2
    (trunc16_natCast _) hy2 k hk hfail
  obtain ⟨hsame, hcache⟩ := setWindow_cacheAfterFailure (s := s.popDraw.popAlloc) hd (trunc16_natCast _) hx2
    (trunc16_natCast _) hy2 (paintRows_onlyBus _ _) hfail hrun
  obtain ⟨-, -, -, -, -, -, -, -, -, hresp, -⟩ := hwindow.fields
  rw [exec_rectWrite hmode hi halloc, hrun]
  exact ⟨_, rfl, htrace, congrArg (· ++ [(⟨.error .io, 0, []⟩ : Response)]) hresp, hdc, hhung, hsame, hcache,
    hwindow.served⟩

end Sys2Proof.Machine
end

section
/-! SUPPORT. The Mode Controller (`43_mode_controller.md`): which requests a step takes (R135), the four control
calls that write the mode alone and arming, which sets the full-panel window and sends `RAMWR` (R136 to R142), and
a WRITE in Idle mode (R144). Settles O8, O12, O15, O16, O18, O19, O20, O21 and O23. -/

namespace Sys2Proof.Machine

open Sys2Proof

/-! ## Which requests a step takes (R135) -/

/-- A request that decodes is run on the state with its bytes taken. -/
theorem requestStep_of_ok {s : State} {i : Instr} {rest : List Byte} (hd : decode s.cfg s.hostIn = .ok i rest) :
    requestStep s = exec i { s with hostIn := rest } := by
  cases hin : s.hostIn with
  | nil => rw [hin] at hd; cases hd
  | cons op bytes =>
    rw [hin] at hd
    simp [requestStep, takeRequest, hin, hd]

/-- Settles O8: a ready block looks at its host port, and runs what decodes there. -/
theorem stepRunsDecodedRequest : Obligations.StepRunsDecodedRequest := by
  intro s i rest hidle hhung hphase hattached hd
  rw [step_of_ready hidle ((ready_iff s).mpr ⟨hhung, hphase, hattached⟩)]
  exact requestStep_of_ok (s := s.popReset) hd

/-- While `ATTACHED = 0` the only steps are those of the reset sequence. -/
theorem advance_of_detached {s t : State} (ha : s.attached = false) (h : advance s = .next t) : Boots s t := by
  rcases advance_changes h with ⟨-, hboots⟩ | ⟨hdone, -⟩
  · exact hboots
  · obtain ⟨hhung, -⟩ := advance_cases h
    simp [advance, hhung, hdone, ha] at h

/-- The reset sequence leaves both host ports alone. -/
theorem OnlyBoot.hostPorts {s t : State} (h : OnlyBoot s t) :
    t.hostIn = s.hostIn ∧ t.responses = s.responses := by
  unfold OnlyBoot at h
  rw [h]
  exact ⟨rfl, rfl⟩

/-- Settles O12: a step of the reset sequence takes no request, and a reset finds none taken in a block that is
not attached. -/
theorem noRequestUntilAttached : Obligations.NoRequestUntilAttached := by
  intro s t ha h
  rcases step_cases h with ⟨-, hadv⟩ | ⟨hreset, bytes, rfl, hbytes⟩
  · have hboots := (advance_of_detached (s := s.popReset) ha hadv).frame
    obtain ⟨hin, hresp⟩ := hboots.hostPorts
    obtain ⟨-, hmode, hcache, hstream, hfb, -⟩ := hboots.fields
    exact ⟨hin, hresp, fun _ => ⟨hmode, hstream, hfb, hcache⟩⟩
  · refine ⟨?_, rfl, fun hidle => absurd hidle hreset⟩
    rcases hbytes with rfl | ⟨hready, -⟩
    · rfl
    · obtain ⟨-, -, hattached⟩ := (ready_iff s).mp hready
      rw [ha] at hattached
      cases hattached

/-! ## The control calls that write the mode alone (R136 to R139) -/

/-- Settles O15: either call is `set_mode` of a mode that has no side effect. -/
theorem plainModeSetRecordsMode : Obligations.PlainModeSetRecordsMode := fun _ => ⟨rfl, rfl⟩

theorem exec_setmodeInvalid {arg : Byte} (h : 3 ≤ arg.toNat) (s : State) :
    exec (.setmodeInvalid arg) s = .next ((s.setMode .idle).respond (.error .inval) 0 []) := by
  rw [exec, execSetmodeInvalid, setModeCall_reject h]
  rfl

/-- Settles O16: the mode byte names no mode, and `set_mode` rejects it. -/
theorem unknownModeForcesIdle : Obligations.UnknownModeForcesIdle := by
  intro s arg harg
  refine ⟨?_, exec_setmodeInvalid harg s⟩
  rw [← ctrlCall_invalid s.cfg harg]
  exact decode_ctrlRequest s.cfg s.cfg.reqSetMode arg []

theorem exec_ctrlUnknown {req : Byte} {s : State} (h : req ≠ s.cfg.reqSetMode) (arg : Byte) :
    exec (.ctrlUnknown req arg) s = .next (s.respond (.error .noTty) 0 []) := by
  rw [exec, execCtrlUnknown, controlCall, if_pos h]
  rfl

/-- A control call that does not arm writes the mode and answers, and that is all. -/
theorem exec_control_of_not_stream {i : Instr} {s : State} (hc : isControl i = true) (hwf : i.wf s.cfg = true)
    (hi : i ≠ .setmodeStream) : ∃ m status, exec i s = .next ((s.setMode m).respond status 0 []) := by
  cases i with
  | setmodeIdle => exact ⟨.idle, .ok, rfl⟩
  | setmodeRect => exact ⟨.rect, .ok, rfl⟩
  | setmodeStream => exact absurd rfl hi
  | setmodeInvalid arg => exact ⟨.idle, .error .inval, exec_setmodeInvalid (of_decide_eq_true hwf) s⟩
  | ctrlUnknown req arg => exact ⟨s.mode, .error .noTty, exec_ctrlUnknown (of_decide_eq_true hwf) arg⟩
  | _ => cases hc

/-- Settles O21: arming changes, besides the bus and the window cache, at most the mode and `FB_CREATED`; every
other control call changes at most the mode. -/
theorem controlCallFrame : Obligations.ControlCallFrame := by
  intro i s t hc hwf h
  by_cases hi : i = .setmodeStream
  · subst hi
    cases exec_changes h with
    | served ht | mode _ _ _ ht | stream _ ht =>
      obtain ⟨hcfg, -, hstream, hfb, -, hrst, hattached, hphase, hin, -⟩ := OnlyWindow.fields ht
      exact ⟨hstream, hfb, hrst, hattached, hphase, hin, hcfg, absurd rfl⟩
    | header hw | row hw => cases hw
    | frame hbus => cases hbus
  · obtain ⟨m, status, e⟩ := exec_control_of_not_stream hc hwf hi
    rw [e] at h
    cases h
    simp [SameStream, SameCache]

/-! ## Arming (R140, R141) -/

/-- What `set_mode(2)` does on the bus once the buffer and the mode are recorded. -/
def arm (s : State) : Run Unit := (setFullWindow s).andThen fun _ t => sendCommand t.cfg.cmdRamwr t

/-- What `arm` emits when every message ends `ok`. -/
def armEvents (s : State) : List Event := s.windowEvents 0 239 0 319 ++ commandEvents s.cfg.cmdRamwr true

theorem enterStream_of_buffer {s : State} (h : s.fbCreated = true ∨ s.allocOk = true) :
    enterStream s = arm s.streamBase := by
  rw [enterStream, acquireFb_ok h, andThen_ok]
  rfl

theorem arm_sent {s : State} (hd : s.dc = true) (hok : s.answersOk (messages (armEvents s))) :
    arm s = ⟨.ok (), ((s.sent (armEvents s) (messages (armEvents s))).fillCol 0 239).fillRow 0 319⟩ := by
  rw [armEvents, messages_append] at *
  have hramwr := answersOk_sent (evs := s.windowEvents 0 239 0 319) s hok
  rw [arm, setFullWindow_sent hd (answersOk_le s hok (Nat.le_add_right _ _)), andThen_ok, ← sent_sent]
  exact sendCommand_sent hd hramwr

theorem arm_fails {s : State} (hd : s.dc = true) : FailsAlong s (arm s) (armEvents s) :=
  .andThen rfl (setFullWindow_fails hd) (setFullWindow_goes hd) (sendCommand_fails _)

/-- The cache a failed arming leaves (R115). -/
theorem arm_cacheAfterFailure {s u : State} {k : Nat} (hd : s.dc = true) (hk : s.failsAt k)
    (hu : arm s = ⟨.err .io, u⟩) : CacheAfterFailure s u 0 239 0 319 k :=
  (setWindow_cacheAfterFailure hd full_x1 full_x2 full_x1 full_y2 (fun t => sendCommand_onlyBus _ t) hk hu).2

/-! What `set_mode(2)` has recorded before it uses the bus changes nothing that arming reads of the state. -/

@[simp] theorem streamBase_mode (s : State) : s.streamBase.mode = .stream := rfl
@[simp] theorem streamBase_dc (s : State) : s.streamBase.dc = s.dc := by rw [streamBase_eq]
@[simp] theorem streamBase_trace (s : State) : s.streamBase.trace = s.trace := by rw [streamBase_eq]
@[simp] theorem streamBase_hung (s : State) : s.streamBase.hung = s.hung := by rw [streamBase_eq]
@[simp] theorem streamBase_fbCreated (s : State) : s.streamBase.fbCreated = true := by rw [streamBase_eq]
@[simp] theorem streamBase_responses (s : State) : s.streamBase.responses = s.responses := by rw [streamBase_eq]
@[simp] theorem streamBase_armEvents (s : State) : armEvents s.streamBase = armEvents s := by
  rw [streamBase_eq]; rfl

theorem streamBase_answersOk {s : State} {n : Nat} (h : s.answersOk n) : s.streamBase.answersOk n :=
  fun k hk => (streamBase_answer s k).symm ▸ h k hk

theorem streamBase_failsAt {s : State} {k : Nat} (h : s.failsAt k) : s.streamBase.failsAt k :=
  ⟨streamBase_answersOk h.1, (streamBase_answer s k).trans h.2⟩

/-- The mode and the buffer are recorded in the state that the acquisition, where there is one, leaves (R140). -/
theorem streamBase_eq_acquired (s : State) :
    s.streamBase = { (if s.fbCreated then s else s.popAlloc) with
      mode := .stream, fbCreated := true, responses := s.responses } := by
  by_cases h : s.fbCreated = true
  · rw [State.streamBase, if_pos h, if_pos h, State.setMode, ← h]
  · rw [State.streamBase, if_neg h, if_neg h]
    rfl

/-- Settles O18: the mode and the buffer are recorded, and the arming that follows has every message `ok`. -/
theorem streamModeArms : Obligations.StreamModeArms := by
  intro s evs hevs hd hbuffer hok
  obtain rfl : evs = armEvents s := hevs
  have hrun := arm_sent (s := s.streamBase) (by simpa using hd) (streamBase_answersOk (by simpa using hok))
  rw [exec, execSetmodeStream, enterStream_of_buffer hbuffer, hrun, streamBase_armEvents, streamBase_eq_acquired]
  rfl

/-- Settles O19: the arming ends at its failing message, with the mode and the buffer recorded before it. -/
theorem armingFailureKeepsMode : Obligations.ArmingFailureKeepsMode := by
  intro s k evs hevs hd hbuffer hk hfail
  obtain rfl : evs = armEvents s := hevs
  have hd' : s.streamBase.dc = true := by simpa using hd
  have hfail' := streamBase_failsAt hfail
  obtain ⟨u, hrun, htrace, hwindow, hdc, hhung⟩ := arm_fails hd' k (by simpa using hk) hfail'
  have hcache := arm_cacheAfterFailure hd' hfail' hrun
  rw [streamBase_eq] at hcache
  obtain ⟨-, hmode, -, -, hcreated, -, -, -, -, hresp, -⟩ := hwindow.fields
  rw [exec, execSetmodeStream, enterStream_of_buffer hbuffer, hrun]
  refine ⟨u.respond (.error .io) 0 [], rfl, hmode, ?_, ?_, hdc, ?_, ?_, hcache,
    ((streamBase_onlyWindow s).trans hwindow).served⟩
  · simpa using hcreated
  · simpa using htrace
  · simpa using hhung
  · simp [hresp]

/-! ## Arming again (R141, R116) -/

/-- What an arming that answered `Ok` leaves recorded. -/
structure ArmRecorded (s : State) : Prop where
  mode : s.mode = .stream
  created : s.fbCreated = true
  dc : s.dc = true
  col : s.colHit 0 239 = true
  row : s.rowHit 0 319 = true

theorem setFullWindow_eq_ok {s u : State} (h : setFullWindow s = ⟨.ok (), u⟩) :
    u.colHit 0 239 = true ∧ u.rowHit 0 319 = true := by
  have hits := setWindow_eq_ok h
  rwa [full_x1, full_x2, full_y2] at hits

theorem arm_eq_ok {s u : State} (h : arm s = ⟨.ok (), u⟩) :
    u.mode = s.mode ∧ u.fbCreated = s.fbCreated ∧ u.dc = true ∧ u.colHit 0 239 = true ∧
      u.rowHit 0 319 = true := by
  obtain ⟨_, t, hwindow, hramwr⟩ := andThen_eq_ok h
  obtain ⟨hcol, hrow⟩ := setFullWindow_eq_ok hwindow
  have frame := setFullWindow_onlyWindow s
  rw [hwindow] at frame
  obtain ⟨-, hmode, -, -, hcreated, -⟩ := frame.fields
  rw [sendCommand_eq_ok hramwr]
  exact ⟨hmode, hcreated, rfl, hcol, hrow⟩

theorem enterStream_eq_ok {s u : State} (h : enterStream s = ⟨.ok (), u⟩) : ArmRecorded u := by
  rcases enterStream_cases s with ⟨-, -, e⟩ | ⟨hbuffer, -⟩
  · rw [e] at h; cases h
  · rw [enterStream_of_buffer hbuffer] at h
    obtain ⟨hmode, hcreated, hdc, hcol, hrow⟩ := arm_eq_ok h
    exact ⟨hmode, hcreated.trans (streamBase_fbCreated s), hdc, hcol, hrow⟩

/-- With everything recorded there is nothing to acquire, no mode to write and no axis to send. -/
theorem ArmRecorded.enterStream {s : State} (h : ArmRecorded s) (hok : s.answersOk 1) :
    enterStream s = ⟨.ok (), s.sent (commandEvents s.cfg.cmdRamwr true) 1⟩ := by
  have hbase : s.streamBase = s := by
    rw [State.streamBase, if_pos h.created, State.setMode, ← h.mode]
  have hwindow : setFullWindow s = ⟨.ok (), s⟩ := by
    apply setWindow_of_hit
    · rw [full_x1, full_x2]; exact h.col
    · rw [full_x1, full_y2]; exact h.row
  rw [enterStream_of_buffer (.inl h.created), hbase, arm, hwindow, andThen_ok, sendCommand_sent h.dc hok]

/-- A run that has answered nothing itself and whose delivery adds an `Ok` response has succeeded. -/
theorem eq_ok_of_responses {α : Type} {s : State} {r : Run α} {v : α → Word} {d : α → List Byte} {val : Word}
    {data : List Byte} (hr : r.st.responses = s.responses)
    (h : (deliver v d r).responses = s.responses ++ [⟨.ok, val, data⟩]) : ∃ a, r = ⟨.ok a, r.st⟩ := by
  obtain ⟨res, t⟩ := r
  cases res with
  | ok a => exact ⟨a, rfl⟩
  | err e => simp [show t.responses = s.responses from hr] at h
  | hung => simp [show t.responses = s.responses from hr] at h

/-- Settles O20: the first arming leaves everything recorded. -/
theorem secondArmingResendsRamwrOnly : Obligations.SecondArmingResendsRamwrOnly := by
  intro s t _ h hresp hok
  cases h
  obtain ⟨hquiet, -⟩ := setModeCall_waits Config.modeStream s
  obtain ⟨_, hrun⟩ := eq_ok_of_responses (r := enterStream s) hquiet hresp
  have recorded : ArmRecorded (deliverVal 0 (enterStream s)) := by
    obtain ⟨hmode, hcreated, hdc, hcol, hrow⟩ := enterStream_eq_ok hrun
    rw [hrun]
    exact ⟨hmode, hcreated, hdc, hcol, hrow⟩
  rw [exec, execSetmodeStream, recorded.enterStream hok]
  rfl

/-! ## A WRITE in Idle mode (R144) -/

theorem exec_idleWrite {s : State} {p : List Byte} {i : Instr} (hmode : s.mode = .idle)
    (hi : i = .write p ∨ i = .writeIdle p) :
    exec i s = .next (deliverVal (BitVec.ofNat 32 p.length) (sendCommand s.cfg.cmdNop s)) := by
  rcases hi with rfl | rfl <;> rw [exec_write s rfl, writeDispatch, hmode] <;> rfl

/-- Settles O23: the one message is `send_command(NOP)`, on either outcome. -/
theorem idleWriteSendsNop : Obligations.IdleWriteSendsNop := by
  intro s p i hmode hi
  rw [exec_idleWrite hmode hi]
  refine ⟨fun hok => ?ok, fun hfail => ?fail⟩
  case ok =>
    obtain ⟨rx, hrx⟩ := answersOk_head s hok
    rw [sendCommand_ok hrx]
    rfl
  case fail =>
    rw [sendCommand_fail hfail]
    rfl

end Sys2Proof.Machine
end

section
/-! SUPPORT. The Frame Streaming Engine (`44_frame_stream.md`): a header opens the window or faults (R161 to R163),
a row is copied at its offset and moves the cursor or flushes (R164 to R169), and a header followed by its rows
(R173). Settles O28, O29, O30, O31, O32, O33 and O34. -/

namespace Sys2Proof.Machine

open Sys2Proof

/-- A WRITE in FrameStream mode, under any of its names, is `stream_write` of its payload (R146, R160). -/
theorem exec_streamWrite {i : Instr} {s : State} (hmode : s.mode = .stream) (hw : isWrite i = true) :
    exec i s = streamWrite (payload i) s := by
  rw [exec_write s hw, writeDispatch, hmode]

/-! ## AwaitingHeader (R161 to R163) -/

/-- `ValidRect` as the inequalities of R163. -/
theorem validRect_iff (x y w h : Word) :
    validRect x y w h = true ↔ 0 ≤ x.toInt ∧ 0 ≤ y.toInt ∧ 1 ≤ w.toInt ∧ 1 ≤ h.toInt ∧
      x.toInt + w.toInt ≤ 240 ∧ y.toInt + h.toInt ≤ 320 := by
  simp only [validRect, Bool.and_eq_true, decide_eq_true_eq, and_assoc]
  rfl

theorem streamHeader_valid {x y w h : Word} (s : State) (hv : validRect x y w h = true) :
    streamHeader x y w h s = .next ((s.openWindow x y w h).respond .ok 16 []) := by
  rw [streamHeader, if_neg (by simp [hv])]
  rfl

theorem streamHeader_invalid {x y w h : Word} (s : State) (hv : ¬ validRect x y w h = true) :
    streamHeader x y w h s = .fault (.badGeometry x y w h) := by
  rw [streamHeader, if_pos (by simpa using hv)]

theorem exec_header {s : State} {x y w h : Word} {i : Instr} (hmode : s.mode = .stream) (hrow : s.nextRow = -1)
    (hi : i = .writeHdr x y w h ∨ i = .write (rectBytes x y w h)) : exec i s = streamHeader x y w h s := by
  have hwrite : exec i s = streamWrite (rectBytes x y w h) s := by
    rcases hi with rfl | rfl <;> exact exec_streamWrite hmode rfl
  obtain ⟨hx, hy, hw, hh⟩ := rectBytes_fields x y w h
  have hlen : (rectBytes x y w h).length = Config.rectDescSize := rectBytes_length x y w h
  rw [hwrite, streamWrite, if_pos hrow, if_pos hlen, hx, hy, hw, hh]

/-- Settles O28: a header that meets `ValidRect` opens the window, and another faults. -/
theorem headerOpensWindow : Obligations.HeaderOpensWindow := by
  intro s x y w h i valid hmode hrow hi hvalid
  rw [exec_header hmode hrow hi, hvalid, ← validRect_iff]
  exact ⟨fun hv => streamHeader_valid s hv, streamHeader_invalid s⟩

/-- Settles O29: a header that meets `ValidRect` answers a next state, which is no fault. -/
theorem badGeometryFaults : Obligations.BadGeometryFaults := by
  intro s x y w h hmode hrow
  obtain ⟨hnext, hfault⟩ := headerOpensWindow s x y w h _ _ hmode hrow (.inl rfl) Iff.rfl
  refine ⟨fun he hv => ?_, hfault⟩
  rw [hnext hv] at he
  cases he

/-- Settles O30: a WRITE of another length is refused before its bytes are looked at. -/
theorem wrongHeaderSizeRejected : Obligations.WrongHeaderSizeRejected := by
  intro s p i hmode hrow hlen hi
  have hwrite : exec i s = streamWrite p s := by
    rcases hi with rfl | rfl <;> exact exec_streamWrite hmode rfl
  rw [hwrite, streamWrite, if_pos hrow]
  exact if_neg hlen

/-! ## AwaitingRow (R164 to R169) -/

theorem rowOffset_eq (s : State) :
    s.rowOffset = ((s.pwinY.toInt + s.nextRow.toInt) * 240 + s.pwinX.toInt) * 2 := rfl

theorem exec_row {s : State} {p : List Byte} {i : Instr} (hmode : s.mode = .stream) (hrow : s.nextRow ≠ -1)
    (hi : i = .writeRow p ∨ i = .write p) : exec i s = streamRow p s := by
  have hwrite : exec i s = streamWrite p s := by
    rcases hi with rfl | rfl <;> exact exec_streamWrite hmode rfl
  rw [hwrite, streamWrite, if_neg hrow]

theorem nextRow_ne_of_nonneg {r : Word} (h : 0 ≤ r.toInt) : r ≠ -1 := fun e => by
  have := nextRow_neg_one.mp e
  omega

theorem streamRow_rowLength {p : List Byte} {s : State} (hstrict : s.cfg.strictRowLen = true)
    (hlen : (p.length : Int) ≠ 2 * s.pwinW.toInt) : streamRow p s = .fault (.rowLength p.length) := by
  rw [streamRow, if_pos ⟨hstrict, hlen⟩]

/-- What a flush does when its message ends, on success and on failure alike (R166, R167). -/
theorem streamFlush_ends {s : State} {ok : Bool} (hok : ok = true → s.answersOk 1)
    (hfail : ok = false → s.answer 0 = .fail) :
    streamFlush s = ⟨if ok then .ok () else .err .io,
      (s.sent [dataEvent (s.fbRead 0 Config.fbSize) ok] 1).closeWindow⟩ := by
  cases ok with
  | true => simp only [streamFlush, sendData_sent (hok rfl)]; rfl
  | false => simp only [streamFlush, sendData_fail (hfail rfl)]; rfl

/-- The state right after a row that is not the last. -/
def State.rowCopied (off : Nat) (p : List Byte) (s : State) : State :=
  (copyRow off p s).advanceRow.respond .ok (BitVec.ofNat 32 p.length) []

/-- The state right after the last row, whose flush ended with the outcome `ok`. -/
def State.rowFlushed (off : Nat) (p : List Byte) (ok : Bool) (s : State) : State :=
  ((copyRow off p s).sent [dataEvent ((copyRow off p s).fbRead 0 Config.fbSize) ok] 1).closeWindow.respond
    (if ok then .ok else .error .io) (if ok then BitVec.ofNat 32 p.length else 0) []

/-- A row that may be copied: the block awaits one, the row starts at `off`, has a permitted length and lies inside
`FB` (R164, R168, R169). -/
structure RowFits (s : State) (p : List Byte) (off : Nat) : Prop where
  mode : s.mode = .stream
  awaits : 0 ≤ s.nextRow.toInt
  starts : (off : Int) = ((s.pwinY.toInt + s.nextRow.toInt) * 240 + s.pwinX.toInt) * 2
  permitted : s.cfg.strictRowLen = false ∨ (p.length : Int) = 2 * s.pwinW.toInt
  inside : off + p.length ≤ 153600

section Row

variable {s : State} {p : List Byte} {i : Instr} {off : Nat}

/-- A row that may be copied is copied at its offset. -/
theorem RowFits.exec_copy (h : RowFits s p off) (hi : i = .writeRow p ∨ i = .write p) :
    exec i s = .next (deliverVal (BitVec.ofNat 32 p.length) (afterCopy (copyRow off p s))) := by
  have hoff : s.rowOffset = off := (rowOffset_eq s).trans h.starts.symm
  have hinside := h.inside
  rw [exec_row h.mode (nextRow_ne_of_nonneg h.awaits) hi, streamRow_next h.permitted (by omega)
    (by rw [hoff, Config.fbSize]; omega), hoff, Int.toNat_natCast]

theorem RowFits.exec_inner (h : RowFits s p off) (hi : i = .writeRow p ∨ i = .write p)
    (hr : s.nextRow.toInt + 1 < s.pwinH.toInt) : exec i s = .next (s.rowCopied off p) := by
  have hcopy : afterCopy (copyRow off p s) = ⟨.ok (), (copyRow off p s).advanceRow⟩ := by
    rw [afterCopy, if_neg]
    exact hr.ne
  rw [h.exec_copy hi, hcopy]
  rfl

theorem RowFits.exec_last {ok : Bool} (h : RowFits s p off) (hi : i = .writeRow p ∨ i = .write p)
    (hr : s.nextRow.toInt + 1 = s.pwinH.toInt) (hok : ok = true → s.answersOk 1)
    (hfail : ok = false → s.answer 0 = .fail) : exec i s = .next (s.rowFlushed off p ok) := by
  have hcopy : afterCopy (copyRow off p s) = streamFlush (copyRow off p s) := by
    rw [afterCopy, if_pos]
    exact hr
  rw [h.exec_copy hi, hcopy, streamFlush_ends (s := copyRow off p s) hok hfail]
  cases ok <;> rfl

end Row

/-- Settles O31: the row is copied and the cursor moves; with `STRICT_ROW_LEN` another length faults. -/
theorem rowIsCopiedAndCursorMoves : Obligations.RowIsCopiedAndCursorMoves := by
  intro s p i off hmode hawaits hi hoff
  refine ⟨fun hstrict hlen => ?fault, fun hperm hinside hr => ?copied⟩
  case fault => rw [exec_row hmode (nextRow_ne_of_nonneg hawaits) hi, streamRow_rowLength hstrict hlen]
  case copied =>
    have hlt : s.nextRow.toInt < s.pwinH.toInt := by omega
    exact ⟨s.rowCopied off p, RowFits.exec_inner ⟨hmode, hawaits, hoff, hperm, hinside⟩ hi hr, rfl,
      advanceRow_toInt hawaits hlt, copyRow_fbByte s off p⟩

/-- Settles O32: the message is `MemRead` of the whole buffer after the copy, and the window closes on either
outcome. -/
theorem lastRowFlushesWholeBuffer : Obligations.LastRowFlushesWholeBuffer := by
  intro s p i off ok hmode hawaits hi hoff hperm hinside hr hok hfail
  refine ⟨s.rowFlushed off p ok, (copyRow off p s).fbRead 0 Config.fbSize,
    RowFits.exec_last ⟨hmode, hawaits, hoff, hperm, hinside⟩ hi hr hok hfail, ?frame, fbRead_length _ _ _,
    fun a ha => ?bytes, copyRow_fbByte s off p⟩
  case frame => cases ok <;> rfl
  case bytes => rw [fbRead_getD _ _ Config.fbSize _ ha, Nat.zero_add]; rfl

/-- Settles O33: a window that meets `ValidRect`, with the cursor inside it, keeps every offset inside `FB`; then
the end of the row decides. -/
theorem overrunFaultsOnlyPastTheEnd : Obligations.OverrunFaultsOnlyPastTheEnd := by
  rintro s p off ⟨-, hin⟩ hmode hrow hoff
  obtain ⟨h0, h1, hv⟩ := hin hrow
  obtain ⟨hx, hy, hw, hh, hxw, hyh⟩ := (validRect_iff _ _ _ _).mp hv
  refine ⟨by omega, by omega, by omega, fun hstrict => ?_⟩
  obtain rfl : s.rowOffset = off := (rowOffset_eq s).trans hoff.symm
  rw [exec_row hmode hrow (.inr rfl)]
  constructor
  · intro hfault
    by_contra hle
    rw [streamRow_next (.inl hstrict) (by omega) (by rw [Config.fbSize]; omega)] at hfault
    cases hfault
  · intro hpast
    rw [streamRow, if_neg (by simp [hstrict]), if_pos (.inr hpast)]

/-! ## A header and its rows (R173) -/

theorem execAll_cons {i : Instr} {s t : State} (h : exec i s = .next t) (rest : List Instr) :
    execAll (i :: rest) s = execAll rest t := by
  rw [execAll, h]

theorem execAll_append {as : List Instr} {s t : State} (h : execAll as s = .next t) (bs : List Instr) :
    execAll (as ++ bs) s = execAll bs t := by
  induction as generalizing s with
  | nil => cases h; rfl
  | cons i rest ih =>
    cases hi : exec i s with
    | next u => rw [execAll_cons hi] at h; rw [List.cons_append, execAll_cons hi, ih h]
    | fault f => rw [execAll, hi] at h; cases h
    | refused r => rw [execAll, hi] at h; cases h

/-- Where byte `0` of row `r` of a window at `(x, y)` stands in `FB` (R164). -/
def rowStart (x y r : Nat) : Nat := ((y + r) * 240 + x) * 2

/-- `FB` of `t` holds `rows` as the first rows of a window of width `w` at `(x, y)`, and reads elsewhere as `FB` of
`s` does. -/
def HoldsRows (x y w : Nat) (rows : List (List Byte)) (s t : State) : Prop :=
  (∀ r i, r < rows.length → i < 2 * w → t.fbByte (rowStart x y r + i) = (rows.getD r []).getD i 0) ∧
  ∀ a, (∀ r i, r < rows.length → i < 2 * w → a ≠ rowStart x y r + i) → t.fbByte a = s.fbByte a

/-- The rows of a window do not overlap, so copying the next one keeps those before it. -/
theorem HoldsRows.copyRow_next {x y w : Nat} {rows : List (List Byte)} {s t : State} {p : List Byte}
    (h : HoldsRows x y w rows s t) (hx : x + w ≤ 240) (hp : p.length = 2 * w) :
    HoldsRows x y w (rows ++ [p]) s (copyRow (rowStart x y rows.length) p t) := by
  obtain ⟨hheld, helse⟩ := h
  refine ⟨fun r i hr hi => ?held, fun a ha => ?elsewhere⟩
  case held =>
    rw [List.length_append, List.length_singleton] at hr
    rcases Nat.lt_succ_iff_lt_or_eq.mp hr with hlt | rfl
    · rw [copyRow_fbByte, if_neg (by unfold rowStart; omega), List.getD_append _ _ _ _ hlt, hheld r i hlt hi]
    · rw [copyRow_fbByte, if_pos (by omega), List.getD_append_right _ _ _ _ (Nat.le_refl _)]
      simp
  case elsewhere =>
    have hout : ¬ (rowStart x y rows.length ≤ a ∧ a < rowStart x y rows.length + p.length) := by
      rintro ⟨hge, hlt⟩
      exact ha rows.length (a - rowStart x y rows.length) (by simp) (by omega) (by omega)
    rw [copyRow_fbByte, if_neg hout]
    exact helse a fun r i hr hi => ha r i (by rw [List.length_append]; omega) hi

/-- A window of `w` by `h` at `(x, y)`, inside the panel, is open and its first row is awaited. -/
structure WindowOpen (x y w h : Nat) (s : State) : Prop where
  mode : s.mode = .stream
  row : s.nextRow = 0
  left : s.pwinX.toInt = x
  top : s.pwinY.toInt = y
  width : s.pwinW.toInt = w
  height : s.pwinH.toInt = h
  inColumns : x + w ≤ 240
  inRows : y + h ≤ 320

/-- The answers to rows that have each been taken. -/
def rowResponses (rows : List (List Byte)) : List Response :=
  rows.map fun p => ⟨.ok, BitVec.ofNat 32 p.length, []⟩

/-- What `rows`, fewer than the window has, leave after the window was opened in `s`. -/
structure RowsCopied (x y w : Nat) (rows : List (List Byte)) (s t : State) : Prop where
  frame : t = { s with
    fb := t.fb, nextRow := t.nextRow, responses := s.responses ++ rowResponses rows }
  cursor : t.nextRow.toInt = rows.length
  held : HoldsRows x y w rows s t

section Window

variable {x y w h : Nat} {rows : List (List Byte)} {s t : State} {p : List Byte}

theorem RowsCopied.height (ht : RowsCopied x y w rows s t) (hs : WindowOpen x y w h s) :
    t.pwinH.toInt = h := by
  rw [ht.frame]
  exact hs.height

/-- With some rows copied the next one of the expected length fits. -/
theorem RowsCopied.rowFits (ht : RowsCopied x y w rows s t) (hs : WindowOpen x y w h s) (hr : rows.length < h)
    (hp : p.length = 2 * w) : RowFits t p (rowStart x y rows.length) := by
  obtain ⟨hmode, -, hx, hy, hw, -, hright, hbottom⟩ := hs
  obtain ⟨hframe, hcursor, -⟩ := ht
  have hy' : t.pwinY.toInt = y := by rw [hframe]; exact hy
  have hx' : t.pwinX.toInt = x := by rw [hframe]; exact hx
  have hw' : t.pwinW.toInt = w := by rw [hframe]; exact hw
  exact {
    mode := by rw [hframe]; exact hmode
    awaits := by omega
    starts := by rw [hy', hx', hcursor, rowStart]; push_cast; rfl
    permitted := .inr (by omega)
    inside := by rw [rowStart]; omega }

/-- One more row copied, while the cursor stays inside the window. -/
theorem RowsCopied.rowCopied (ht : RowsCopied x y w rows s t) (hx : x + w ≤ 240) (hp : p.length = 2 * w)
    (hr : t.nextRow.toInt < t.pwinH.toInt) :
    RowsCopied x y w (rows ++ [p]) s (t.rowCopied (rowStart x y rows.length) p) := by
  obtain ⟨hframe, hcursor, hheld⟩ := ht
  have hmoved := advanceRow_toInt (by omega) hr
  refine ⟨?frame, ?cursor, hheld.copyRow_next hx hp⟩
  case frame =>
    rw [rowResponses, List.map_append, ← List.append_assoc, ← rowResponses, hframe]
    rfl
  case cursor =>
    rw [List.length_append, Nat.cast_add, ← hcursor]
    exact hmoved

/-- The rows of an open window but the last are copied one after another (R164, R165). -/
theorem WindowOpen.copies (hs : WindowOpen x y w h s) (rows : List (List Byte)) (hr : rows.length < h)
    (hp : ∀ p ∈ rows, p.length = 2 * w) :
    ∃ t, execAll (rows.map Instr.write) s = .next t ∧ RowsCopied x y w rows s t := by
  induction rows using List.reverseRecOn with
  | nil =>
    have hzero : s.nextRow.toInt = 0 := by rw [hs.row]; rfl
    exact ⟨s, rfl, by simp [rowResponses], hzero, nofun, fun _ _ => rfl⟩
  | append_singleton rows p ih =>
    rw [List.length_append, List.length_singleton] at hr
    obtain ⟨t, hrun, ht⟩ := ih (by omega) fun q hq => hp q (List.mem_append_left _ hq)
    have hlen : p.length = 2 * w := hp p (by simp)
    have hheight := ht.height hs
    have hcursor := ht.cursor
    have hexec := (ht.rowFits hs (by omega) hlen).exec_inner (.inr rfl) (by omega)
    refine ⟨_, ?_, ht.rowCopied hs.inColumns hlen (by omega)⟩
    rw [List.map_append, execAll_append hrun]
    exact execAll_cons hexec []

/-- All the rows of an open window are copied, and after the last one the whole buffer goes out (R166). -/
theorem WindowOpen.flushes (hs : WindowOpen x y w h s) (hh : 1 ≤ h) (hr : rows.length = h)
    (hp : ∀ p ∈ rows, p.length = 2 * w) (hok : s.answersOk 1) :
    ∃ t, execAll (rows.map Instr.write) s = .next t ∧
      t = { s.sent [dataEvent (t.fbRead 0 Config.fbSize) true] 1 with
        fb := t.fb, nextRow := -1, pwinV := false, responses := s.responses ++ rowResponses rows } ∧
      HoldsRows x y w rows s t := by
  obtain rfl | ⟨done, last, rfl⟩ := rows.eq_nil_or_concat'
  · rw [List.length_nil] at hr; omega
  rw [List.length_append, List.length_singleton] at hr
  obtain ⟨u, hrun, hu⟩ := hs.copies done (by omega) fun p hq => hp p (List.mem_append_left _ hq)
  have hlast : last.length = 2 * w := hp last (by simp)
  have hfits := hu.rowFits hs (by omega) hlast
  have hheight := hu.height hs
  obtain ⟨hframe, hcursor, hheld⟩ := hu
  have hanswers : u.answersOk 1 := by rw [hframe]; exact hok
  have hexec := hfits.exec_last (ok := true) (.inr rfl) (by omega) (fun _ => hanswers) nofun
  refine ⟨u.rowFlushed (rowStart x y done.length) last true, ?run, ?frame, hheld.copyRow_next hs.inColumns hlast⟩
  case run =>
    rw [List.map_append, execAll_append hrun]
    exact execAll_cons hexec []
  case frame =>
    rw [rowResponses, List.map_append, ← List.append_assoc, ← rowResponses, hframe]
    rfl

end Window

theorem toInt_ofNat32 {n : Nat} (h : n < 2 ^ 31) : (BitVec.ofNat 32 n).toInt = n := by
  rw [BitVec.toInt_ofNat']
  apply Int.bmod_eq_of_le <;> omega

/-- The header of a sub-window inside the panel opens it (R161). -/
theorem exec_header_opens {s : State} {x y w h : Nat} (hmode : s.mode = .stream) (hrow : s.nextRow = -1)
    (hw : 1 ≤ w) (hh : 1 ≤ h) (hx : x + w ≤ 240) (hy : y + h ≤ 320) :
    ∃ u, exec (.write (rectBytes (BitVec.ofNat 32 x) (BitVec.ofNat 32 y) (BitVec.ofNat 32 w)
        (BitVec.ofNat 32 h))) s = .next u ∧
      u = { s with
        pwinV := true, pwinX := u.pwinX, pwinY := u.pwinY, pwinW := u.pwinW, pwinH := u.pwinH, nextRow := 0
        responses := s.responses ++ [⟨.ok, 16, []⟩] } ∧
      WindowOpen x y w h u := by
  have hleft := toInt_ofNat32 (n := x) (by omega)
  have htop := toInt_ofNat32 (n := y) (by omega)
  have hwidth := toInt_ofNat32 (n := w) (by omega)
  have hheight := toInt_ofNat32 (n := h) (by omega)
  have hvalid := (validRect_iff (.ofNat 32 x) (.ofNat 32 y) (.ofNat 32 w) (.ofNat 32 h)).mpr (by omega)
  exact ⟨_, (exec_header hmode hrow (.inr rfl)).trans (streamHeader_valid s hvalid), rfl,
    hmode, rfl, hleft, htop, hwidth, hheight, hx, hy⟩

/-- Settles O34: the header opens the window, the rows but the last are copied, and the last one is copied and
flushed. -/
theorem streamingReconstruction : Obligations.StreamingReconstruction := by
  rintro s x y w h rows hmode hrow hw hh hx hy hlen hp hok hdr rfl
  obtain ⟨v, hheader, hv, hopen⟩ := exec_header_opens hmode hrow hw hh hx hy
  refine ⟨fun k hk => ?before, ?whole⟩
  case before =>
    obtain ⟨u, hrun, hu⟩ := hopen.copies (rows.take k) (by rw [List.length_take]; omega)
      fun p hq => hp p (List.mem_of_mem_take hq)
    refine ⟨u, (execAll_cons hheader _).trans hrun, ?_⟩
    rw [hu.frame, hv]
  case whole =>
    have hanswers : v.answersOk 1 := by rw [hv]; exact hok
    obtain ⟨t, hrun, ht, hheld⟩ := hopen.flushes hh hlen hp hanswers
    rw [HoldsRows, hlen] at hheld
    obtain ⟨hrows, helse⟩ := hheld
    rw [hv] at ht helse
    refine ⟨t, (execAll_cons hheader _).trans hrun, congrArg State.nextRow ht, congrArg State.pwinV ht,
      (congrArg State.mode ht).trans hmode, ?cache, congrArg State.trace ht, ?responses, hrows, helse⟩
    case cache => rw [ht]; exact ⟨rfl, rfl, rfl, rfl, rfl, rfl⟩
    case responses => rw [ht]; exact List.append_assoc _ [_] _

end Sys2Proof.Machine
end

section
/-! SUPPORT. READ, which sets the full-panel window and receives what `RAMRD` brings (`45_read_and_init.md` R180),
and the init sequence, one command of the script per step, that ends for ever at its first failing message (R184,
R185). Settles O9, O10, O11, O35, O36 and O37. -/

namespace Sys2Proof.Machine

open Sys2Proof

/-! ## READ (R180) -/

/-- What READ does once its window is set: `RAMRD`, then one receive. -/
def receivePanel (n : Nat) (s : State) : Run (List Byte) :=
  (sendCommand s.cfg.cmdRamrd s).andThen fun _ s => readData n s

theorem readPanel_eq (n : Nat) (s : State) :
    readPanel n s = (setFullWindow s).andThen fun _ s => receivePanel n s := rfl

theorem exec_read (count : Word) (s : State) :
    exec (.read count) s =
      .next (deliver (fun _ => count) (fun bytes => bytes) (readPanel count.toNat s)) := rfl

/-- What `receivePanel` emits when every message ends `ok` and the receive brings `rx`. -/
def receiveEvents (c : Config) (n : Nat) (rx : List Byte) : List Event :=
  commandEvents c.cmdRamrd true ++ [.msg [.rx n rx] true]

theorem messages_receiveEvents (c : Config) (n : Nat) (rx : List Byte) :
    messages (receiveEvents c n rx) = 2 := rfl

theorem receivePanel_sent {n : Nat} {s : State} {rx : List Byte} (hd : s.dc = true) (hok : s.answersOk 1)
    (hrx : s.answer 1 = .ok rx) (hn : rx.length = n) :
    receivePanel n s =
      ⟨.ok rx, s.sent (receiveEvents s.cfg n rx) (messages (receiveEvents s.cfg n rx))⟩ := by
  have h1 : (s.sent (commandEvents s.cfg.cmdRamrd true) 1).answer 0 = .ok rx :=
    (sent_answer s _ 1 0).trans hrx
  rw [receivePanel, sendCommand_sent hd hok, andThen_ok, readData_self h1 hn, sent_sent]
  rfl

theorem receivePanel_fails (n : Nat) (rx : List Byte) (s : State) :
    FailsAlong s (receivePanel n s) (receiveEvents s.cfg n rx) :=
  .andThen rfl (sendCommand_fails _) (sendCommand_goes _) (readData_fails rfl n rx)

theorem receivePanel_onlyBus (n : Nat) (s : State) : OnlyBus s (receivePanel n s).st :=
  andThen_keeps (R := OnlyBus) OnlyBus.trans (sendCommand_onlyBus _ s) fun _ t _ => readData_onlyBus n t

/-- What READ emits when every message ends `ok` and the receive brings `rx`. -/
def readEvents (n : Nat) (rx : List Byte) (s : State) : List Event :=
  s.windowEvents 0 239 0 319 ++ receiveEvents s.cfg n rx

/-- The last message of READ is the receive, after the window's messages and `RAMRD`. -/
theorem messages_readEvents (n : Nat) (rx : List Byte) (s : State) :
    messages (readEvents n rx s) = messages (s.windowEvents 0 239 0 319) + 2 := by
  rw [readEvents, messages_append, messages_receiveEvents]

/-- READ when every message ends `ok`: its events, both axes cached, and the bytes the bus gave. -/
theorem readPanel_sent {n : Nat} {s : State} {rx : List Byte} (hd : s.dc = true)
    (hok : s.answersOk (messages (readEvents n rx s)))
    (hrx : s.answer (messages (readEvents n rx s) - 1) = .ok rx) (hn : rx.length = n) :
    readPanel n s =
      ⟨.ok rx, ((s.sent (readEvents n rx s) (messages (readEvents n rx s))).fillCol 0 239).fillRow 0 319⟩ := by
  rw [messages_readEvents] at *
  have hramrd := answersOk_sent (evs := s.windowEvents 0 239 0 319) s hok
  have hlast : (s.sent (s.windowEvents 0 239 0 319) (messages (s.windowEvents 0 239 0 319))).answer 1 = .ok rx :=
    (sent_answer s _ _ 1).trans hrx
  rw [readPanel_eq, setFullWindow_sent hd (answersOk_le s hok (Nat.le_add_right _ _)), andThen_ok, readEvents,
    ← messages_receiveEvents s.cfg n rx, ← sent_sent]
  exact receivePanel_sent hd (answersOk_le _ hramrd (by decide)) hlast hn

/-- READ ends at its first failing message. -/
theorem readPanel_fails {n : Nat} {s : State} (rx : List Byte) (hd : s.dc = true) :
    FailsAlong s (readPanel n s) (readEvents n rx s) :=
  .andThen rfl (setFullWindow_fails hd) (setFullWindow_goes hd) (receivePanel_fails n rx _)

/-- The cache a failed READ leaves (R115). -/
theorem readPanel_cacheAfterFailure {n k : Nat} {s u : State} (hd : s.dc = true) (hk : s.failsAt k)
    (hu : readPanel n s = ⟨.err .io, u⟩) : CacheAfterFailure s u 0 239 0 319 k :=
  (setWindow_cacheAfterFailure hd full_x1 full_x2 full_x1 full_y2 (receivePanel_onlyBus n) hk hu).2

/-- The events of READ as the obligations list them. -/
theorem append_receiveEvents (n : Nat) (rx : List Byte) (s : State) :
    s.windowEvents 0 239 0 319 ++ commandEvents s.cfg.cmdRamrd true ++ [.msg [.rx n rx] true] =
      readEvents n rx s :=
  List.append_assoc _ _ _

/-- Settles O35: the window, `RAMRD` and the receive, every message of them `ok`. -/
theorem readReturnsBusBytes : Obligations.ReadReturnsBusBytes := by
  rintro s count rx evs rfl hd hok hrx hlen
  rw [append_receiveEvents] at *
  rw [exec_read, readPanel_sent hd hok hrx hlen]
  rfl

/-- Settles O36: READ ends at its failing message, and past the window it uses only the bus. -/
theorem readFailureReturnsNoData : Obligations.ReadFailureReturnsNoData := by
  rintro s count k evs rfl hd hk hfail
  rw [append_receiveEvents] at *
  obtain ⟨u, hrun, htrace, hwindow, hdc, hhung⟩ := readPanel_fails [] hd k hk hfail
  obtain ⟨-, -, -, -, -, -, -, -, -, hresp, -⟩ := hwindow.fields
  have hcache := readPanel_cacheAfterFailure hd hfail hrun
  rw [exec_read, hrun]
  exact ⟨u.respond (.error .io) 0 [], rfl, htrace, hdc, hhung, by simp [hresp], hcache, hwindow.served⟩

/-- `FB` reads alike in two states with the same written bytes and the same launch contents (R28). -/
theorem sameFb_of_eq {s t : State} (hfb : t.fb = s.fb) (hlaunches : t.launches = s.launches) : SameFb s t :=
  fun a => by rw [State.fbByte, State.fbByte, hfb, hlaunches]

/-- Settles O37: whatever the bus answers, READ uses only the bus, the window cache and the responses. -/
theorem readFrame : Obligations.ReadFrame := by
  intro s t count h
  rw [exec_read] at h
  cases h
  have served : OnlyServed s (deliver (fun _ => count) (fun bytes => bytes) (readPanel count.toNat s)) :=
    (readPanel_onlyWindow count.toNat s).deliver _ _
  obtain ⟨-, hmode, hstream, hfb, hcreated, -, -, -, -, -, -, hlaunches⟩ := OnlyWindow.fields served
  exact ⟨served, hmode, hstream, sameFb_of_eq hfb hlaunches, hcreated⟩

/-! ## A step of the init sequence (R184) -/

/-- A step of the init sequence, with no reset asserted, runs the command at the head of the script. -/
theorem step_of_init {s : State} {p : Pending} {rest : List Pending} (hidle : s.resetNow = .idle)
    (hhung : s.hung = false) (hphase : s.phase = .init (p :: rest)) :
    step s = initStep p rest s.popReset := by
  simp [step_of_idle hidle, advance, hhung, hphase]

/-- Settles O9: the command is a row's when its frame decodes, and a vendor command otherwise. -/
theorem stepRunsInitCommand : Obligations.StepRunsInitCommand := by
  intro s p rest hidle hhung hphase
  rw [step_of_init hidle hhung hphase, initStep]
  refine ⟨fun i more hd => ?row, fun why hd => ?vendor⟩
  case row => rw [popReset_cfg, hd]; rfl
  case vendor => rw [popReset_cfg, hd]; rfl

/-- The data of an init command: one message when there is any. -/
def initData (i : InitStep) : List (List Byte) := if i.data = [] then [] else [i.data]

theorem initMessages_eq (i : InitStep) :
    initMessages i = commandEvents i.code true ++ (initData i).map (dataEvent · true) := by
  unfold initMessages initData
  split <;> rfl

/-- One message for the command byte, and the data's. -/
theorem messages_initMessages_eq (i : InitStep) : messages (initMessages i) = (initData i).length + 1 :=
  messages_initMessages i

/-- A step of the init sequence sends the frame of its command, then goes on with the script. -/
theorem step_of_initCommand {s : State} {i : InitStep} {rest : List Pending} (hidle : s.resetNow = .idle)
    (hhung : s.hung = false) (hphase : s.phase = .init (Pending.ofStep i :: rest)) :
    step s = .next (afterInitCommand i.delay rest
      (runFrame ⟨i.code, (initData i).map Seg.tx⟩ s.popReset)) := by
  rw [step_of_init hidle hhung hphase, initStep_eq, ofStep_eq]
  rfl

/-- A post-delay is its event, when there is any, and no message (R184). -/
theorem delay_eq_sent (d : Nat) (s : State) : s.delay d = s.sent (delayEvents d) 0 := by
  unfold State.delay delayEvents
  split
  · rfl
  · exact (sent_zero s).symm

/-- After a command that did not fail come its post-delay and the rest of the script. -/
theorem afterInitCommand_of_init {d : Nat} {rest more : List Pending} {s : State} (hhung : s.hung = false)
    (hphase : s.phase = .init more) :
    afterInitCommand d rest s = { s.sent (delayEvents d) 0 with phase := .init rest } := by
  simp [afterInitCommand, hhung, hphase, delay_eq_sent]

/-- From `DC` high a frame whose messages all end `ok` is their events and nothing else. -/
theorem runFrame_sent {code : Byte} {ms : List (List Byte)} {s : State} (hd : s.dc = true)
    (hok : s.answersOk (ms.length + 1)) :
    runFrame ⟨code, ms.map Seg.tx⟩ s =
      s.sent (commandEvents code true ++ ms.map (dataEvent · true)) (ms.length + 1) := by
  rw [runFrame_tx hok, ← hd]
  rfl

/-- Settles O10: the frame of the command with every message `ok`, then its post-delay. -/
theorem initCommandRuns : Obligations.InitCommandRuns := by
  intro s i rest hidle hhung hd hphase hok
  rw [messages_initMessages_eq] at hok ⊢
  rw [step_of_initCommand hidle hhung hphase, runFrame_sent (s := s.popReset) hd hok,
    afterInitCommand_of_init (by exact hhung) (by exact hphase), sent_sent, ← initMessages_eq]
  rfl

/-! ## An init command that fails (R185) -/

theorem dataPhase_cons_tx (b : List Byte) (segs : List Seg) (s : State) :
    dataPhase (.tx b :: segs) s = (sendData b s).andThen fun _ s => dataPhase segs s := by
  rw [dataPhase, sendData]
  generalize bus [.tx b] s = r
  obtain ⟨res, t⟩ := r
  cases res <;> rfl

theorem closing_dataEvents (ms : List (List Byte)) : closing (ms.map (dataEvent · true)) = [] := by
  cases ms <;> rfl

theorem dataPhase_fails {s : State} (hd : s.dc = true) (ms : List (List Byte)) :
    FailsAlong s (dataPhase (ms.map Seg.tx) s) (ms.map (dataEvent · true)) := by
  induction ms generalizing s with
  | nil => exact .nil _ _
  | cons b ms ih =>
    rw [List.map_cons, dataPhase_cons_tx, List.map_cons]
    exact .andThen (e1 := [dataEvent b true]) (closing_dataEvents ms) (sendData_fails hd b) (sendData_goes hd b)
      (ih hd)

/-- A frame ends at its first failing message. -/
theorem sendFrame_fails (code : Byte) (ms : List (List Byte)) (s : State) :
    FailsAlong s (sendFrame ⟨code, ms.map Seg.tx⟩ s) (commandEvents code true ++ ms.map (dataEvent · true)) :=
  .andThen (closing_dataEvents ms) (sendCommand_fails code) (sendCommand_goes code) (dataPhase_fails rfl ms)

/-- A frame that fails during the init script ends the script, and nothing of it follows. -/
theorem afterInitCommand_of_err {d : Nat} {rest more : List Pending} {f : CmdFrame} {s u : State} {e : Err}
    (hrun : sendFrame f s = ⟨.err e, u⟩) (hhung : u.hung = false) (hphase : u.phase = .init more) :
    afterInitCommand d rest (runFrame f s) = { u with phase := .done } := by
  simp [runFrame, hrun, endCommand, State.abandonInit, afterInitCommand, hhung, hphase]

/-- A block whose reset sequence ended without attaching takes no step while no reset is asserted (R32). -/
theorem step_of_detached {s : State} (hidle : s.resetNow = .idle) (hhung : s.hung = false)
    (hphase : s.phase = .done) (hattached : s.attached = false) : step s = .fault .attachFailed := by
  simp [step_of_idle hidle, advance, hhung, hphase, hattached]

/-- Settles O11: the frame of the command ends at its failing message, and the script with it. -/
theorem initFailureStopsForEver : Obligations.InitFailureStopsForEver := by
  intro s i rest k hidle hhung _ hattached hphase hk hfail
  rw [initMessages_eq] at *
  obtain ⟨u, hrun, htrace, hwindow, -, huhung⟩ :=
    sendFrame_fails i.code (initData i) s.popReset k hk hfail
  obtain ⟨-, -, -, -, -, -, huattached, huphase, huin, huresp, -⟩ := hwindow.fields
  have hstop : u.hung = false := huhung.trans hhung
  rw [step_of_initCommand hidle hhung hphase, afterInitCommand_of_err hrun hstop (huphase.trans hphase)]
  exact ⟨_, rfl, htrace, huattached.trans hattached, rfl, huresp, huin,
    fun hidle' => step_of_detached hidle' hstop rfl (huattached.trans hattached)⟩

end Sys2Proof.Machine
end

section
/-! SUPPORT. Errors (`60_exceptions.md`): a buffer that cannot be had is refused before anything else is done (R202),
the requests that send nothing leave the bus and the environment alone (R201), and a control call that is not the
mode-select call is refused (R204). Settles O17, O22 and O51. -/

namespace Sys2Proof.Machine

open Sys2Proof

/-! ## An unknown control call (R204) -/

/-- Settles O17: the call number is not the mode-select call's, for the decoder and for the procedure alike. -/
theorem unknownControlCallChangesNothing : Obligations.UnknownControlCallChangesNothing := by
  intro s req arg hreq
  refine ⟨?decodes, exec_ctrlUnknown hreq arg⟩
  case decodes =>
    have hcall : ctrlCall s.cfg req arg = .ctrlUnknown req arg := if_pos hreq
    rw [← hcall]
    exact decode_ctrlRequest s.cfg req arg []

/-! ## A buffer that cannot be had (R202) -/

/-- The first arming asks for the frame buffer before it does anything else (R140). -/
theorem enterStream_noMem {s : State} (hcreated : s.fbCreated = false) (halloc : s.allocOk = false) :
    enterStream s = raise .noMem s.popAlloc := by
  rw [enterStream, acquireFb_raise hcreated halloc]
  rfl

/-- A fill asks for its buffer before it does anything else (R125). -/
theorem fillRect_noMem {s : State} (halloc : s.allocOk = false) (x y w h : Nat) (c : Color) :
    fillRect x y w h c s = raise .noMem s.popAlloc := by
  rw [fillRect, if_pos halloc]

/-- Settles O22: both procedures that acquire a buffer raise `ErrNoMem` where the acquisition fails. -/
theorem noMemoryTouchesNothing : Obligations.NoMemoryTouchesNothing := by
  intro s p i halloc
  refine ⟨fun hcreated => ?arming, fun hmode hi => ?fill⟩
  case arming =>
    rw [exec, execSetmodeStream, enterStream_noMem hcreated halloc]
    rfl
  case fill =>
    have hwrite : exec i s = writeRect p s := by
      rcases hi with rfl | rfl <;> rw [exec_write s rfl, writeDispatch, hmode] <;> rfl
    rw [hwrite, writeRect, fillRect_noMem (s := s.popDraw) halloc]
    rfl

/-! ## Requests that send nothing (R201) -/

/-- From `s` to `t` nothing has been emitted and the environment has not been asked; the host has had one response,
and it is not `ErrIO`. -/
def AnsweredQuietly (s t : State) : Prop :=
  t.trace = s.trace ∧ t.env = s.env ∧
  ∃ r, t.responses = s.responses ++ [r] ∧ r.status ≠ .error .io

/-- A response other than `ErrIO`, given in a state that the bus, the environment and the responses do not tell from
`s`. -/
theorem AnsweredQuietly.respond {s u : State} {status : Status} (htrace : u.trace = s.trace) (henv : u.env = s.env)
    (hresp : u.responses = s.responses) (hstatus : status ≠ .error .io) (val : Word) (data : List Byte) :
    AnsweredQuietly s (u.respond status val data) :=
  ⟨htrace, henv, ⟨status, val, data⟩, by rw [respond_responses, hresp], hstatus⟩

/-- A control call but `SETMODE STREAM` writes at most the mode (R136 to R139). -/
theorem exec_control_quiet {i : Instr} {s t : State} (hc : isControl i = true) (hwf : i.wf s.cfg = true)
    (hi : i ≠ .setmodeStream) (h : exec i s = .next t) : AnsweredQuietly s t := by
  have modeWritten : ∀ m status, status ≠ .error .io → exec i s = .next ((s.setMode m).respond status 0 []) →
      AnsweredQuietly s t := fun m status hstatus e => by
    rw [e] at h
    cases h
    exact .respond rfl rfl rfl hstatus 0 []
  cases i with
  | setmodeIdle => exact modeWritten .idle .ok (by decide) rfl
  | setmodeRect => exact modeWritten .rect .ok (by decide) rfl
  | setmodeStream => exact absurd rfl hi
  | setmodeInvalid arg => exact modeWritten .idle _ (by decide) (exec_setmodeInvalid (of_decide_eq_true hwf) s)
  | ctrlUnknown req arg => exact modeWritten s.mode _ (by decide) (exec_ctrlUnknown (of_decide_eq_true hwf) arg)
  | _ => cases hc

/-- A header that is taken opens the window (R161). -/
theorem streamHeader_quiet {x y w h : Word} {s t : State} (hn : streamHeader x y w h s = .next t) :
    AnsweredQuietly s t := by
  by_cases hv : validRect x y w h = true
  · rw [streamHeader_valid s hv] at hn
    cases hn
    exact .respond rfl rfl rfl (by decide) 16 []
  · rw [streamHeader_invalid s hv] at hn
    cases hn

/-- A row that is not the last of its sub-window is copied and moves the cursor (R165). -/
theorem streamRow_quiet {p : List Byte} {s t : State} (hlast : s.nextRow.toInt + 1 ≠ s.pwinH.toInt)
    (h : streamRow p s = .next t) : AnsweredQuietly s t := by
  rcases streamRow_cases p s with ⟨-, -, e⟩ | ⟨-, e⟩ | ⟨-, -, e⟩ <;> rw [e] at h <;> cases h
  have hcopy : ∀ o, afterCopy (copyRow o p s) = ⟨.ok (), (copyRow o p s).advanceRow⟩ := fun _ => if_neg hlast
  rw [hcopy]
  exact .respond rfl rfl rfl (by decide) _ []

/-- A WRITE in FrameStream mode that does not complete a sub-window (R160). -/
theorem exec_streamWrite_quiet {i : Instr} {s t : State} (hw : isWrite i = true) (hmode : s.mode = .stream)
    (hlast : s.nextRow = -1 ∨ s.nextRow.toInt + 1 ≠ s.pwinH.toInt) (h : exec i s = .next t) :
    AnsweredQuietly s t := by
  rw [exec_streamWrite hmode hw, streamWrite] at h
  split at h
  next =>
    split at h
    next => exact streamHeader_quiet h
    next =>
      cases h
      exact .respond rfl rfl rfl (by decide) 0 []
  next hrow => exact streamRow_quiet (hlast.resolve_left hrow) h

/-- Settles O51: neither kind of request uses the bus. -/
theorem quietRequestsCannotFailOnBus : Obligations.QuietRequestsCannotFailOnBus := by
  rintro i s t hwf h (⟨hc, hi⟩ | ⟨hw, hmode, hlast⟩)
  · exact exec_control_quiet hc hwf hi h
  · exact exec_streamWrite_quiet hw hmode hlast h

end Sys2Proof.Machine
end

section
/-! SUPPORT. Resets and hazards (`70_reset_and_hazards.md`): the reset input (R230), the arm, which a READ loses
(R240), and the run of the reset sequence to the launch state (R230, R233). Settles O14, O54 and O60. -/

namespace Sys2Proof.Machine

open Sys2Proof

/-! ## The reset input (R230) -/

/-- Where no request is taken a reset finds none to abandon. -/
theorem abandonRequest_of_no_request {s : State}
    (h : s.hung = true ∨ s.phase ≠ .done ∨ s.attached = false ∨ ∃ why, decode s.cfg s.hostIn = .reject why) :
    abandonRequest s = s := by
  rcases abandonRequest_cases s with e | ⟨i, rest, hready, hd, -⟩
  · exact e
  · obtain ⟨hhung, hphase, hattached⟩ := (ready_iff s).mp hready
    simp [hhung, hphase, hattached, hd] at h

/-- Settles O60: either entry of the reset input restarts the block, `within` with the bytes of the request that is
taken gone. -/
theorem resetAbandonsEverything : Obligations.ResetAbandonsEverything := by
  intro s
  refine ⟨step_of_before, fun i rest hwithin hhung hphase hattached hd => ?taken, fun hwithin hnone => ?none⟩
  case taken =>
    have hready : s.popReset.ready = true := (ready_iff _).mpr ⟨hhung, hphase, hattached⟩
    rw [step_of_within hwithin, abandonRequest_of_ready hready hd]
    rfl
  case none =>
    rw [step_of_within hwithin, abandonRequest_of_no_request (s := s.popReset) hnone]
    rw [step_of_before (s := { s with resetIn := .before :: s.resetIn.tail }) rfl]
    rfl

/-! ## The arm (R240)

The arm is read off the trace: the last command sent, and the window payloads that were latched. -/

/-- Arming leaves the memory-write command as the last one sent. -/
theorem arm_last {s u : State} (h : arm s = ⟨.ok (), u⟩) : u.view.last = some (u.cfg.cmdRamwr, true) := by
  obtain ⟨_, t, -, hramwr⟩ := andThen_eq_ok h
  rw [sendCommand_eq_ok hramwr, view_sent_command]
  rfl

/-- The payloads of the full-panel window are those of its two axes (R7). -/
theorem InStep.fullWindow {s : State} (h : InStep s) (hcol : s.colHit 0 239 = true) (hrow : s.rowHit 0 319 = true) :
    s.view.col = some fullColumns ∧ s.view.row = some fullRows := by
  simp only [State.colHit, State.rowHit, Bool.and_eq_true, decide_eq_true_eq] at hcol hrow
  obtain ⟨⟨hcv, hx1⟩, hx2⟩ := hcol
  obtain ⟨⟨hrv, hy1⟩, hy2⟩ := hrow
  obtain ⟨col, row⟩ := h.cache
  rw [col hcv, row hrv, hx1, hx2, hy1, hy2]
  decide

/-- `SETMODE STREAM` that succeeds arms the controller. -/
theorem enterStream_armed {s u : State} (hs : InStep s) (h : enterStream s = ⟨.ok (), u⟩) : u.armed = true := by
  have recorded := enterStream_eq_ok h
  have hu : InStep u := by
    have := enterStream_inStep hs
    rwa [h] at this
  have hlast : u.view.last = some (u.cfg.cmdRamwr, true) := by
    rcases enterStream_cases s with ⟨-, -, e⟩ | ⟨hbuffer, -⟩
    · rw [e] at h; cases h
    · exact arm_last ((enterStream_of_buffer hbuffer).symm.trans h)
  obtain ⟨hcol, hrow⟩ := hu.fullWindow recorded.col recorded.row
  simp [State.armed, hlast, hcol, hrow]

theorem armed_of_same {s t : State} (hcfg : t.cfg = s.cfg) (htrace : t.trace = s.trace) : t.armed = s.armed := by
  rw [State.armed, State.armed, State.view, State.view, hcfg, htrace]

theorem armed_of_last {s : State} (h : s.view.last ≠ some (s.cfg.cmdRamwr, true)) : s.armed = false := by
  simp [State.armed, h]

/-- While a payload is awaited the last command was a range-set command, not the memory-write command. -/
theorem last_ne_ramwr_of_waiting {s : State} {a : Axis} (hcfg : s.cfg.wf = true) (h : s.view.axis = some a) :
    s.view.last ≠ some (s.cfg.cmdRamwr, true) := by
  have waits : s.view.Waits s.cfg := waits_busView s.cfg s.trace
  obtain ⟨-, ⟨hcaset, hpaset⟩, -⟩ := plain_commands hcfg
  cases a with
  | col => rw [(waits.col h).2]; simpa using hcaset.symm
  | row => rw [(waits.row h).2]; simpa using hpaset.symm

/-- A data message leaves the arm as it is: it changes a latched payload only where one is awaited. -/
theorem sent_msg_armed {s : State} (hs : InStep s) (segs : List TraceSeg) (ok : Bool) (n : Nat) :
    (s.sent [.msg segs ok] n).armed = s.armed := by
  have hview : (s.sent [.msg segs ok] n).view = s.view.data segs ok := view_sent_msg s segs ok n hs.view
  cases haxis : s.view.axis with
  | none =>
    rw [data_of_axis_none segs ok haxis] at hview
    simp [State.armed, hview]
  | some a =>
    have hlast := last_ne_ramwr_of_waiting hs.cfg haxis
    obtain ⟨-, -, keeps, -⟩ := data_keeps segs ok (waits_busView s.cfg s.trace)
    rw [armed_of_last hlast, armed_of_last]
    rw [hview]
    exact fun e => hlast (keeps.symm.trans e)

/-- A flush is one data message, or none that completes (R166). -/
theorem streamFlush_armed {s : State} (hs : InStep s) : (streamFlush s).st.armed = s.armed := by
  rcases streamFlush_cases s with ⟨-, -, e⟩ | ⟨-, e⟩ | ⟨-, e⟩ <;> rw [e]
  · exact sent_msg_armed hs _ true 1
  · exact sent_msg_armed hs _ false 1
  · rfl

/-- The last row of a sub-window sends its flush and nothing else; every other WRITE sends nothing (R201). -/
theorem exec_streamWrite_armed {s t : State} {p : List Byte} (hs : InStep s) (hmode : s.mode = .stream)
    (h : exec (.write p) s = .next t) : t.armed = s.armed := by
  by_cases hlast : s.nextRow = -1 ∨ s.nextRow.toInt + 1 ≠ s.pwinH.toInt
  · obtain ⟨hcfg, -⟩ := (exec_changes h).persists rfl
    obtain ⟨htrace, -⟩ := exec_streamWrite_quiet rfl hmode hlast h
    exact armed_of_same hcfg htrace
  · obtain ⟨hrow, hflush⟩ := not_or.mp hlast
    rw [exec_row hmode hrow (.inr rfl)] at h
    rcases streamRow_cases p s with ⟨-, -, e⟩ | ⟨-, e⟩ | ⟨-, -, e⟩ <;> rw [e] at h <;> cases h
    have hcopied : InStep (copyRow s.rowOffset.toNat p s) := ⟨hs.cfg, hs.cache, hs.dc, hs.view⟩
    have hafter : ∀ o, afterCopy (copyRow o p s) = streamFlush (copyRow o p s) :=
      fun _ => if_pos (not_not.mp hflush)
    rw [hafter]
    exact deliver_keeps (P := fun u => u.armed = s.armed) _ _ (fun _ _ _ _ hu => hu) (streamFlush_armed hcopied)

/-! ### Losing the arm -/

/-- The last command sent is not the memory-write command, and `DC` is high. -/
structure Disarmed (s : State) : Prop where
  dc : s.view.dcLow = false
  last : s.view.last ≠ some (s.cfg.cmdRamwr, true)

/-- A run that returns has left the controller disarmed. -/
def Disarms {α : Type} (r : Run α) : Prop := r.res ≠ .hung → Disarmed r.st

/-- A run that fails has left the controller disarmed. -/
def FailsDisarmed {α : Type} (r : Run α) : Prop := ∀ e, r.res = .err e → Disarmed r.st

theorem Disarms.fails {α : Type} {r : Run α} (h : Disarms r) : FailsDisarmed r :=
  fun e he => h (by rw [he]; nofun)

theorem Disarms.of_ok {α : Type} {r : Run α} {a : α} {t : State} (h : Disarms r) (hr : r = ⟨.ok a, t⟩) :
    Disarmed t := by
  rw [hr] at h
  exact h nofun

theorem FailsDisarmed.of_ok {α : Type} (a : α) (s : State) : FailsDisarmed ⟨.ok a, s⟩ := nofun

/-- `call P?` followed by more (R13). -/
theorem FailsDisarmed.andThen {α β : Type} {r : Run α} {f : α → State → Run β} (h : FailsDisarmed r)
    (hf : ∀ a t, r = ⟨.ok a, t⟩ → FailsDisarmed (f a t)) : FailsDisarmed (r.andThen f) := by
  obtain ⟨res, t⟩ := r
  cases res with
  | ok a => exact hf a t rfl
  | err e => exact fun _ _ => h e rfl
  | hung => exact nofun

/-- `call P?` followed by what disarms where it returns. -/
theorem FailsDisarmed.andThen_disarms {α β : Type} {r : Run α} {f : α → State → Run β} (h : FailsDisarmed r)
    (hf : ∀ a t, r = ⟨.ok a, t⟩ → Disarms (f a t)) : Disarms (r.andThen f) := by
  obtain ⟨res, t⟩ := r
  cases res with
  | ok a => exact hf a t rfl
  | err e => exact fun _ => h e rfl
  | hung => exact fun hne => absurd rfl hne

theorem sendCommand_disarms {code : Byte} {s : State} (h : code ≠ s.cfg.cmdRamwr) : Disarms (sendCommand code s) := by
  have ended : ∀ ok, Disarmed { s.sent (commandEvents code ok) 1 with dc := true } := fun ok => by
    constructor
    · rw [view_sent_command]
    · rw [view_sent_command]
      intro e
      exact h (congrArg Prod.fst (Option.some.inj e))
  rcases sendCommand_cases code s with ⟨_, -, e⟩ | ⟨-, e⟩ | ⟨-, e⟩ <;> rw [e]
  · exact fun _ => ended true
  · exact fun _ => ended false
  · exact fun hne => absurd rfl hne

theorem bus_disarms {s : State} (h : Disarmed s) (segs : List Seg) : Disarms (bus segs s) := by
  have ended : ∀ ts ok, Disarmed (s.sent [.msg ts ok] 1) := fun ts ok => by
    obtain ⟨-, -, last, dc, -⟩ := data_keeps ts ok (waits_busView s.cfg s.trace)
    constructor
    · rw [view_sent_msg _ _ _ _ h.dc]
      exact dc.trans h.dc
    · rw [view_sent_msg _ _ _ _ h.dc]
      exact fun e => h.last (last.symm.trans e)
  cases ha : s.answer 0 with
  | ok rx => rw [bus_ok ha]; exact fun _ => ended _ true
  | fail => rw [bus_fail ha]; exact fun _ => ended _ false
  | never => rw [bus_never ha]; exact fun hne => absurd rfl hne

theorem sendData_fails_disarmed {s : State} (h : Disarmed s) (bytes : List Byte) : FailsDisarmed (sendData bytes s) :=
  (bus_disarms h _).fails.andThen fun _ t _ => .of_ok _ t

/-- A range-set command that fails, in either of its messages, is the last command sent. -/
theorem rangeSet_fails_disarmed {s : State} {code : Byte} (h : code ≠ s.cfg.cmdRamwr) (bytes : List Byte)
    (g : State → State) :
    FailsDisarmed ((sendCommand code s).andThen fun _ s => (sendData bytes s).andThen fun _ s =>
      (⟨.ok (), g s⟩ : Run Unit)) :=
  (sendCommand_disarms h).fails.andThen fun _ _ ht =>
    (sendData_fails_disarmed ((sendCommand_disarms h).of_ok ht) bytes).andThen fun _ _ _ => .of_ok _ _

theorem columnStep_fails_disarmed {s : State} (x1 x2 : Half) (hs : InStep s) :
    FailsDisarmed (columnStep x1 x2 s) := by
  obtain ⟨-, ⟨hcaset, -⟩, -⟩ := plain_commands hs.cfg
  unfold columnStep
  split
  · exact .of_ok _ _
  · exact rangeSet_fails_disarmed (s := s.dropCol) hcaset.symm _ _

theorem rowStep_fails_disarmed {s : State} (y1 y2 : Half) (hs : InStep s) :
    FailsDisarmed (rowStep y1 y2 s) := by
  obtain ⟨-, ⟨-, hpaset⟩, -⟩ := plain_commands hs.cfg
  unfold rowStep
  split
  · exact .of_ok _ _
  · exact rangeSet_fails_disarmed (s := s.dropRow) hpaset.symm _ _

theorem LeavesInStep.of_ok {α : Type} {r : Run α} {a : α} {t : State} (h : LeavesInStep r) (hr : r = ⟨.ok a, t⟩) :
    InStep t := by
  rwa [hr] at h

theorem setFullWindow_fails_disarmed {s : State} (hs : InStep s) : FailsDisarmed (setFullWindow s) :=
  (columnStep_fails_disarmed _ _ hs).andThen fun _ _ ht =>
    rowStep_fails_disarmed _ _ ((columnStep_inStep hs).of_ok ht)

/-- READ fails in its window, or goes on to send `RAMRD`. -/
theorem readPanel_disarms {s : State} (n : Nat) (hs : InStep s) : Disarms (readPanel n s) :=
  (setFullWindow_fails_disarmed hs).andThen_disarms fun _ t ht => by
    obtain ⟨-, -, -, hramrd⟩ := plain_commands ((setWindow_inStep hs).of_ok ht).cfg
    have command := sendCommand_disarms (s := t) hramrd
    exact command.fails.andThen_disarms fun _ _ hu => bus_disarms (command.of_ok hu) _

/-- Settles O54: `RAMWR` is the last command of a successful arming, a WRITE in FrameStream mode sends at most data,
and the last command of a READ that returns is a range-set command or `RAMRD`. -/
theorem armIsKeptByRowsAndLostByRead : Obligations.ArmIsKeptByRowsAndLostByRead := by
  rintro s t ⟨hcfg, -, hcache, hline, -⟩ - hhung hanswered
  have hs : InStep s := hline.inStep hhung hcfg hcache
  refine ⟨fun h hresp => ?stream, fun p => exec_streamWrite_armed hs, fun n h => ?read⟩
  case stream =>
    cases h
    obtain ⟨hquiet, -⟩ := setModeCall_waits Config.modeStream s
    obtain ⟨_, hrun⟩ := eq_ok_of_responses (r := enterStream s) hquiet hresp
    have harmed := enterStream_armed hs hrun
    rw [hrun]
    exact harmed
  case read =>
    cases h
    have hreturns : (readPanel n.toNat s).res ≠ .hung := fun e => by
      have waits := deliver_keeps (P := fun u => u.hung = true) (fun _ => n) (fun bytes => bytes)
        (fun _ _ _ _ hu => hu) (readPanel_marks n.toNat s e)
      exact Bool.false_ne_true (hanswered.symm.trans waits)
    exact deliver_keeps (P := fun u => u.armed = false) _ _ (fun _ _ _ _ hu => hu)
      (armed_of_last (readPanel_disarms n.toNat hs hreturns).last)

/-! ## The reset sequence (R230, R233) -/

/-! ### Runs of the machine -/

theorem run_succ_of_next {M : Host.Core} {s t : M.State} (h : M.step s = .next t) (n : Nat) :
    M.run (n + 1) s = M.run n t := by
  rw [Host.Core.run, h]

/-- A run goes on from where a shorter one ended. -/
theorem run_add_of_next {M : Host.Core} {s t : M.State} {m : Nat} (h : M.run m s = .next t) (n : Nat) :
    M.run (m + n) s = M.run n t := by
  induction m generalizing s with
  | zero => cases h; rw [Nat.zero_add]
  | succ m ih =>
    rw [Nat.add_right_comm, Host.Core.run]
    rw [Host.Core.run] at h
    cases hs : M.step s with
    | next u => rw [hs] at h; exact ih h
    | fault f => rw [hs] at h; cases h
    | refused r => rw [hs] at h; cases h

/-- The machine runs `n` steps from `s`, each to a next state, and ends in `t`. -/
def Runs (n : Nat) (s t : State) : Prop := Sys2Proof.core.run n s = .next t

theorem Runs.zero (s : State) : Runs 0 s s := rfl

theorem Runs.step {s t u : State} {n : Nat} (h : step s = .next t) (hn : Runs n t u) : Runs (n + 1) s u :=
  (run_succ_of_next (M := Sys2Proof.core) h n).trans hn

theorem Runs.trans {s t u : State} {m n : Nat} (hm : Runs m s t) (hn : Runs n t u) : Runs (m + n) s u :=
  (run_add_of_next hm n).trans hn

/-! ### What the two scripts leave -/

/-- The level `RST` has after the entries `es` of the reset script, if it was `l` before them (R230 step 2). -/
def levelAfter (l : Level) (es : List RstStep) : Level := (es.getLast?.map RstStep.level).getD l

theorem levelAfter_cons (l : Level) (e : RstStep) (es : List RstStep) :
    levelAfter l (e :: es) = levelAfter e.level es := by
  cases h : es.getLast? <;> simp [levelAfter, List.getLast?_cons, h]

/-- The level after the whole script is that of the launch state (R20, R234). -/
theorem levelAfter_resetWith (c : Config) :
    levelAfter (State.resetWith c).rst c.rstScript = (State.launch c).rst := by
  cases h : c.rstScript <;> simp [levelAfter, State.resetWith, State.launch, h, List.getLast?_cons]

theorem messages_flatMap_rstEvents (es : List RstStep) : messages (es.flatMap rstEvents) = 0 := by
  induction es with
  | nil => rfl
  | cons e es ih => simp [messages_append, rstEvents, messages, ih]

/-- A post-delay is no message. -/
theorem messages_initEvents (i : InitStep) : messages (initEvents i) = messages (initMessages i) := by
  rw [initEvents, messages_append, messages_delayEvents, Nat.add_zero]

/-- One entry of the reset script is its events (R230 step 2). -/
theorem resetLineEntry_eq (e : RstStep) (rest : List RstStep) (s : State) :
    resetLineEntry e rest s =
      { s.sent (rstEvents e) 0 with rst := e.level, phase := .resetLine rest } := by
  rw [resetLineEntry, delay_eq_sent]
  simp [State.sent, rstEvents]

/-- The state the entries `es` of the reset script leave when no other is left (R230 step 2). -/
def State.afterResetLine (es : List RstStep) (s : State) : State :=
  { s.sent (es.flatMap rstEvents) 0 with rst := levelAfter s.rst es, phase := .resetLine [] }

/-- The state the commands `is` of the init script leave when no other is left and every message ended `ok` (R184). -/
def State.afterInitScript (is : List InitStep) (s : State) : State :=
  { s.sent (is.flatMap initEvents) (messages (is.flatMap initEvents)) with phase := .init [] }

/-- The reset script asks the bus nothing. -/
theorem startInit_afterResetLine_answer (es : List RstStep) (s : State) (k : Nat) :
    (startInit (s.afterResetLine es)).answer k = s.answer k := by
  rw [← Nat.zero_add k, ← sent_answer s (es.flatMap rstEvents) 0 k, Nat.zero_add]
  rfl

/-- The two scripts have sent the boot trace, and left `RST` at the last level (R233). -/
theorem attach_afterScripts (s : State) :
    ((startInit (s.afterResetLine s.cfg.rstScript)).afterInitScript s.cfg.initScript).attach =
      { (s.sent (bootEvents s.cfg) (messages (bootEvents s.cfg))).attach with
        rst := levelAfter s.rst s.cfg.rstScript } := by
  rw [bootEvents, messages_append, messages_flatMap_rstEvents, ← sent_sent]
  simp only [State.attach, startInit, State.afterInitScript, State.afterResetLine, State.sent]

/-! ### The scripts run -/

/-- A block in the reset sequence that waits for no message and of which no reset is asserted. -/
structure Booting (s : State) (phase : Phase) : Prop where
  hung : s.hung = false
  resetIn : s.resetIn = []
  dc : s.dc = true
  phase : s.phase = phase

section Booting

variable {s : State}

theorem Booting.idle {phase : Phase} (h : Booting s phase) : s.resetNow = .idle := by
  rw [State.resetNow, h.resetIn]
  rfl

theorem Booting.step_eq {phase : Phase} (h : Booting s phase) : step s = advance s := by
  have hpop : s.popReset = s := by
    rw [State.popReset, h.resetIn, List.tail_nil, ← h.resetIn]
  rw [step_of_idle h.idle, hpop]

/-- The reset script runs to its end (R230 step 2). -/
theorem Booting.runs_resetLine {es : List RstStep} (h : Booting s (.resetLine es)) :
    Runs es.length s (s.afterResetLine es) := by
  induction es generalizing s with
  | nil =>
    rw [State.afterResetLine, ← h.phase, List.flatMap_nil, sent_zero]
    exact .zero s
  | cons e es ih =>
    have hstep : step s = .next (resetLineEntry e es s) := by
      simp [h.step_eq, advance, h.hung, h.phase]
    rw [resetLineEntry_eq] at hstep
    rw [State.afterResetLine, levelAfter_cons, List.flatMap_cons, ← sent_sent s _ _ 0 0]
    exact .step hstep (ih ⟨h.hung, h.resetIn, h.dc, rfl⟩)

/-- The init script runs to its end when every message ends `ok` (R184). -/
theorem Booting.runs_init {is : List InitStep} (h : Booting s (.init (is.map Pending.ofStep)))
    (hok : s.answersOk (messages (is.flatMap initEvents))) :
    Runs is.length s (s.afterInitScript is) := by
  induction is generalizing s with
  | nil =>
    rw [List.map_nil] at h
    rw [State.afterInitScript, List.flatMap_nil, messages, sent_zero, ← h.phase]
    exact .zero s
  | cons i is ih =>
    rw [List.flatMap_cons, messages_append, messages_initEvents] at hok
    have hstep := initCommandRuns s i _ h.idle h.hung h.dc h.phase (answersOk_le s hok (Nat.le_add_right _ _))
    rw [h.resetIn, List.tail_nil, ← h.resetIn] at hstep
    rw [State.afterInitScript, List.flatMap_cons, messages_append, messages_initEvents, ← sent_sent]
    exact .step hstep (ih ⟨h.hung, h.resetIn, h.dc, rfl⟩ (answersOk_sent (evs := initEvents i) s hok))

/-- The step between the two scripts (R230 step 3). -/
theorem Booting.step_startInit (h : Booting s (.resetLine [])) : step s = .next (startInit s) := by
  simp [h.step_eq, advance, h.hung, h.phase]

theorem Booting.afterResetLine {phase : Phase} (h : Booting s phase) (es : List RstStep) :
    Booting (s.afterResetLine es) (.resetLine []) := ⟨h.hung, h.resetIn, h.dc, rfl⟩

theorem Booting.startsInit {phase : Phase} (h : Booting s phase) :
    Booting (startInit s) (.init (s.cfg.initScript.map Pending.ofStep)) := ⟨h.hung, h.resetIn, h.dc, rfl⟩

theorem Booting.afterInitScript {phase : Phase} (h : Booting s phase) (is : List InitStep) :
    Booting (s.afterInitScript is) (.init []) := ⟨h.hung, h.resetIn, h.dc, rfl⟩

/-- The step after the last script (R184). -/
theorem Booting.step_attach (h : Booting s (.init [])) : step s = .next s.attach := by
  simp [h.step_eq, advance, h.hung, h.phase]

/-- The reset script, the step to the init script, the init script, and the step that attaches (R230). -/
theorem Booting.runs_sequence {l : Level} (h : Booting s (.resetLine s.cfg.rstScript))
    (hl : levelAfter s.rst s.cfg.rstScript = l) (hok : s.answersOk (messages (bootEvents s.cfg))) :
    Runs (s.cfg.rstScript.length + s.cfg.initScript.length + 2) s
      { (s.sent (bootEvents s.cfg) (messages (bootEvents s.cfg))).attach with rst := l } := by
  subst hl
  rw [bootEvents, messages_append, messages_flatMap_rstEvents, Nat.zero_add] at hok
  have hscript : (startInit (s.afterResetLine s.cfg.rstScript)).answersOk
      (messages (s.cfg.initScript.flatMap initEvents)) := fun k hk => by
    rw [startInit_afterResetLine_answer]
    exact hok k hk
  have hscripts := h.afterResetLine s.cfg.rstScript
  have hinit := hscripts.startsInit
  have hrest := (hinit.runs_init hscript).trans (.step (hinit.afterInitScript _).step_attach (.zero _))
  rw [← attach_afterScripts]
  exact h.runs_resetLine.trans (.step hscripts.step_startInit hrest)

end Booting

/-- Settles O14: a reset leaves the block booting, with `RST` at the first level of its script. -/
theorem resetSequenceReachesLaunch : Obligations.ResetSequenceReachesLaunch := by
  rintro c e bytes rs n s rfl hok
  exact Booting.runs_sequence ⟨rfl, rfl, rfl, rfl⟩ (levelAfter_resetWith c) hok

end Sys2Proof.Machine
end
